-- ==== Sys2Proof/Word.lean ====
section
/-! DEFINITION. Word.lean: the words the bus carries (20_memory R50: a 16-bit address, an 8-bit data byte).
A transaction word (30_encoding R80) is a number, taken apart in Decode.lean. -/

namespace Sys2Proof

/-- A data byte of the bus or of storage (20_memory R50). -/
abbrev Byte := BitVec 8

/-- A CPU bus address (20_memory R50). -/
abbrev Addr := BitVec 16

end Sys2Proof
end

