-- ==== Sys2Proof/Config.lean ====
section
/-! DEFINITION. Config.lean: the parameters of a launch (00_scope R7), when they are admitted (00_scope R8), the
abstract tuple of register fields that RESET_STATE, SAVE and RESTORE speak of (10_state R43), and the two values
no source gives, as constants without a body. -/

namespace Sys2Proof

/-- A tuple of the fields of 10_state R21 to R35 as the host hands it over (RESET_STATE, the operand of RESTORE):
each entry a natural number, which may exceed its field's width (45 R233 refuses such a tuple). -/
structure Image where
  bootRomMode : Nat
  mbc5CompatibilityMode : Nat
  ramEnabled : Nat
  romMode : Nat
  ramMode : Nat
  romBanks : Vector Nat 8
  ramBanks : Vector Nat 2
  fpgaRamAutoRwAddress : Nat
  fpgaRamAutoRwIncrement : Nat
  espEnable : Nat
  espIrqEnable : Nat
  espHasReceivedMessage : Nat
  espMessageSent : Nat
  espRxAddress : Nat
  espTxAddress : Nat
  deriving DecidableEq, Repr

/-- Every field within its width (45 R233, 70 R290; the widths are those of 10_state R44). -/
def Image.fits (m : Image) : Bool :=
  decide (m.bootRomMode < 2) && decide (m.mbc5CompatibilityMode < 2) && decide (m.ramEnabled < 2) &&
  decide (m.romMode < 8) && decide (m.ramMode < 2) &&
  m.romBanks.toList.all (fun b => decide (b < 2 ^ 17)) && m.ramBanks.toList.all (fun b => decide (b < 2 ^ 18)) &&
  decide (m.fpgaRamAutoRwAddress < 2 ^ 16) && decide (m.fpgaRamAutoRwIncrement < 2 ^ 8) &&
  decide (m.espEnable < 2) && decide (m.espIrqEnable < 2) && decide (m.espHasReceivedMessage < 2) &&
  decide (m.espMessageSent < 2) && decide (m.espRxAddress < 8) && decide (m.espTxAddress < 8)

/-- The spec's default RESET_STATE: every field 0 but `espMessageSent = 1` (10_state R44, 70 R291, R292).
DESIGN CHOICE (log entry 7): the source gives no reset value. -/
def Image.default : Image where
  bootRomMode := 0
  mbc5CompatibilityMode := 0
  ramEnabled := 0
  romMode := 0
  ramMode := 0
  romBanks := Vector.replicate 8 0
  ramBanks := Vector.replicate 2 0
  fpgaRamAutoRwAddress := 0
  fpgaRamAutoRwIncrement := 0
  espEnable := 0
  espIrqEnable := 0
  espHasReceivedMessage := 0
  espMessageSent := 1
  espRxAddress := 0
  espTxAddress := 0

/-- The parameters of a launch (00_scope R7); the widths and sizes the source fixes are the constants below. -/
structure Config where
  /-- bytes of program ROM -/
  romSize : Nat
  /-- the non-FPGA cartridge-RAM size (`realRamSize`) -/
  cartRamSize : Nat
  /-- the byte read at 0x00CA -/
  mapperVersion : Byte
  /-- every register field after INIT -/
  resetState : Image
  /-- ROM at launch: the bytes that differ from `Memory.unlisted`, as (offset, byte) pairs -/
  romInit : List Host.Cell
  /-- the cartridge-RAM allocation at launch, in the same form -/
  cramInit : List Host.Cell
  /-- bit of `espHasReceivedMessage` in the byte read at 0x00F1 -/
  espRxBit : Fin 8
  /-- bit of `espMessageSent` in the byte read at 0x00F2 -/
  espTxBit : Fin 8
  /-- what the test peer's `pull()` returns on an empty queue -/
  peerEmptyByte : Byte
  /-- the host's `IsBootRomDisabled()` answer at INIT -/
  bootDisabledAtInit : Bool
  deriving DecidableEq, Repr

namespace Config

/-- `FPGA_RAM_SIZE` (00_scope R7). -/
abbrev fpgaRamSize : Nat := 0x2000
/-- `MAILBOX_BASE`, an FPGA-RAM offset (00_scope R7). -/
abbrev mailboxBase : Nat := 0x1800
/-- `MAILBOX_SLOT_SIZE` (00_scope R7). -/
abbrev mailboxSlotSize : Nat := 0x100

/-- A power of two. -/
def isPowerOfTwo (n : Nat) : Bool := n != 0 && n &&& (n - 1) == 0

/-- Configuration well-formedness (00_scope R8): `ROM_SIZE` a power of two and at least 0x8000, `CART_RAM_SIZE` 0 or
a power of two. -/
def wf (c : Config) : Bool :=
  isPowerOfTwo c.romSize && decide (0x8000 ≤ c.romSize) && (c.cartRamSize == 0 || isPowerOfTwo c.cartRamSize)

/-- The size of the cartridge-RAM allocation, which is also what `GetCartRamSize()` returns (10_state R37, R45). -/
def cramSize (c : Config) : Nat := c.cartRamSize + fpgaRamSize

/-- `MAPPER_VERSION` of the launch the reset state stands for: no source gives the byte (00_scope R7, 41 R131), so
it is a constant without a body. DESIGN CHOICE (log entry 9). -/
opaque mapperVersionByte : Byte

/-- `PEER_EMPTY_BYTE` of the launch the reset state stands for: any byte (00_scope R7, 45 R240), a constant without a
body. DESIGN CHOICE (log entry 9). -/
opaque peerEmptyByteValue : Byte

/-- The launch the reset state stands for: the configuration every vector uses (95 section 0).
DESIGN CHOICE (log entries 8, 9, 10). -/
def default : Config where
  romSize := 0x80000
  cartRamSize := 0x8000
  mapperVersion := mapperVersionByte
  resetState := Image.default
  romInit := []
  cramInit := []
  espRxBit := 7
  espTxBit := 7
  peerEmptyByte := peerEmptyByteValue
  bootDisabledAtInit := true

end Config

end Sys2Proof
end

