-- ==== Sys2Proof/Syntax.lean ====
section
/-! DEFINITION. Syntax.lean: the operations of the block, one constructor of `Instr` per row of
spec/opcode_table.json, and the steps of a run (70 R305) as they reach the block. -/

namespace Sys2Proof

/-- One whole step of the block: a bus transaction as decoded, a host operation, or a peer step.
A write to an extended register while compat mode is on is ONE transaction on which two rows of the table fire (41 R133):
it decodes to the extended row, whose meaning runs the legacy row first. DESIGN CHOICE (log entry 3). -/
inductive Instr
  /-- MBC5.RAMG: `Write(a, d)` to 0x0000-0x1FFF in compat mode (42 R151) -/
  | mbc5Ramg (a : Addr) (d : Byte)
  /-- MBC5.ROMB0: `Write(a, d)` to 0x2000-0x2FFF in compat mode (42 R152) -/
  | mbc5Romb0 (a : Addr) (d : Byte)
  /-- MBC5.ROMB1: `Write(a, d)` to 0x3000-0x3FFF in compat mode (42 R153) -/
  | mbc5Romb1 (a : Addr) (d : Byte)
  /-- MBC5.RAMB: `Write(a, d)` to 0x4000-0x5FFF in compat mode (42 R154) -/
  | mbc5Ramb (a : Addr) (d : Byte)
  /-- W.ROMKIND: write of 0x0070+i (42 R156) -/
  | wRomkind (i : BitVec 3) (d : Byte)
  /-- W.RAMKIND: write of 0x007A+j (42 R157) -/
  | wRamkind (j : BitVec 1) (d : Byte)
  /-- W.ROMMID: write of 0x0080+i (42 R158) -/
  | wRommid (i : BitVec 3) (d : Byte)
  /-- W.RAMMID: write of 0x008A+j (42 R159) -/
  | wRammid (j : BitVec 1) (d : Byte)
  /-- W.ROMLO: write of 0x0090+i (42 R160) -/
  | wRomlo (i : BitVec 3) (d : Byte)
  /-- W.RAMLO: write of 0x009A+j (42 R161) -/
  | wRamlo (j : BitVec 1) (d : Byte)
  /-- W.MODE: write of 0x00A0 (41 R134) -/
  | wMode (d : Byte)
  /-- W.CURHI: write of 0x00B0 (43 R172) -/
  | wCurhi (d : Byte)
  /-- W.CURLO: write of 0x00B1 (43 R173) -/
  | wCurlo (d : Byte)
  /-- W.CURINC: write of 0x00B2 (43 R174) -/
  | wCurinc (d : Byte)
  /-- W.FPGADATA: write of 0x00B3 (43 R175) -/
  | wFpgadata (d : Byte)
  /-- W.ESPCFG: write of 0x00F0 (44 R194) -/
  | wEspcfg (d : Byte)
  /-- W.ESPACK: write of 0x00F1 (44 R197) -/
  | wEspack (d : Byte)
  /-- W.ESPTX: write of 0x00F2 (44 R198) -/
  | wEsptx (d : Byte)
  /-- W.ESPRXADDR: write of 0x00F3 (44 R200) -/
  | wEsprxaddr (d : Byte)
  /-- W.ESPTXADDR: write of 0x00F4 (44 R201) -/
  | wEsptxaddr (d : Byte)
  /-- W.BOOT: write of 0x00FF (41 R135) -/
  | wBoot (d : Byte)
  /-- W.FALL: `Write(a, d)` to 0x0000-0x5FFF that no matcher claims (41 R136) -/
  | wFall (a : Addr) (d : Byte)
  /-- W.MEM: `Write(a, d)` to 0x6000-0x7FFF or 0xA000-0xBFFF (45 R221) -/
  | wMem (a : Addr) (d : Byte)
  /-- R.FPGADATA: read of 0x00B3 in the open low window (43 R176) -/
  | rFpgadata
  /-- R.VERSION: read of 0x00CA in the open low window (41 R131) -/
  | rVersion
  /-- R.ESPCFG: read of 0x00F0 in the open low window (44 R195) -/
  | rEspcfg
  /-- R.ESPRX: read of 0x00F1 in the open low window (44 R196) -/
  | rEsprx
  /-- R.ESPTX: read of 0x00F2 in the open low window (44 R199) -/
  | rEsptx
  /-- R.FALL: read of an unclaimed address in an open register read window (41 R132) -/
  | rFall (a : Addr)
  /-- R.MEM: a read no open register read window takes (45 R220) -/
  | rMem (a : Addr)
  /-- REFUSE.NOTDECODED: a read (`w = 0`) or write (`w = 1`) at 0x8000-0x9FFF or 0xC000-0xFFFF (60 R262) -/
  | refuseNotDecoded (w : BitVec 1) (a : Addr) (d : Byte)
  /-- REFUSE.ILLFORMEDWORD: a word with a bit above bit 24 set (30 R80, 60 R262) -/
  | refuseIllFormedWord (t : Nat)
  /-- INIT: a launch with a configuration (70 R290) -/
  | init (cfg : Config)
  /-- RECOMPUTE: the host runs the engine (45 R231) -/
  | recompute
  /-- SAVE: the host takes a save state (45 R232) -/
  | save
  /-- RESTORE: the host restores a save state (45 R233) -/
  | restore (m : Image)
  /-- HOST bootRomDisabled=b: the host's boot-ROM status (45 R234) -/
  | host (b : Bool)
  /-- PEER ready=r queue=q: the test peer's state (45 R240) -/
  | peer (ready : Bool) (queue : List Byte)
  deriving DecidableEq, Repr

/-- The steps that have no transaction word (30 R96). -/
inductive HostOp
  | init (cfg : Config)
  | recompute
  | save
  | restore (m : Image)
  | host (b : Bool)
  | peer (ready : Bool) (queue : List Byte)
  deriving DecidableEq, Repr

/-- One step of a run as it reaches the block (70 R305): a transaction word on the bus, or a host or peer step. -/
inductive Input
  /-- a word presented as a transaction; a number, so that a word of any length can be presented (30 R80) -/
  | word (t : Nat)
  | op (o : HostOp)
  deriving DecidableEq, Repr

/-- The operation a host or peer step asks for. -/
def HostOp.toInstr : HostOp → Instr
  | .init cfg => .init cfg
  | .recompute => .recompute
  | .save => .save
  | .restore m => .restore m
  | .host b => .host b
  | .peer r q => .peer r q

end Sys2Proof
end

