-- ==== Sys2Proof/WellFormed.lean ====
section
/-! DEFINITION. WellFormed.lean: the address ranges of the bus (20 R53) and the checks an instruction's operands pass when it
is the reading of some transaction word. -/

namespace Sys2Proof

/-- The 41 addresses of the extended register map (30 R89). -/
def Addr.isExtended (a : Addr) : Bool :=
  let n := a.toNat
  decide (0x0070 ≤ n ∧ n ≤ 0x0077) || decide (0x007A ≤ n ∧ n ≤ 0x007B) ||
  decide (0x0080 ≤ n ∧ n ≤ 0x0087) || decide (0x008A ≤ n ∧ n ≤ 0x008B) ||
  decide (0x0090 ≤ n ∧ n ≤ 0x0097) || decide (0x009A ≤ n ∧ n ≤ 0x009B) ||
  decide (n = 0x00A0) || decide (0x00B0 ≤ n ∧ n ≤ 0x00B3) || decide (0x00F0 ≤ n ∧ n ≤ 0x00F4) || decide (n = 0x00FF)

/-- The five addresses a register read claims (30 R88). -/
def Addr.isReadRegister (a : Addr) : Bool :=
  let n := a.toNat
  decide (n = 0x00B3) || decide (n = 0x00CA) || decide (0x00F0 ≤ n ∧ n ≤ 0x00F2)

/-- The ROM area 0x0000-0x7FFF (20 R53). -/
def Addr.inRomArea (a : Addr) : Bool := decide (a.toNat ≤ 0x7FFF)

/-- The RAM area 0xA000-0xBFFF (20 R53). -/
def Addr.inRamArea (a : Addr) : Bool := decide (0xA000 ≤ a.toNat ∧ a.toNat ≤ 0xBFFF)

/-- The operands are those of some transaction word that reads as this row (30 R80 to R91), in SOME mode; which mode
the row needs is `Instr.selected` of Decode.lean. Host and peer steps have no word, so every operand is well formed: INIT
and RESTORE give their own answer to an operand that does not fit. -/
def Instr.wf : Instr → Bool
  | .mbc5Ramg a _ => decide (a.toNat ≤ 0x1FFF) && !a.isExtended
  | .mbc5Romb0 a _ => decide (0x2000 ≤ a.toNat ∧ a.toNat ≤ 0x2FFF)
  | .mbc5Romb1 a _ => decide (0x3000 ≤ a.toNat ∧ a.toNat ≤ 0x3FFF)
  | .mbc5Ramb a _ => decide (0x4000 ≤ a.toNat ∧ a.toNat ≤ 0x5FFF)
  | .wRomkind _ _ | .wRamkind _ _ | .wRommid _ _ | .wRammid _ _ | .wRomlo _ _ | .wRamlo _ _ => true
  | .wMode _ | .wCurhi _ | .wCurlo _ | .wCurinc _ | .wFpgadata _ => true
  | .wEspcfg _ | .wEspack _ | .wEsptx _ | .wEsprxaddr _ | .wEsptxaddr _ | .wBoot _ => true
  | .wFall a _ => decide (a.toNat ≤ 0x5FFF) && !a.isExtended
  | .wMem a _ => decide (0x6000 ≤ a.toNat ∧ a.toNat ≤ 0x7FFF) || a.inRamArea
  | .rFpgadata | .rVersion | .rEspcfg | .rEsprx | .rEsptx => true
  | .rFall a => (decide (a.toNat ≤ 0x00FF) && !a.isReadRegister) || a.inRamArea
  | .rMem a => a.inRomArea || a.inRamArea
  | .refuseNotDecoded _ a _ => !(a.inRomArea || a.inRamArea)
  | .refuseIllFormedWord t => decide (2 ^ 25 ≤ t)
  | .init _ | .recompute | .save | .restore _ | .host _ | .peer _ _ => true

end Sys2Proof
end

