-- ==== Sys2Proof/Decode.lean ====
section
/-! DEFINITION. Decode.lean: from a transaction word and the mode to an instruction (30 R80 to R91), and the encoder.
Decoding depends on three bits of state and nothing else (30 R90). -/

namespace Sys2Proof

/-- The three pieces of state that change how a word decodes (30 R90). -/
structure DecodeCtx where
  compat : Bool
  regReadLow : Bool
  regReadHigh : Bool
  deriving DecidableEq, Repr

/-- The mode right after reset: compat off, the low read window open, the high one closed (70 R290, R291). -/
def DecodeCtx.reset : DecodeCtx := ⟨false, true, false⟩

/-- Why a step of the run is no step of the block. -/
inductive DecodeError
  /-- a read word of a decoded address whose data byte is not 0: `D` is 0 for a read (30 R80) and no row matches it -/
  | readCarriesData
  deriving DecidableEq, Repr

/-- The word of `Write(a, d)`: `0x1000000 | (a << 8) | d` (30 R80). -/
def writeWord (a : Addr) (d : Byte) : Nat := 0x1000000 + a.toNat * 0x100 + d.toNat

/-- The word of `Read(a)`: `a << 8` (30 R80). -/
def readWord (a : Addr) : Nat := a.toNat * 0x100

/-- `W`, bit 24 (30 R80). -/
def wordIsWrite (t : Nat) : Bool := t / 0x1000000 % 2 == 1

/-- `A`, bits 23:8 (30 R80). -/
def wordAddr (t : Nat) : Addr := BitVec.ofNat 16 (t / 0x100)

/-- `D`, bits 7:0 (30 R80). -/
def wordData (t : Nat) : Byte := BitVec.ofNat 8 t

/-- The extended register map by exact address (30 R89, matcher 2); `i = A[2:0]`, `j = A[0]` (30 R81). -/
def extendedRow (a : Addr) (d : Byte) : Option Instr :=
  let n := a.toNat
  if 0x0070 ≤ n ∧ n ≤ 0x0077 then some (.wRomkind (a.setWidth 3) d)
  else if 0x007A ≤ n ∧ n ≤ 0x007B then some (.wRamkind (a.setWidth 1) d)
  else if 0x0080 ≤ n ∧ n ≤ 0x0087 then some (.wRommid (a.setWidth 3) d)
  else if 0x008A ≤ n ∧ n ≤ 0x008B then some (.wRammid (a.setWidth 1) d)
  else if 0x0090 ≤ n ∧ n ≤ 0x0097 then some (.wRomlo (a.setWidth 3) d)
  else if 0x009A ≤ n ∧ n ≤ 0x009B then some (.wRamlo (a.setWidth 1) d)
  else if n = 0x00A0 then some (.wMode d)
  else if n = 0x00B0 then some (.wCurhi d)
  else if n = 0x00B1 then some (.wCurlo d)
  else if n = 0x00B2 then some (.wCurinc d)
  else if n = 0x00B3 then some (.wFpgadata d)
  else if n = 0x00F0 then some (.wEspcfg d)
  else if n = 0x00F1 then some (.wEspack d)
  else if n = 0x00F2 then some (.wEsptx d)
  else if n = 0x00F3 then some (.wEsprxaddr d)
  else if n = 0x00F4 then some (.wEsptxaddr d)
  else if n = 0x00FF then some (.wBoot d)
  else none

/-- The legacy MBC5 windows of 0x0000-0x5FFF (30 R89, matcher 1; 42 R150): address bits 11:0 are not looked at. -/
def legacyRow (a : Addr) (d : Byte) : Instr :=
  let n := a.toNat
  if n ≤ 0x1FFF then .mbc5Ramg a d
  else if n ≤ 0x2FFF then .mbc5Romb0 a d
  else if n ≤ 0x3FFF then .mbc5Romb1 a d
  else .mbc5Ramb a d

/-- A write by its address alone (20 R54), then the two matchers (30 R89). -/
def decodeWrite (ctx : DecodeCtx) (a : Addr) (d : Byte) : Instr :=
  let n := a.toNat
  if n ≤ 0x5FFF then
    match extendedRow a d with
    | some i => i
    | none => if ctx.compat then legacyRow a d else .wFall a d
  else if n ≤ 0x7FFF ∨ (0xA000 ≤ n ∧ n ≤ 0xBFFF) then .wMem a d
  else .refuseNotDecoded 1 a d

/-- The register read map, all 16 address bits compared (30 R88). -/
def readRow (a : Addr) : Instr :=
  let n := a.toNat
  if n = 0x00B3 then .rFpgadata
  else if n = 0x00CA then .rVersion
  else if n = 0x00F0 then .rEspcfg
  else if n = 0x00F1 then .rEsprx
  else if n = 0x00F2 then .rEsptx
  else .rFall a

/-- An open register read window covers the address (20 R55). -/
def DecodeCtx.readWindowOpen (ctx : DecodeCtx) (a : Addr) : Bool :=
  (ctx.regReadLow && decide (a.toNat ≤ 0x00FF)) ||
  (ctx.regReadHigh && decide (0xA000 ≤ a.toNat ∧ a.toNat ≤ 0xBFFF))

/-- A read by its address and the open windows (20 R55). Where the block decodes the address, a word that carries data
is no read (30 R80; log entry 6); where it does not, the row REFUSE.NOTDECODED takes the word whatever its data. -/
def decodeRead (ctx : DecodeCtx) (a : Addr) (d : Byte) : Except DecodeError Instr :=
  let n := a.toNat
  if n ≤ 0x7FFF ∨ (0xA000 ≤ n ∧ n ≤ 0xBFFF) then
    if d = 0 then .ok (if ctx.readWindowOpen a then readRow a else .rMem a)
    else .error .readCarriesData
  else .ok (.refuseNotDecoded 0 a d)

/-- The reading of a transaction word (30 R80): a bit above bit 24 makes it ill formed. -/
def decode (ctx : DecodeCtx) (t : Nat) : Except DecodeError Instr :=
  if 0x2000000 ≤ t then .ok (.refuseIllFormedWord t)
  else if wordIsWrite t then .ok (decodeWrite ctx (wordAddr t) (wordData t))
  else decodeRead ctx (wordAddr t) (wordData t)

/-- The reading of one step of a run; a host or peer step needs no decoding (30 R96). -/
def decodeInput (ctx : DecodeCtx) : Input → Except DecodeError Instr
  | .word t => decode ctx t
  | .op o => .ok o.toInstr

/-- The mode the row's condition in the table asks for (30 R90; the rows' "cond"). -/
def Instr.selected (ctx : DecodeCtx) : Instr → Bool
  | .mbc5Ramg _ _ | .mbc5Romb0 _ _ | .mbc5Romb1 _ _ | .mbc5Ramb _ _ => ctx.compat
  | .wFall _ _ => !ctx.compat
  | .rFpgadata | .rVersion | .rEspcfg | .rEsprx | .rEsptx => ctx.regReadLow
  | .rFall a => ctx.readWindowOpen a
  | .rMem a => !ctx.readWindowOpen a
  | .wRomkind _ _ | .wRamkind _ _ | .wRommid _ _ | .wRammid _ _ | .wRomlo _ _ | .wRamlo _ _ => true
  | .wMode _ | .wCurhi _ | .wCurlo _ | .wCurinc _ | .wFpgadata _ => true
  | .wEspcfg _ | .wEspack _ | .wEsptx _ | .wEsprxaddr _ | .wEsptxaddr _ | .wBoot _ | .wMem _ _ => true
  | .refuseNotDecoded _ _ _ | .refuseIllFormedWord _ => true
  | .init _ | .recompute | .save | .restore _ | .host _ | .peer _ _ => true

/-- The address of ROM bank register `i` of a group that starts at `base` (30 R81). -/
def romSlotAddr (base : Nat) (i : BitVec 3) : Addr := BitVec.ofNat 16 (base + i.toNat)

/-- The address of RAM bank register `j` of a group that starts at `base` (30 R81). -/
def ramSlotAddr (base : Nat) (j : BitVec 1) : Addr := BitVec.ofNat 16 (base + j.toNat)

/-- The step a run presents for an instruction: its word (30 R80, R88, R89), or the host or peer step itself (30 R96). -/
def encode : Instr → Input
  | .mbc5Ramg a d => .word (writeWord a d)
  | .mbc5Romb0 a d => .word (writeWord a d)
  | .mbc5Romb1 a d => .word (writeWord a d)
  | .mbc5Ramb a d => .word (writeWord a d)
  | .wRomkind i d => .word (writeWord (romSlotAddr 0x0070 i) d)
  | .wRamkind j d => .word (writeWord (ramSlotAddr 0x007A j) d)
  | .wRommid i d => .word (writeWord (romSlotAddr 0x0080 i) d)
  | .wRammid j d => .word (writeWord (ramSlotAddr 0x008A j) d)
  | .wRomlo i d => .word (writeWord (romSlotAddr 0x0090 i) d)
  | .wRamlo j d => .word (writeWord (ramSlotAddr 0x009A j) d)
  | .wMode d => .word (writeWord 0x00A0 d)
  | .wCurhi d => .word (writeWord 0x00B0 d)
  | .wCurlo d => .word (writeWord 0x00B1 d)
  | .wCurinc d => .word (writeWord 0x00B2 d)
  | .wFpgadata d => .word (writeWord 0x00B3 d)
  | .wEspcfg d => .word (writeWord 0x00F0 d)
  | .wEspack d => .word (writeWord 0x00F1 d)
  | .wEsptx d => .word (writeWord 0x00F2 d)
  | .wEsprxaddr d => .word (writeWord 0x00F3 d)
  | .wEsptxaddr d => .word (writeWord 0x00F4 d)
  | .wBoot d => .word (writeWord 0x00FF d)
  | .wFall a d => .word (writeWord a d)
  | .wMem a d => .word (writeWord a d)
  | .rFpgadata => .word (readWord 0x00B3)
  | .rVersion => .word (readWord 0x00CA)
  | .rEspcfg => .word (readWord 0x00F0)
  | .rEsprx => .word (readWord 0x00F1)
  | .rEsptx => .word (readWord 0x00F2)
  | .rFall a => .word (readWord a)
  | .rMem a => .word (readWord a)
  | .refuseNotDecoded w a d => .word (if w = 1 then writeWord a d else readWord a + d.toNat)
  | .refuseIllFormedWord t => .word t
  | .init cfg => .op (.init cfg)
  | .recompute => .op .recompute
  | .save => .op .save
  | .restore m => .op (.restore m)
  | .host b => .op (.host b)
  | .peer r q => .op (.peer r q)

/-- The instruction the decoder reads from a word, in the mode right after reset (log entry 3): the table's MBC5 rows
need compat mode, and R.MEM at 0x0000-0x00FF a closed read window, which the reset mode does not have. A transaction is
one word of 25 bits, so no bit above the row's own is laid out. -/
def decodeTableWord (_nbits w : Nat) : Option Instr :=
  match decode DecodeCtx.reset w with
  | .ok i => some i
  | .error _ => none

end Sys2Proof
end

