-- ==== Sys2Proof/Machine/State.lean ====
section
/-! DEFINITION. Machine/State.lean: the state of 10_state R20, `(S, M, ROM, CRAM, Log, Fault)`, with what the steps of a run read
beside it (the launch's configuration, the host's boot-ROM answer, the peer, the steps not yet taken) and what the last
step returned; the reasons a step can stop; the state right after reset. -/

namespace Sys2Proof.Machine

open Sys2Proof

/-- A storage array: (offset, byte) pairs, offsets strictly rising, no byte equal to `Memory.unlisted`. -/
abbrev Memory := List Host.Cell

/-- What an offset that is not listed reads as. Every content of an array can be listed, so this is a way of writing
contents down; at reset, where nothing is listed, it is DESIGN CHOICE (log entry 10, unsafe). -/
def Memory.unlisted : Byte := 0x00

/-- The canonical form of a storage array. -/
abbrev Memory.wf (m : Memory) : Prop :=
  m.Pairwise (fun x y => x.1 < y.1) ∧ ∀ c ∈ m, c.2 ≠ Memory.unlisted

/-- S, the register state: BankingState (10_state R21 to R29) and EspBridgeState (R30 to R35). -/
structure Regs where
  bootRomMode : Bool
  mbc5CompatibilityMode : Bool
  ramEnabled : Bool
  romMode : BitVec 3
  ramMode : Bool
  /-- bit 16 kind, bits 15:0 index (10_state R26) -/
  romBanks : Vector (BitVec 17) 8
  /-- bits 17:16 kind, bits 15:0 index (10_state R27) -/
  ramBanks : Vector (BitVec 18) 2
  fpgaRamAutoRwAddress : BitVec 16
  fpgaRamAutoRwIncrement : BitVec 8
  espEnable : Bool
  espIrqEnable : Bool
  espHasReceivedMessage : Bool
  espMessageSent : Bool
  espRxAddress : BitVec 3
  espTxAddress : BitVec 3
  deriving DecidableEq, Repr

/-- The reasons the source leaves an access undefined (60 R261). They are recorded in `State.faults`; the step goes on. -/
inductive ModelFault
  /-- a window onto cartridge RAM that is larger than the cartridge RAM (40 R107) -/
  | ramMaskUndefined
  /-- the ROM area in the extended layout with `romMode` 5, 6 or 7 (40 R112) -/
  | romModeReserved
  deriving DecidableEq, Repr

/-- What a window shows (10_state R36). -/
inductive Target
  | rom (base : Nat)
  | cram (base : Nat)
  | unmapped
  | undef (r : ModelFault)
  deriving DecidableEq, Repr

/-- A window of the installed mapping, both bounds inclusive (00_scope R11). -/
structure Win where
  start : Nat
  stop : Nat
  target : Target
  deriving DecidableEq, Repr

/-- M, the installed mapping (10_state R36). -/
structure Mapping where
  win : List Win
  regReadLow : Bool
  regReadHigh : Bool
  deriving DecidableEq, Repr

/-- The warnings of 60 R263. -/
inductive Warning
  | espDisabledAck
  | espDisabledTx
  deriving DecidableEq, Repr

/-- An entry of Log (45 R242, 60 R263). -/
inductive LogEntry
  | push (b : Byte)
  | warn (w : Warning)
  deriving DecidableEq, Repr

/-- A bus transaction (20 R50), as a fault record names it (60 R261). -/
inductive Transaction
  | read (a : Addr)
  | write (a : Addr) (d : Byte)
  deriving DecidableEq, Repr

/-- What the spec refuses by a sticky mark (60 R262). -/
inductive RefusedReason
  | notDecoded
  | illFormedConfig
  | illFormedState
  | illFormedWord
  deriving DecidableEq, Repr

/-- A record of Fault (60 R261, R262). -/
inductive FaultRecord
  | fault (r : ModelFault) (t : Transaction)
  | refused (r : RefusedReason)
  deriving DecidableEq, Repr

/-- The test peer (45 R240). -/
structure Peer where
  ready : Bool
  queue : List Byte
  deriving DecidableEq, Repr

/-- What a step returned: nothing, the byte of a read (20 R55), the tuple of a SAVE (45 R232). -/
inductive Answer
  | nothing
  | byte (b : Byte)
  | image (r : Regs)
  deriving DecidableEq, Repr

/-- The whole state. `regs` to `faults` are the tuple of 10_state R20; `cfg` is set by INIT only (70 R290);
`hostBootRomDisabled` and `peer` are the host's and the peer's (10_state R40); `pending` and `answer` are the model's. -/
structure State where
  /-- S -/
  regs : Regs
  /-- M -/
  mapping : Mapping
  /-- ROM -/
  rom : Memory
  /-- CRAM, FPGA RAM included (10_state R37, R38) -/
  cram : Memory
  /-- Log, oldest first -/
  log : List LogEntry
  /-- Fault: a set, held in the order of first occurrence without repeats -/
  faults : List FaultRecord
  /-- the parameters of the launch (00_scope R7) -/
  cfg : Config
  /-- the answer of `HostBootRomDisabled()` (45 R234) -/
  hostBootRomDisabled : Bool
  /-- the peer (45 R240) -/
  peer : Peer
  /-- the steps of the run not yet taken, next first (70 R305; log entry 1) -/
  pending : List Input
  /-- what the last step returned (log entry 12) -/
  answer : Answer
  deriving DecidableEq, Repr

/-- Where a step stops. Both are raised by a mapped access and both are SAFE: from reset no run meets them, since the
engine's windows cover both areas and stay inside the allocation (40 R116, R107, R110). -/
inductive Fault
  /-- raised by R.MEM, R.FALL, W.MEM, W.FALL when no installed window covers the address (20 R69 says one always does) -/
  | noWindow
  /-- raised by R.MEM, R.FALL, W.MEM, W.FALL when a window reaches past the cartridge-RAM allocation (00_scope R10 defines
  no byte there) -/
  | outsideStorage
  deriving DecidableEq, Repr

/-- Why a step has no meaning. -/
inductive Refusal
  /-- raised by exec for an instruction without a meaning yet; none is left. Safe. -/
  | notModelled (mnemonic : String)
  /-- raised by step on a launch whose configuration 00_scope R8 does not admit: no step is defined for it. Safe. -/
  | illFormedConfig
  /-- raised by step for a read word that carries data: it encodes no transaction (30 R80). Safe. -/
  | notATransaction
  deriving DecidableEq, Repr

/-- The register state right after reset: the spec's default RESET_STATE (10_state R44, 70 R291, R292).
DESIGN CHOICE (log entry 7, unsafe): the source gives no value. -/
def Regs.reset : Regs where
  bootRomMode := false
  mbc5CompatibilityMode := false
  ramEnabled := false
  romMode := 0
  ramMode := false
  romBanks := Vector.replicate 8 0
  ramBanks := Vector.replicate 2 0
  fpgaRamAutoRwAddress := 0
  fpgaRamAutoRwIncrement := 0
  espEnable := false
  espIrqEnable := false
  espHasReceivedMessage := false
  espMessageSent := true
  espRxAddress := 0
  espTxAddress := 0

/-- The mapping INIT installs by default (70 R290's example). -/
def Mapping.reset : Mapping where
  win := [⟨0x0000, 0x7FFF, .rom 0⟩, ⟨0xA000, 0xBFFF, .rom 0⟩]
  regReadLow := true
  regReadHigh := false

/-- The machine right after reset: INIT with the configuration of the vectors (70 R290, 95 section 0), the peer not ready
with an empty queue, and no step waiting. DESIGN CHOICE (log entries 7, 8, 9, 10, 13). -/
def State.reset : State where
  regs := Regs.reset
  mapping := Mapping.reset
  rom := []
  cram := []
  log := []
  faults := []
  cfg := Config.default
  hostBootRomDisabled := true
  peer := ⟨false, []⟩
  pending := []
  answer := .nothing

end Sys2Proof.Machine
end

