-- ==== Sys2Proof/Machine/Operands.lean ====
section
/-! DEFINITION. Machine/Operands.lean: the operand forms, that is which bits of a data byte go to which bits of a register
(30 R82 to R85, R92), the bank registers by slot, and the widths of a restored tuple. -/

namespace Sys2Proof.Machine

open Sys2Proof

/-- `romBanks[i]` (10_state R26). -/
def Regs.romBank (r : Regs) (i : BitVec 3) : BitVec 17 := r.romBanks[i.toNat]'i.isLt

/-- `ramBanks[j]` (10_state R27). -/
def Regs.ramBank (r : Regs) (j : BitVec 1) : BitVec 18 := r.ramBanks[j.toNat]'j.isLt

/-- `romBanks[i] <- v`. -/
def Regs.setRomBank (r : Regs) (i : BitVec 3) (v : BitVec 17) : Regs :=
  { r with romBanks := r.romBanks.set i.toNat v i.isLt }

/-- `ramBanks[j] <- v`. -/
def Regs.setRamBank (r : Regs) (j : BitVec 1) (v : BitVec 18) : Regs :=
  { r with ramBanks := r.ramBanks.set j.toNat v j.isLt }

/-- Bits 15:0 of a ROM bank register, as a number (10_state R26). -/
def romIndex (v : BitVec 17) : Nat := (v.extractLsb' 0 16).toNat

/-- Bit 16 of a ROM bank register (10_state R26). -/
def romKind (v : BitVec 17) : Bool := v.getLsbD 16

/-- Bits 15:0 of a RAM bank register, as a number (10_state R27). -/
def ramIndex (v : BitVec 18) : Nat := (v.extractLsb' 0 16).toNat

/-- Bits 17:16 of a RAM bank register (10_state R27). -/
def ramKind (v : BitVec 18) : BitVec 2 := v.extractLsb' 16 2

/-- `v[16] <- d[0]` (42 R156, 30 R82). -/
def putRomKind (v : BitVec 17) (d : Byte) : BitVec 17 := d.extractLsb' 0 1 ++ v.extractLsb' 0 16

/-- `v[15:8] <- d` (42 R158). -/
def putRomMid (v : BitVec 17) (d : Byte) : BitVec 17 := v.extractLsb' 16 1 ++ d ++ v.extractLsb' 0 8

/-- `v[7:0] <- d` (42 R160, R152). -/
def putRomLow (v : BitVec 17) (d : Byte) : BitVec 17 := v.extractLsb' 8 9 ++ d

/-- `v[8] <- d[0]` (42 R153). -/
def putRomBit8 (v : BitVec 17) (d : Byte) : BitVec 17 :=
  v.extractLsb' 9 8 ++ d.extractLsb' 0 1 ++ v.extractLsb' 0 8

/-- `v[17:16] <- d[1:0]` (42 R157, 30 R82). -/
def putRamKind (v : BitVec 18) (d : Byte) : BitVec 18 := d.extractLsb' 0 2 ++ v.extractLsb' 0 16

/-- `v[9:8] <- d[1:0]` (42 R159): bits 15:10 have no writer (10_state R27). -/
def putRamMid (v : BitVec 18) (d : Byte) : BitVec 18 :=
  v.extractLsb' 10 8 ++ d.extractLsb' 0 2 ++ v.extractLsb' 0 8

/-- `v[7:0] <- d` (42 R161). -/
def putRamLow (v : BitVec 18) (d : Byte) : BitVec 18 := v.extractLsb' 8 10 ++ d

/-- `v[7:0] <- zext_8(d[3:0])` (42 R154). -/
def putRamLowNibble (v : BitVec 18) (d : Byte) : BitVec 18 :=
  v.extractLsb' 8 10 ++ (0 : BitVec 4) ++ d.extractLsb' 0 4

/-- `c[15:8] <- d` (43 R172). -/
def putCursorHigh (c : BitVec 16) (d : Byte) : BitVec 16 := d ++ c.extractLsb' 0 8

/-- `c[7:0] <- d` (43 R173). -/
def putCursorLow (c : BitVec 16) (d : Byte) : BitVec 16 := c.extractLsb' 8 8 ++ d

/-- The same function on every bank register of a tuple. -/
def mapSlots {α β : Type} {n : Nat} (f : α → β) (v : Vector α n) : Vector β n := ⟨⟨v.toList.map f⟩, by simp⟩

/-- The register state of a tuple that fits (45 R233, 70 R290). -/
def Regs.ofImage (m : Image) : Regs where
  bootRomMode := m.bootRomMode == 1
  mbc5CompatibilityMode := m.mbc5CompatibilityMode == 1
  ramEnabled := m.ramEnabled == 1
  romMode := BitVec.ofNat 3 m.romMode
  ramMode := m.ramMode == 1
  romBanks := mapSlots (BitVec.ofNat 17) m.romBanks
  ramBanks := mapSlots (BitVec.ofNat 18) m.ramBanks
  fpgaRamAutoRwAddress := BitVec.ofNat 16 m.fpgaRamAutoRwAddress
  fpgaRamAutoRwIncrement := BitVec.ofNat 8 m.fpgaRamAutoRwIncrement
  espEnable := m.espEnable == 1
  espIrqEnable := m.espIrqEnable == 1
  espHasReceivedMessage := m.espHasReceivedMessage == 1
  espMessageSent := m.espMessageSent == 1
  espRxAddress := BitVec.ofNat 3 m.espRxAddress
  espTxAddress := BitVec.ofNat 3 m.espTxAddress

/-- The tuple of a register state: what a SAVE hands to a later RESTORE (45 R232). -/
def Regs.toImage (r : Regs) : Image where
  bootRomMode := r.bootRomMode.toNat
  mbc5CompatibilityMode := r.mbc5CompatibilityMode.toNat
  ramEnabled := r.ramEnabled.toNat
  romMode := r.romMode.toNat
  ramMode := r.ramMode.toNat
  romBanks := mapSlots BitVec.toNat r.romBanks
  ramBanks := mapSlots BitVec.toNat r.ramBanks
  fpgaRamAutoRwAddress := r.fpgaRamAutoRwAddress.toNat
  fpgaRamAutoRwIncrement := r.fpgaRamAutoRwIncrement.toNat
  espEnable := r.espEnable.toNat
  espIrqEnable := r.espIrqEnable.toNat
  espHasReceivedMessage := r.espHasReceivedMessage.toNat
  espMessageSent := r.espMessageSent.toNat
  espRxAddress := r.espRxAddress.toNat
  espTxAddress := r.espTxAddress.toNat

end Sys2Proof.Machine
end

