-- ==== Sys2Proof/Machine/Flags.lean ====
section
/-! DEFINITION. Machine/Flags.lean: the status flags of the block (there are no condition codes, 10_state R41): the bytes the
CPU reads at 0x00F0 to 0x00F2 (30 R86), the flag writes of 0x00F0, 0x00A0 and 0x00FF, and the named states of the bridge. -/

namespace Sys2Proof.Machine

open Sys2Proof

/-- The byte read at 0x00F0: bit 1 `espIrqEnable`, bit 0 `espEnable` (44 R195, 30 R86). -/
def espCfgByte (r : Regs) : Byte := (0 : BitVec 6) ++ BitVec.ofBool r.espIrqEnable ++ BitVec.ofBool r.espEnable

/-- `zext_8(flag) << bit` (44 R196, R199). -/
def flagByte (flag : Bool) (bit : Fin 8) : Byte := (BitVec.ofBool flag).setWidth 8 <<< bit.val

/-- `espEnable <- d[0]; espIrqEnable <- d[1]` (44 R194). -/
def putEspCfg (r : Regs) (d : Byte) : Regs := { r with espEnable := d.getLsbD 0, espIrqEnable := d.getLsbD 1 }

/-- `ramMode <- d[7]; mbc5CompatibilityMode <- d[3]; romMode <- d[2:0]`, bits 6:4 ignored (41 R134, 30 R83). -/
def putMode (r : Regs) (d : Byte) : Regs :=
  { r with ramMode := d.getLsbD 7, mbc5CompatibilityMode := d.getLsbD 3, romMode := d.extractLsb' 0 3 }

/-- `bootRomMode <- d[0]` (41 R135). -/
def putBoot (r : Regs) (d : Byte) : Regs := { r with bootRomMode := d.getLsbD 0 }

/-- `Peer.dataReady()` of the test peer (45 R240). -/
def Peer.dataReady (p : Peer) : Bool := p.ready && !p.queue.isEmpty

/-- The named states of the bridge that a state between two steps can be in; *transmitting* is inside one step
(44 R190, R203). -/
inductive LinkState
  | idle
  | inboundPending
  | inboundLatched
  deriving DecidableEq, Repr

/-- The bridge's named state as a function of S and the peer (44 R203). -/
def linkState (s : State) : LinkState :=
  if s.regs.espHasReceivedMessage then .inboundLatched
  else if s.regs.espEnable && s.peer.dataReady then .inboundPending
  else .idle

end Sys2Proof.Machine
end

