-- ==== Sys2Proof/Machine/Layout.lean ====
section
/-! DEFINITION. Machine/Layout.lean: the Mapping Recomputation Engine as a pure function (40 R100 to R114). -/

namespace Sys2Proof.Machine

open Sys2Proof

/-- Boot ROM mode or MBC5 compatibility mode (40 R101). -/
def compatLayout (r : Regs) : Bool := r.bootRomMode || r.mbc5CompatibilityMode

/-- A cartridge-RAM window: the index masked by the RAM's size in windows, undefined when the RAM is smaller than the
window (40 R107). -/
def ramTarget (c : Config) (idx ws : Nat) : Target :=
  if c.cartRamSize < ws then .undef .ramMaskUndefined
  else .cram ((idx &&& (c.cartRamSize / ws - 1)) * ws)

/-- A ROM-area window by its slot's register (40 R106). -/
def romWinTarget (c : Config) (v : BitVec 17) (ws : Nat) : Target :=
  if romKind v then ramTarget c (romIndex v) ws else .rom (romIndex v * ws)

/-- An FPGA-RAM window: the whole region in RAM mode 0, the half index bit 0 names in RAM mode 1 (40 R110). -/
def fpgaTarget (c : Config) (idx : Nat) (ramMode : Bool) : Target :=
  if ramMode then .cram (c.cartRamSize + idx % 2 * 0x1000) else .cram c.cartRamSize

/-- A RAM-area window by its slot's register (40 R109): kind 0 ROM, 1 cartridge RAM, 2 and 3 FPGA RAM. -/
def ramWinTarget (c : Config) (v : BitVec 18) (ws : Nat) (ramMode : Bool) : Target :=
  if ramKind v = 0 then .rom (ramIndex v * ws)
  else if ramKind v = 1 then ramTarget c (ramIndex v) ws
  else fpgaTarget c (ramIndex v) ramMode

/-- The two windows of the compat layout (40 R102): window A is ROM bank 0, window B `romBanks[4]`'s index, its kind
ignored. -/
def compatRomWindows (r : Regs) : List Win :=
  [⟨0x0000, 0x3FFF, .rom 0⟩, ⟨0x4000, 0x7FFF, .rom (romIndex (r.romBank 4) * 0x4000)⟩]

/-- The RAM window of the compat layout (40 R103). -/
def compatRamWindow (c : Config) (r : Regs) : List Win :=
  if r.ramEnabled then [⟨0xA000, 0xBFFF, ramTarget c (ramIndex (r.ramBank 0)) 0x2000⟩]
  else [⟨0xA000, 0xBFFF, .unmapped⟩]

/-- The (start, size) of the ROM windows of each mode, in address order (40 R104); none for the reserved modes. -/
def romPartition (romMode : BitVec 3) : List (Nat × Nat) :=
  match romMode.toNat with
  | 0 => [(0x0000, 0x8000)]
  | 1 => [(0x0000, 0x4000), (0x4000, 0x4000)]
  | 2 => [(0x0000, 0x4000), (0x4000, 0x2000), (0x6000, 0x2000)]
  | 3 => [(0x0000, 0x2000), (0x2000, 0x2000), (0x4000, 0x2000), (0x6000, 0x2000)]
  | 4 => [(0x0000, 0x1000), (0x1000, 0x1000), (0x2000, 0x1000), (0x3000, 0x1000),
          (0x4000, 0x1000), (0x5000, 0x1000), (0x6000, 0x1000), (0x7000, 0x1000)]
  | _ => []

/-- The slot that governs a window: its start address divided by 0x1000 (40 R105). -/
def slotOf (start : Nat) : BitVec 3 := BitVec.ofNat 3 (start / 0x1000)

/-- The ROM area of the extended layout (40 R104 to R106); the reserved modes 5 to 7 install one undefined window
(40 R112). -/
def extRomWindows (c : Config) (r : Regs) : List Win :=
  if r.romMode.toNat ≤ 4 then
    (romPartition r.romMode).map fun p =>
      ⟨p.1, p.1 + p.2 - 1, romWinTarget c (r.romBank (slotOf p.1)) p.2⟩
  else [⟨0x0000, 0x7FFF, .undef .romModeReserved⟩]

/-- The RAM area of the extended layout (40 R108): `ramEnabled` is not consulted. -/
def extRamWindows (c : Config) (r : Regs) : List Win :=
  if r.ramMode then
    [⟨0xA000, 0xAFFF, ramWinTarget c (r.ramBank 0) 0x1000 true⟩,
     ⟨0xB000, 0xBFFF, ramWinTarget c (r.ramBank 1) 0x1000 true⟩]
  else [⟨0xA000, 0xBFFF, ramWinTarget c (r.ramBank 0) 0x2000 false⟩]

/-- `Layout(S, b, cfg)` (40 R100); `b` is the host's boot-ROM answer (40 R111). -/
def layout (c : Config) (r : Regs) (b : Bool) : Mapping :=
  if compatLayout r then
    { win := compatRomWindows r ++ compatRamWindow c r, regReadLow := b, regReadHigh := !r.ramEnabled }
  else
    { win := extRomWindows c r ++ extRamWindows c r, regReadLow := b, regReadHigh := false }

/-- A call of the Address-Space Mapper (45 R229); ranges are half open there. -/
inductive MapperCall
  | mapPrgRom (start stop base : Nat) (readOnly : Bool)
  | mapCartRam (start stop base : Nat) (readOnly : Bool)
  | unmap (start stop : Nat)
  | mapRegisters (start stop : Nat) (reads writes : Bool)
  deriving DecidableEq, Repr

/-- The call a window is installed by (40 R113, R114). -/
def windowCall (w : Win) : MapperCall :=
  match w.target with
  | .rom b => .mapPrgRom w.start (w.stop + 1) b true
  | .cram b => .mapCartRam w.start (w.stop + 1) b false
  | .unmapped => .unmap w.start (w.stop + 1)
  | .undef _ => .unmap w.start (w.stop + 1)

/-- The spec's call sequence for a mapping (40 R114, informative: only the resulting mapping is normative; log entry 19). -/
def mapperCalls (m : Mapping) : List MapperCall :=
  m.win.map windowCall ++ [.mapRegisters 0x0000 0x6000 false true] ++
  (if m.regReadLow then [.mapRegisters 0x0000 0x0100 true true] else []) ++
  (if m.regReadHigh then [.mapRegisters 0xA000 0xC000 true false] else [])

end Sys2Proof.Machine
end

