-- ==== Sys2Proof/Machine/Ops.lean ====
section
/-! DEFINITION. Machine/Ops.lean: the named operations over storage, marks, the mapping and registers that every meaning is
built from. The block has no exceptions (60 R260): what is raised is a record of `State.faults` (60 R261, R262), in the
one operation `State.mark`. -/

namespace Sys2Proof.Machine

open Sys2Proof

/-- The byte at an offset. -/
def Memory.read : Memory → Nat → Byte
  | [], _ => Memory.unlisted
  | (k, b) :: m, o => if k = o then b else Memory.read m o

/-- Store a byte at an offset, keeping the canonical form. -/
def Memory.write : Memory → Nat → Byte → Memory
  | [], o, d => if d = Memory.unlisted then [] else [(o, d)]
  | (k, b) :: m, o, d =>
    if o < k then (if d = Memory.unlisted then (k, b) :: m else (o, d) :: (k, b) :: m)
    else if o = k then (if d = Memory.unlisted then m else (o, d) :: m)
    else (k, b) :: Memory.write m o d

/-- The array of `size` bytes a list of cells describes: cells past the size say nothing, and where an offset is given
twice the later one counts (log entry 15). -/
def Memory.ofCells (cells : List Host.Cell) (size : Nat) : Memory :=
  cells.foldl (fun m c => if c.1 < size then Memory.write m c.1 c.2 else m) []

/-- `RomByte(o)`: ROM aliases modulo `ROM_SIZE` (00_scope R10, 20 R59). -/
def State.romByte (s : State) (o : Nat) : Byte := Memory.read s.rom (o % s.cfg.romSize)

/-- `CramByte(o)` (00_scope R10). -/
def State.cramByte (s : State) (o : Nat) : Byte := Memory.read s.cram o

/-- `CramSet(o, d)` (00_scope R10). -/
def State.cramSet (s : State) (o : Nat) (d : Byte) : State := { s with cram := Memory.write s.cram o d }

/-- `FpgaRead(i)`: byte `CART_RAM_SIZE + i` of the allocation (10_state R38). -/
def State.fpgaRead (s : State) (i : Nat) : Byte := s.cramByte (s.cfg.cartRamSize + i)

/-- `FpgaWrite(i, d)` (10_state R38). -/
def State.fpgaWrite (s : State) (i : Nat) (d : Byte) : State := s.cramSet (s.cfg.cartRamSize + i) d

/-- Add a record to Fault, a set (60 R261): what is in it already is not added again. -/
def insertRecord (x : FaultRecord) (xs : List FaultRecord) : List FaultRecord := if x ∈ xs then xs else xs ++ [x]

/-- Record a fault or a refusal: the step returns nothing and changes nothing else (00_scope R10, 60 R261, R262). -/
def State.mark (s : State) (x : FaultRecord) : State :=
  { s with faults := insertRecord x s.faults, answer := .nothing }

/-- `raise Fault(r)` by a transaction (60 R261). -/
def State.raiseFault (s : State) (r : ModelFault) (t : Transaction) : State := s.mark (.fault r t)

/-- `refuse(r)` (60 R262). -/
def State.refuse (s : State) (r : RefusedReason) : State := s.mark (.refused r)

/-- `Warn(w)` (60 R263). -/
def State.warn (s : State) (w : Warning) : State := { s with log := s.log ++ [.warn w] }

/-- A step that returns a byte (20 R55). -/
def State.ret (s : State) (b : Byte) : State := { s with answer := .byte b }

/-- A step that returns nothing. -/
def State.silent (s : State) : State := { s with answer := .nothing }

/-- Change S. -/
def State.withRegs (s : State) (f : Regs → Regs) : State := { s with regs := f s.regs }

/-- `Recompute()`: M becomes `Layout(S, HostBootRomDisabled(), cfg)` (40 R100). -/
def State.remap (s : State) : State := { s with mapping := layout s.cfg s.regs s.hostBootRomDisabled }

/-- `WinOf(a)` (20 R69). -/
def State.winOf (s : State) (a : Addr) : Option Win :=
  s.mapping.win.find? fun w => decide (w.start ≤ a.toNat ∧ a.toNat ≤ w.stop)

/-- `MappedRead(a)` (20 R57). -/
def mappedRead (a : Addr) (s : State) : Host.Outcome State Fault Refusal :=
  match s.winOf a with
  | none => .fault .noWindow
  | some w =>
    match w.target with
    | .rom b => .next (s.ret (s.romByte (b + (a.toNat - w.start))))
    | .cram b =>
      if b + (a.toNat - w.start) < s.cfg.cramSize then .next (s.ret (s.cramByte (b + (a.toNat - w.start))))
      else .fault .outsideStorage
    | .unmapped => .next (s.ret 0xFF)
    | .undef r => .next (s.raiseFault r (.read a))

/-- `MappedWrite(a, d)` (20 R58): ROM and unmapped windows drop the write. -/
def mappedWrite (a : Addr) (d : Byte) (s : State) : Host.Outcome State Fault Refusal :=
  match s.winOf a with
  | none => .fault .noWindow
  | some w =>
    match w.target with
    | .rom _ => .next s.silent
    | .cram b =>
      if b + (a.toNat - w.start) < s.cfg.cramSize then .next (s.cramSet (b + (a.toNat - w.start)) d).silent
      else .fault .outsideStorage
    | .unmapped => .next s.silent
    | .undef r => .next (s.raiseFault r (.write a d))

/-- `MBC5.RAMG(d)`: `ramEnabled <- (d = 0x0A)` (42 R151). -/
def legacyRamg (d : Byte) (s : State) : State := s.withRegs fun r => { r with ramEnabled := d == 0x0A }

/-- `MBC5.ROMB0(d)`: `romBanks[4][7:0] <- d` (42 R152). -/
def legacyRomb0 (d : Byte) (s : State) : State := s.withRegs fun r => r.setRomBank 4 (putRomLow (r.romBank 4) d)

/-- `MBC5.ROMB1(d)`: `romBanks[4][8] <- d[0]` (42 R153). -/
def legacyRomb1 (d : Byte) (s : State) : State := s.withRegs fun r => r.setRomBank 4 (putRomBit8 (r.romBank 4) d)

/-- `MBC5.RAMB(d)`: `ramBanks[0][7:0] <- zext_8(d[3:0])` (42 R154). -/
def legacyRamb (d : Byte) (s : State) : State := s.withRegs fun r => r.setRamBank 0 (putRamLowNibble (r.ramBank 0) d)

/-- `LegacyWrite(a, d)` by address bits 14:12 (42 R150); it is reached for addresses up to 0x5FFF only. -/
def legacyWrite (a : Addr) (d : Byte) (s : State) : State :=
  match (a.extractLsb' 12 3).toNat with
  | 0 | 1 => legacyRamg d s
  | 2 => legacyRomb0 d s
  | 3 => legacyRomb1 d s
  | _ => legacyRamb d s

/-- The legacy matcher of a register write, tested before any other effect (41 R133). -/
def coFire (a : Addr) (d : Byte) (s : State) : State :=
  if s.regs.mbc5CompatibilityMode then legacyWrite a d s else s

/-- The end of every register write: nothing is returned, and the engine runs (41 R138). -/
def endWrite (s : State) : State := s.silent.remap

/-- A write to an extended register: the legacy matcher, then the register's own rule, then the engine (41 R133,
60 R265). -/
def registerWrite (a : Addr) (d : Byte) (rule : State → State) (s : State) : State := endWrite (rule (coFire a d s))

/-- A bank-field rule: ignored while compat mode is on (42 R155). -/
def unlessCompat (f : Regs → Regs) (s : State) : State :=
  if s.regs.mbc5CompatibilityMode then s else s.withRegs f

end Sys2Proof.Machine
end

