-- ==== Sys2Proof/Machine/Bank.lean ====
section
/-! DEFINITION. Machine/Bank.lean: the bank-select writes, legacy and extended (42_bank_select), with the mode and boot writes
(41 R134, R135). -/

namespace Sys2Proof.Machine

open Sys2Proof

/-- MBC5.RAMG (42 R151). -/
def execMbc5Ramg (_a : Addr) (d : Byte) (s : State) : Host.Outcome State Fault Refusal :=
  .next (endWrite (legacyRamg d s))

/-- MBC5.ROMB0 (42 R152). -/
def execMbc5Romb0 (_a : Addr) (d : Byte) (s : State) : Host.Outcome State Fault Refusal :=
  .next (endWrite (legacyRomb0 d s))

/-- MBC5.ROMB1 (42 R153). -/
def execMbc5Romb1 (_a : Addr) (d : Byte) (s : State) : Host.Outcome State Fault Refusal :=
  .next (endWrite (legacyRomb1 d s))

/-- MBC5.RAMB (42 R154). -/
def execMbc5Ramb (_a : Addr) (d : Byte) (s : State) : Host.Outcome State Fault Refusal :=
  .next (endWrite (legacyRamb d s))

/-- W.ROMKIND (42 R155, R156). -/
def execWRomkind (i : BitVec 3) (d : Byte) (s : State) : Host.Outcome State Fault Refusal :=
  .next (registerWrite (romSlotAddr 0x0070 i) d
    (unlessCompat fun r => r.setRomBank i (putRomKind (r.romBank i) d)) s)

/-- W.RAMKIND (42 R155, R157). -/
def execWRamkind (j : BitVec 1) (d : Byte) (s : State) : Host.Outcome State Fault Refusal :=
  .next (registerWrite (ramSlotAddr 0x007A j) d
    (unlessCompat fun r => r.setRamBank j (putRamKind (r.ramBank j) d)) s)

/-- W.ROMMID (42 R155, R158). -/
def execWRommid (i : BitVec 3) (d : Byte) (s : State) : Host.Outcome State Fault Refusal :=
  .next (registerWrite (romSlotAddr 0x0080 i) d
    (unlessCompat fun r => r.setRomBank i (putRomMid (r.romBank i) d)) s)

/-- W.RAMMID (42 R155, R159). -/
def execWRammid (j : BitVec 1) (d : Byte) (s : State) : Host.Outcome State Fault Refusal :=
  .next (registerWrite (ramSlotAddr 0x008A j) d
    (unlessCompat fun r => r.setRamBank j (putRamMid (r.ramBank j) d)) s)

/-- W.ROMLO (42 R155, R160). -/
def execWRomlo (i : BitVec 3) (d : Byte) (s : State) : Host.Outcome State Fault Refusal :=
  .next (registerWrite (romSlotAddr 0x0090 i) d
    (unlessCompat fun r => r.setRomBank i (putRomLow (r.romBank i) d)) s)

/-- W.RAMLO (42 R155, R161). -/
def execWRamlo (j : BitVec 1) (d : Byte) (s : State) : Host.Outcome State Fault Refusal :=
  .next (registerWrite (ramSlotAddr 0x009A j) d
    (unlessCompat fun r => r.setRamBank j (putRamLow (r.ramBank j) d)) s)

/-- W.MODE (41 R134); not ignored in compat mode. -/
def execWMode (d : Byte) (s : State) : Host.Outcome State Fault Refusal :=
  .next (registerWrite 0x00A0 d (fun s => s.withRegs fun r => putMode r d) s)

/-- W.BOOT (41 R135). -/
def execWBoot (d : Byte) (s : State) : Host.Outcome State Fault Refusal :=
  .next (registerWrite 0x00FF d (fun s => s.withRegs fun r => putBoot r d) s)

end Sys2Proof.Machine
end

