-- ==== Sys2Proof/Machine/Bridge.lean ====
section
/-! DEFINITION. Machine/Bridge.lean: the co-processor message bridge (44_bridge) and the peer's interface (45 R240). -/

namespace Sys2Proof.Machine

open Sys2Proof

/-- `RxBase()`, an FPGA-RAM offset (44 R191). -/
def rxBase (r : Regs) : Nat := Config.mailboxBase + Config.mailboxSlotSize * r.espRxAddress.toNat

/-- `TxBase()`, an FPGA-RAM offset (44 R191). -/
def txBase (r : Regs) : Nat := Config.mailboxBase + Config.mailboxSlotSize * r.espTxAddress.toNat

/-- The byte `Peer.pull()` returns: the head of the queue, `PEER_EMPTY_BYTE` on an empty one (45 R240). -/
def Peer.pulled (p : Peer) (empty : Byte) : Byte := p.queue.headD empty

/-- The peer after `Peer.pull()` (45 R240). -/
def Peer.afterPull (p : Peer) : Peer := { p with queue := p.queue.tail }

/-- `FpgaWrite(at, Peer.pull())`. -/
def pullTo (at_ : Nat) (s : State) : State :=
  { s.fpgaWrite at_ (s.peer.pulled s.cfg.peerEmptyByte) with peer := s.peer.afterPull }

/-- `n` pulls to consecutive FPGA-RAM offsets from `at_` on. -/
def pullMany : Nat → Nat → State → State
  | 0, _, s => s
  | n + 1, at_, s => pullMany n (at_ + 1) (pullTo at_ s)

/-- `Poll()` (44 R192): the length byte goes to byte 0 of the inbound slot, then that many payload bytes. -/
def poll (s : State) : State :=
  if s.regs.espEnable && !s.regs.espHasReceivedMessage && s.peer.dataReady then
    (pullMany (s.peer.pulled s.cfg.peerEmptyByte).toNat (rxBase s.regs + 1) (pullTo (rxBase s.regs) s)).withRegs
      fun r => { r with espHasReceivedMessage := true }
  else s

/-- `Peer.push(b)`, recorded in Log (45 R242). -/
def State.push (s : State) (b : Byte) : State := { s with log := s.log ++ [.push b] }

/-- `n` pushes from consecutive FPGA-RAM offsets from `at_` on. -/
def pushMany : Nat → Nat → State → State
  | 0, _, s => s
  | n + 1, at_, s => pushMany n (at_ + 1) (s.push (s.fpgaRead at_))

/-- `espMessageSent <- b`. -/
def setSent (b : Bool) (s : State) : State := s.withRegs fun r => { r with espMessageSent := b }

/-- `Transmit()` (44 R193): the length byte is pushed too; `espMessageSent` is 0 for the duration. -/
def transmit (s : State) : State :=
  let s := setSent false s
  let len := s.fpgaRead (txBase s.regs)
  setSent true (pushMany len.toNat (txBase s.regs + 1) (s.push len))

/-- W.ESPCFG (44 R194). -/
def execWEspcfg (d : Byte) (s : State) : Host.Outcome State Fault Refusal :=
  .next (registerWrite 0x00F0 d (fun s => s.withRegs fun r => putEspCfg r d) s)

/-- W.ESPACK (44 R197): clears the latched flag while the bridge is enabled, warns otherwise. -/
def execWEspack (d : Byte) (s : State) : Host.Outcome State Fault Refusal :=
  .next (registerWrite 0x00F1 d
    (fun s => if s.regs.espEnable then s.withRegs fun r => { r with espHasReceivedMessage := false }
      else s.warn .espDisabledAck) s)

/-- W.ESPTX (44 R198): transmits while the bridge is enabled, warns otherwise. -/
def execWEsptx (d : Byte) (s : State) : Host.Outcome State Fault Refusal :=
  .next (registerWrite 0x00F2 d (fun s => if s.regs.espEnable then transmit s else s.warn .espDisabledTx) s)

/-- W.ESPRXADDR (44 R200). -/
def execWEsprxaddr (d : Byte) (s : State) : Host.Outcome State Fault Refusal :=
  .next (registerWrite 0x00F3 d (fun s => s.withRegs fun r => { r with espRxAddress := d.extractLsb' 0 3 }) s)

/-- W.ESPTXADDR (44 R201). -/
def execWEsptxaddr (d : Byte) (s : State) : Host.Outcome State Fault Refusal :=
  .next (registerWrite 0x00F4 d (fun s => s.withRegs fun r => { r with espTxAddress := d.extractLsb' 0 3 }) s)

/-- R.ESPCFG (44 R195): no side effect. -/
def execREspcfg (s : State) : Host.Outcome State Fault Refusal := .next (s.ret (espCfgByte s.regs))

/-- R.ESPRX (44 R196, 60 R266): the poll first, then the flag. -/
def execREsprx (s : State) : Host.Outcome State Fault Refusal :=
  .next ((poll s).ret (flagByte (poll s).regs.espHasReceivedMessage s.cfg.espRxBit))

/-- R.ESPTX (44 R199): no side effect. -/
def execREsptx (s : State) : Host.Outcome State Fault Refusal :=
  .next (s.ret (flagByte s.regs.espMessageSent s.cfg.espTxBit))

end Sys2Proof.Machine
end

