-- ==== Sys2Proof/Machine/Fpga.lean ====
section
/-! DEFINITION. Machine/Fpga.lean: the auto-R/W cursor into FPGA RAM (43_fpga_ram). -/

namespace Sys2Proof.Machine

open Sys2Proof

/-- `CursorIndex()`: the low 13 bits of the cursor (43 R171). -/
def cursorIndex (r : Regs) : Nat := (r.fpgaRamAutoRwAddress.extractLsb' 0 13).toNat

/-- `Advance()`: the cursor plus the zero-extended increment, modulo 2^16 (43 R170). -/
def advance (s : State) : State :=
  s.withRegs fun r => { r with fpgaRamAutoRwAddress := r.fpgaRamAutoRwAddress + r.fpgaRamAutoRwIncrement.setWidth 16 }

/-- W.CURHI (43 R172). -/
def execWCurhi (d : Byte) (s : State) : Host.Outcome State Fault Refusal :=
  .next (registerWrite 0x00B0 d
    (fun s => s.withRegs fun r => { r with fpgaRamAutoRwAddress := putCursorHigh r.fpgaRamAutoRwAddress d }) s)

/-- W.CURLO (43 R173). -/
def execWCurlo (d : Byte) (s : State) : Host.Outcome State Fault Refusal :=
  .next (registerWrite 0x00B1 d
    (fun s => s.withRegs fun r => { r with fpgaRamAutoRwAddress := putCursorLow r.fpgaRamAutoRwAddress d }) s)

/-- W.CURINC (43 R174). -/
def execWCurinc (d : Byte) (s : State) : Host.Outcome State Fault Refusal :=
  .next (registerWrite 0x00B2 d (fun s => s.withRegs fun r => { r with fpgaRamAutoRwIncrement := d }) s)

/-- W.FPGADATA: the byte at the cursor, then the advance (43 R175). -/
def execWFpgadata (d : Byte) (s : State) : Host.Outcome State Fault Refusal :=
  .next (registerWrite 0x00B3 d (fun s => advance (s.fpgaWrite (cursorIndex s.regs) d)) s)

/-- R.FPGADATA: the byte at the cursor is read, then the cursor advances (43 R176, 60 R266); no engine run. -/
def execRFpgadata (s : State) : Host.Outcome State Fault Refusal :=
  .next (advance (s.ret (s.fpgaRead (cursorIndex s.regs))))

end Sys2Proof.Machine
end

