-- ==== Sys2Proof/Machine/Lifecycle.lean ====
section
/-! DEFINITION. Machine/Lifecycle.lean: the host operations and the peer step (70 R290; 45 R231 to R234, R240). -/

namespace Sys2Proof.Machine

open Sys2Proof

/-- The effect of INIT on an admitted configuration (70 R290). The peer and the steps not yet taken are not the block's
and stay (log entry 15). -/
def launch (cfg : Config) (s : State) : State :=
  State.remap
    { s with
      regs := Regs.ofImage cfg.resetState
      rom := Memory.ofCells cfg.romInit cfg.romSize
      cram := Memory.ofCells cfg.cramInit cfg.cramSize
      log := []
      faults := []
      cfg := cfg
      hostBootRomDisabled := cfg.bootDisabledAtInit
      answer := .nothing }

/-- INIT (70 R290): the configuration is checked first, then RESET_STATE's widths. -/
def execInit (cfg : Config) (s : State) : Host.Outcome State Fault Refusal :=
  if !cfg.wf then .next (s.refuse .illFormedConfig)
  else if !cfg.resetState.fits then .next (s.refuse .illFormedState)
  else .next (launch cfg s)

/-- RECOMPUTE (45 R231). -/
def execRecompute (s : State) : Host.Outcome State Fault Refusal := .next s.silent.remap

/-- SAVE (45 R232): returns S. -/
def execSave (s : State) : Host.Outcome State Fault Refusal := .next { s with answer := .image s.regs }

/-- RESTORE (45 R233): S becomes the tuple verbatim, then the engine; a tuple that does not fit is refused. -/
def execRestore (m : Image) (s : State) : Host.Outcome State Fault Refusal :=
  if m.fits then .next (State.remap { s with regs := Regs.ofImage m, answer := .nothing })
  else .next (s.refuse .illFormedState)

/-- HOST bootRomDisabled=b (45 R234): sampled only by the engine. -/
def execHost (b : Bool) (s : State) : Host.Outcome State Fault Refusal :=
  .next { s with hostBootRomDisabled := b, answer := .nothing }

/-- PEER ready=r queue=q (45 R240). -/
def execPeer (ready : Bool) (queue : List Byte) (s : State) : Host.Outcome State Fault Refusal :=
  .next { s with peer := ⟨ready, queue⟩, answer := .nothing }

end Sys2Proof.Machine
end

