-- ==== Sys2Proof/Machine/Mapped.lean ====
section
/-! DEFINITION. Machine/Mapped.lean: the transactions that reach storage through the installed mapping, the version read, and
the two refused transactions (41 R131, R132, R136; 45 R220, R221; 60 R262). -/

namespace Sys2Proof.Machine

open Sys2Proof

/-- W.FALL (41 R136): through the mapping installed before this write, then the engine (which runs after a recorded
fault too, 60 R261). -/
def execWFall (a : Addr) (d : Byte) (s : State) : Host.Outcome State Fault Refusal :=
  match mappedWrite a d s with
  | .next t => .next t.remap
  | .fault r => .fault r
  | .refused r => .refused r

/-- W.MEM (45 R221): no engine run. -/
def execWMem (a : Addr) (d : Byte) (s : State) : Host.Outcome State Fault Refusal := mappedWrite a d s

/-- R.VERSION (41 R131). -/
def execRVersion (s : State) : Host.Outcome State Fault Refusal := .next (s.ret s.cfg.mapperVersion)

/-- R.FALL (41 R132). -/
def execRFall (a : Addr) (s : State) : Host.Outcome State Fault Refusal := mappedRead a s

/-- R.MEM (45 R220). -/
def execRMem (a : Addr) (s : State) : Host.Outcome State Fault Refusal := mappedRead a s

/-- REFUSE.NOTDECODED (60 R262, 20 R53). -/
def execRefuseNotDecoded (_w : BitVec 1) (_a : Addr) (_d : Byte) (s : State) : Host.Outcome State Fault Refusal :=
  .next (s.refuse .notDecoded)

/-- REFUSE.ILLFORMEDWORD (60 R262, 30 R80). -/
def execRefuseIllFormedWord (_t : Nat) (s : State) : Host.Outcome State Fault Refusal :=
  .next (s.refuse .illFormedWord)

end Sys2Proof.Machine
end

