-- ==== Sys2Proof/Machine/Dispatch.lean ====
section
/-! DEFINITION. Machine/Dispatch.lean: one arm per instruction. -/

namespace Sys2Proof.Machine

open Sys2Proof

def exec (i : Instr) (s : State) : Host.Outcome State Fault Refusal :=
  match i with
  | .mbc5Ramg a d => Sys2Proof.Machine.execMbc5Ramg a d s
  | .mbc5Romb0 a d => Sys2Proof.Machine.execMbc5Romb0 a d s
  | .mbc5Romb1 a d => Sys2Proof.Machine.execMbc5Romb1 a d s
  | .mbc5Ramb a d => Sys2Proof.Machine.execMbc5Ramb a d s
  | .wRomkind k d => Sys2Proof.Machine.execWRomkind k d s
  | .wRamkind j d => Sys2Proof.Machine.execWRamkind j d s
  | .wRommid k d => Sys2Proof.Machine.execWRommid k d s
  | .wRammid j d => Sys2Proof.Machine.execWRammid j d s
  | .wRomlo k d => Sys2Proof.Machine.execWRomlo k d s
  | .wRamlo j d => Sys2Proof.Machine.execWRamlo j d s
  | .wMode d => Sys2Proof.Machine.execWMode d s
  | .wCurhi d => Sys2Proof.Machine.execWCurhi d s
  | .wCurlo d => Sys2Proof.Machine.execWCurlo d s
  | .wCurinc d => Sys2Proof.Machine.execWCurinc d s
  | .wFpgadata d => Sys2Proof.Machine.execWFpgadata d s
  | .wEspcfg d => Sys2Proof.Machine.execWEspcfg d s
  | .wEspack d => Sys2Proof.Machine.execWEspack d s
  | .wEsptx d => Sys2Proof.Machine.execWEsptx d s
  | .wEsprxaddr d => Sys2Proof.Machine.execWEsprxaddr d s
  | .wEsptxaddr d => Sys2Proof.Machine.execWEsptxaddr d s
  | .wBoot d => Sys2Proof.Machine.execWBoot d s
  | .wFall a d => Sys2Proof.Machine.execWFall a d s
  | .wMem a d => Sys2Proof.Machine.execWMem a d s
  | .rFpgadata => Sys2Proof.Machine.execRFpgadata s
  | .rVersion => Sys2Proof.Machine.execRVersion s
  | .rEspcfg => Sys2Proof.Machine.execREspcfg s
  | .rEsprx => Sys2Proof.Machine.execREsprx s
  | .rEsptx => Sys2Proof.Machine.execREsptx s
  | .rFall a => Sys2Proof.Machine.execRFall a s
  | .rMem a => Sys2Proof.Machine.execRMem a s
  | .refuseNotDecoded w a d => Sys2Proof.Machine.execRefuseNotDecoded w a d s
  | .refuseIllFormedWord t => Sys2Proof.Machine.execRefuseIllFormedWord t s
  | .init cfg => Sys2Proof.Machine.execInit cfg s
  | .recompute => Sys2Proof.Machine.execRecompute s
  | .save => Sys2Proof.Machine.execSave s
  | .restore m => Sys2Proof.Machine.execRestore m s
  | .host b => Sys2Proof.Machine.execHost b s
  | .peer ready queue => Sys2Proof.Machine.execPeer ready queue s

end Sys2Proof.Machine
end

