-- ==== Sys2Proof/Machine/Fetch.lean ====
section
/-! DEFINITION. Machine/Fetch.lean: taking the next step of the run (70 R305), the mode it decodes in (30 R90), presenting a
word, and the spec's pseudo-operations and text form for steps (30 R94, R95). -/

namespace Sys2Proof.Machine

open Sys2Proof

/-- The next step of the run and the state without it; none when no step waits (70 R305). -/
def fetch (s : State) : Option (Input × State) :=
  match s.pending with
  | [] => none
  | x :: xs => some (x, { s with pending := xs })

/-- The three bits of state that change decoding (30 R90). -/
def State.decodeCtx (s : State) : DecodeCtx :=
  ⟨s.regs.mbc5CompatibilityMode, s.mapping.regReadLow, s.mapping.regReadHigh⟩

/-- The state with a word presented next (log entry 1). -/
def State.present (s : State) (t : Nat) : State := { s with pending := .word t :: s.pending }

/-- `W aaaa, dd` (30 R94). -/
def pseudoWrite (a : Nat) (d : Byte) : Input := .word (writeWord (BitVec.ofNat 16 a) d)

/-- `R aaaa` (30 R94). -/
def pseudoRead (a : Nat) : Input := .word (readWord (BitVec.ofNat 16 a))

/-- `SETROM i, idx, k` (30 R95). -/
def pseudoSetRom (i : BitVec 3) (idx : BitVec 16) (k : Byte) : List Input :=
  [pseudoWrite (0x0070 + i.toNat) k, pseudoWrite (0x0080 + i.toNat) (idx.extractLsb' 8 8),
   pseudoWrite (0x0090 + i.toNat) (idx.extractLsb' 0 8)]

/-- `SETRAM j, idx, k` (30 R95). -/
def pseudoSetRam (j : BitVec 1) (idx : BitVec 16) (k : Byte) : List Input :=
  [pseudoWrite (0x007A + j.toNat) k, pseudoWrite (0x008A + j.toNat) ((idx.extractLsb' 8 2).setWidth 8),
   pseudoWrite (0x009A + j.toNat) (idx.extractLsb' 0 8)]

/-- `MODE rom, ram, c` (30 R95): the byte `(ram << 7) | (c << 3) | rom`. -/
def pseudoMode (rom : BitVec 3) (ram c : BitVec 1) : List Input :=
  [pseudoWrite 0x00A0 (ram ++ (0 : BitVec 3) ++ c ++ rom)]

/-- `SETCUR addr, inc` (30 R95). -/
def pseudoSetCur (addr : BitVec 16) (inc : Byte) : List Input :=
  [pseudoWrite 0x00B0 (addr.extractLsb' 8 8), pseudoWrite 0x00B1 (addr.extractLsb' 0 8), pseudoWrite 0x00B2 inc]

/-- `ESPCFG en, irq` (30 R95). -/
def pseudoEspCfg (en irq : BitVec 1) : List Input := [pseudoWrite 0x00F0 ((0 : BitVec 6) ++ irq ++ en)]

/-- `MBC5ROM idx9` (30 R95). -/
def pseudoMbc5Rom (idx9 : BitVec 9) : List Input :=
  [pseudoWrite 0x2000 (idx9.extractLsb' 0 8), pseudoWrite 0x3000 ((idx9.extractLsb' 8 1).setWidth 8)]

/-- A hex digit. -/
def hexDigit (n : Nat) : Char := (['0', '1', '2', '3', '4', '5', '6', '7', '8', '9', 'A', 'B', 'C', 'D', 'E', 'F']).getD n '0'

/-- The lowest `k` hex digits of a number, most significant first. -/
def hexDigits : Nat → Nat → List Char
  | 0, _ => []
  | k + 1, n => hexDigits k (n / 16) ++ [hexDigit (n % 16)]

/-- The text of a transaction (30 R94): addresses as four hex digits, data as two. -/
def transactionText : Transaction → List Char
  | .read a => ['R', ' '] ++ hexDigits 4 a.toNat
  | .write a d => ['W', ' '] ++ hexDigits 4 a.toNat ++ [',', ' '] ++ hexDigits 2 d.toNat

end Sys2Proof.Machine
end

