-- ==== Sys2Proof/Machine/Step.lean ====
section
/-! DEFINITION. Machine/Step.lean: one step of the block (00_scope R5). -/

namespace Sys2Proof.Machine

open Sys2Proof

/-- One step. On a configuration that is not admitted no step is defined (00_scope R8). With no step waiting the block does
nothing: it never steps on its own (00_scope R6; log entry 2). Otherwise the next step of the run is taken off the list,
decoded in the mode the state is in, and executed as one atomic step (20 R61, R63). -/
def step (s : State) : Host.Outcome State Fault Refusal :=
  if s.cfg.wf then
    match fetch s with
    | none => .next s
    | some (x, t) =>
      match decodeInput t.decodeCtx x with
      | .ok i => exec i t
      | .error .readCarriesData => .refused .notATransaction
  else .refused .illFormedConfig

/-- The state with a transaction word presented as the next step (log entry 1): nothing else is changed. -/
def State.withFetchWord (s : State) (_nbits w : Nat) : State := s.present w

end Sys2Proof.Machine
end

