-- ==== Sys2Proof/Safety.lean ====
section
/-! DEFINITION. Safety.lean: what a good state is (a valid end state, 70 R305) and the relations between fields that hold in every
state a run reaches. -/

namespace Sys2Proof.Machine

open Sys2Proof

/-- A valid end state of a run: no fault and no refusal recorded (70 R305). -/
def State.valid (s : State) : Prop := s.faults = []

/-- M is `Layout` of the current S but for the latched boot-ROM answer (10_state R36, 20 R66). -/
def State.mappingCurrent (s : State) : Prop := s.mapping = layout s.cfg s.regs s.mapping.regReadLow

/-- Both arrays are in canonical form and inside their sizes (10_state R37). -/
def State.storageFits (s : State) : Prop :=
  Memory.wf s.rom ∧ (∀ c ∈ s.rom, c.1 < s.cfg.romSize) ∧
  Memory.wf s.cram ∧ (∀ c ∈ s.cram, c.1 < s.cfg.cramSize)

/-- The relations between fields that every step keeps. -/
structure State.Inv (s : State) : Prop where
  /-- the launch's configuration is admitted (00_scope R8) -/
  admitted : s.cfg.wf = true
  current : s.mappingCurrent
  storage : s.storageFits
  /-- Fault is a set (60 R261) -/
  marks : s.faults.Nodup

end Sys2Proof.Machine
end

