-- ==== Sys2Proof/Certificates/Slice0/Obligations.lean ====
section
/-! DEFINITION. Certificates/Slice0/Obligations.lean: the statements for the provers. The names under `Sys2Proof.Claims` are the
vocabulary they are written in. -/

namespace Sys2Proof.Claims

open Sys2Proof Sys2Proof.Machine

/-- What `ramEnabled` is after a write to an extended register: the MBC5 RAM-enable latch fires in compat mode only. -/
def latched (s : State) (d : Byte) : Bool :=
  if s.regs.mbc5CompatibilityMode then decide (d = 0x0A) else s.regs.ramEnabled

/-- The frame of a register write that touches no storage: only S changes, M is the layout of the new S, nothing is
returned, and every byte of storage reads as before. -/
def RegisterWriteFrame (s t : State) : Prop :=
  t = { s with regs := t.regs, mapping := layout s.cfg t.regs s.hostBootRomDisabled, answer := .nothing } ∧
  ∀ o, t.cramByte o = s.cramByte o ∧ t.romByte o = s.romByte o

/-- Every bit of every ROM bank register, and no other register, after a write: bit `b` of slot `k` is `f k b`. -/
def RomBanksBecome (s t : State) (f : BitVec 3 → Nat → Bool) (ramEnabled : Bool) : Prop :=
  t.regs = { s.regs with romBanks := t.regs.romBanks, ramEnabled := ramEnabled } ∧
  ∀ k b, b < 17 → (t.regs.romBank k).getLsbD b = f k b

/-- Every bit of both RAM bank registers, and no other register, after a write. -/
def RamBanksBecome (s t : State) (f : BitVec 1 → Nat → Bool) (ramEnabled : Bool) : Prop :=
  t.regs = { s.regs with ramBanks := t.regs.ramBanks, ramEnabled := ramEnabled } ∧
  ∀ k b, b < 18 → (t.regs.ramBank k).getLsbD b = f k b

/-- An address of one of the two decoded areas (20 R53). -/
def Decoded (a : Addr) : Prop := a.toNat ≤ 0x7FFF ∨ (0xA000 ≤ a.toNat ∧ a.toNat ≤ 0xBFFF)

/-- The rule of an extended register by its exact address (30 R89), with the bits each rule moves (42 R156 to R161, 41 R134,
R135, 43 R172 to R175, 44 R194 to R201). -/
def extendedRule (a : Addr) (d : Byte) (s : State) : Option State :=
  let n := a.toNat
  let i : BitVec 3 := BitVec.ofNat 3 (n % 8)
  let j : BitVec 1 := BitVec.ofNat 1 (n % 2)
  let bank (r : Regs) : State := if s.regs.mbc5CompatibilityMode then s else { s with regs := r }
  if 0x0070 ≤ n ∧ n ≤ 0x0077 then some (bank (s.regs.setRomBank i (putRomKind (s.regs.romBank i) d)))
  else if n = 0x007A ∨ n = 0x007B then some (bank (s.regs.setRamBank j (putRamKind (s.regs.ramBank j) d)))
  else if 0x0080 ≤ n ∧ n ≤ 0x0087 then some (bank (s.regs.setRomBank i (putRomMid (s.regs.romBank i) d)))
  else if n = 0x008A ∨ n = 0x008B then some (bank (s.regs.setRamBank j (putRamMid (s.regs.ramBank j) d)))
  else if 0x0090 ≤ n ∧ n ≤ 0x0097 then some (bank (s.regs.setRomBank i (putRomLow (s.regs.romBank i) d)))
  else if n = 0x009A ∨ n = 0x009B then some (bank (s.regs.setRamBank j (putRamLow (s.regs.ramBank j) d)))
  else match n with
    | 0x00A0 => some { s with regs := putMode s.regs d }
    | 0x00B0 => some { s with regs := { s.regs with
        fpgaRamAutoRwAddress := putCursorHigh s.regs.fpgaRamAutoRwAddress d } }
    | 0x00B1 => some { s with regs := { s.regs with
        fpgaRamAutoRwAddress := putCursorLow s.regs.fpgaRamAutoRwAddress d } }
    | 0x00B2 => some { s with regs := { s.regs with fpgaRamAutoRwIncrement := d } }
    | 0x00B3 => some { s.fpgaWrite (s.regs.fpgaRamAutoRwAddress.toNat % 0x2000) d with regs := { s.regs with
        fpgaRamAutoRwAddress := s.regs.fpgaRamAutoRwAddress + s.regs.fpgaRamAutoRwIncrement.setWidth 16 } }
    | 0x00F0 => some { s with regs := putEspCfg s.regs d }
    | 0x00F1 => some (if s.regs.espEnable then { s with regs := { s.regs with espHasReceivedMessage := false } }
        else s.warn .espDisabledAck)
    | 0x00F2 => some (if s.regs.espEnable then transmit s else s.warn .espDisabledTx)
    | 0x00F3 => some { s with regs := { s.regs with espRxAddress := BitVec.ofNat 3 (d.toNat % 8) } }
    | 0x00F4 => some { s with regs := { s.regs with espTxAddress := BitVec.ofNat 3 (d.toNat % 8) } }
    | 0x00FF => some { s with regs := putBoot s.regs d }
    | _ => none

/-- `RegWrite(a, d)` as 41 R133 writes it: the legacy matcher, the extended rule, the fall-through, the engine. -/
def regWrite (a : Addr) (d : Byte) (s : State) : Host.Outcome State Fault Refusal :=
  let s1 := if s.regs.mbc5CompatibilityMode then legacyWrite a d s else s
  match extendedRule a d s1 with
  | some s2 => .next s2.silent.remap
  | none =>
    if s.regs.mbc5CompatibilityMode then .next s1.silent.remap
    else match mappedWrite a d s1 with
      | .next s2 => .next s2.remap
      | .fault r => .fault r
      | .refused r => .refused r

/-- `Write(a, d)` as 20 R54 routes it. -/
def busWrite (a : Addr) (d : Byte) (s : State) : Host.Outcome State Fault Refusal :=
  if a.toNat ≤ 0x5FFF then regWrite a d s
  else if a.toNat ≤ 0x7FFF ∨ (0xA000 ≤ a.toNat ∧ a.toNat ≤ 0xBFFF) then mappedWrite a d s
  else .next (s.refuse .notDecoded)

/-- `RegRead(a)` as 41 R130 writes it. -/
def regRead (a : Addr) (s : State) : Host.Outcome State Fault Refusal :=
  match a.toNat with
  | 0x00B3 => .next { s with
      answer := .byte (s.fpgaRead (s.regs.fpgaRamAutoRwAddress.toNat % 0x2000))
      regs := { s.regs with
        fpgaRamAutoRwAddress := s.regs.fpgaRamAutoRwAddress + s.regs.fpgaRamAutoRwIncrement.setWidth 16 } }
  | 0x00CA => .next (s.ret s.cfg.mapperVersion)
  | 0x00F0 => .next (s.ret (espCfgByte s.regs))
  | 0x00F1 => .next ((poll s).ret (flagByte (poll s).regs.espHasReceivedMessage s.cfg.espRxBit))
  | 0x00F2 => .next (s.ret (flagByte s.regs.espMessageSent s.cfg.espTxBit))
  | _ => mappedRead a s

/-- `Read(a)` as 20 R55 routes it. -/
def busRead (a : Addr) (s : State) : Host.Outcome State Fault Refusal :=
  if a.toNat ≤ 0x00FF ∧ s.mapping.regReadLow = true then regRead a s
  else if (0xA000 ≤ a.toNat ∧ a.toNat ≤ 0xBFFF) ∧ s.mapping.regReadHigh = true then regRead a s
  else if a.toNat ≤ 0x7FFF ∨ (0xA000 ≤ a.toNat ∧ a.toNat ≤ 0xBFFF) then mappedRead a s
  else .next (s.refuse .notDecoded)

/-- The (start, end) of the windows of a mapping that lie in the ROM area. -/
def romBounds (m : Mapping) : List (Nat × Nat) := (m.win.filter fun w => decide (w.stop ≤ 0x7FFF)).map fun w => (w.start, w.stop)

/-- The (start, end) of the windows of a mapping that lie in the RAM area. -/
def ramBounds (m : Mapping) : List (Nat × Nat) := (m.win.filter fun w => decide (0xA000 ≤ w.start)).map fun w => (w.start, w.stop)

/-- How many installed windows cover an address. -/
def coverCount (m : Mapping) (n : Nat) : Nat := (m.win.filter fun w => decide (w.start ≤ n ∧ n ≤ w.stop)).length

/-- The ROM bank slots the extended layout consults in each mode (40 R105). -/
def consultedSlots (romMode : BitVec 3) : List (BitVec 3) :=
  match romMode.toNat with
  | 0 => [0]
  | 1 => [0, 4]
  | 2 => [0, 4, 6]
  | 3 => [0, 2, 4, 6]
  | 4 => [0, 1, 2, 3, 4, 5, 6, 7]
  | _ => []

/-- Executing instructions one after the other. -/
def execAll : List Instr → State → Host.Outcome State Fault Refusal
  | [], s => .next s
  | i :: is, s =>
    match exec i s with
    | .next t => execAll is t
    | .fault r => .fault r
    | .refused r => .refused r

/-- The bytes `n` reads of 0x00B3 return, one after the other; none if one of them returns no byte. -/
def readSeries : Nat → State → Option (List Byte)
  | 0, _ => some []
  | n + 1, s =>
    match exec .rFpgadata s with
    | .next t =>
      match t.answer with
      | .byte b => (readSeries n t).map (b :: ·)
      | _ => none
    | _ => none

/-- The byte a list of cells gives an offset: the last one listed for it, 0 if none is. -/
def cellsByte (cells : List Host.Cell) (o : Nat) : Byte :=
  match cells.reverse.find? (fun c => decide (c.1 = o)) with
  | some c => c.2
  | none => 0

/-- The word reads as the instruction in every mode. -/
def Encodes (w : Nat) (i : Instr) : Prop := ∀ ctx, decode ctx w = .ok i

/-- The word of a read of 0x0000-0x00FF reads as the register read while the low window is open, and as a mapped read of
the address while it is closed. -/
def EncodesRead (w : Nat) (a : Addr) (i : Instr) : Prop :=
  ∀ ctx, decode ctx w = .ok (if ctx.regReadLow then i else .rMem a)

/-- The byte of a status flag at a bit position. -/
def statusByte (flag : Bool) (bit : Fin 8) : Byte := if flag then BitVec.ofNat 8 (2 ^ bit.val) else 0

/-- A bus read: the seven read rows of the table. -/
def isRead : Instr → Bool
  | .rFpgadata | .rVersion | .rEspcfg | .rEsprx | .rEsptx | .rFall _ | .rMem _ => true
  | _ => false

/-- INIT or RESTORE, the steps that load S whole. -/
def loadsState : Instr → Bool
  | .init _ | .restore _ => true
  | _ => false

/-- INIT, which starts a new launch. -/
def isInit : Instr → Bool
  | .init _ => true
  | _ => false

end Sys2Proof.Claims

open Sys2Proof Sys2Proof.Machine Sys2Proof.Claims

/-! ### Encoding and the step -/

/-- 30 R80, R81, R88, R89, R90, R96: the decoder gives back every well-formed instruction, in every mode that selects its row. -/
def Obligations.DecodeInvertsEncode : Prop :=
  ∀ (ctx : DecodeCtx) (i : Instr), i.wf = true → i.selected ctx = true → decodeInput ctx (encode i) = .ok i

/-- 30 R80, R88 to R91: a word has at most one reading, that reading is well formed and selected by the mode, and it encodes back
to the word: the decoder drops no bit and invents none. -/
def Obligations.EncodeInvertsDecode : Prop :=
  ∀ (ctx : DecodeCtx) (t : Nat) (i : Instr), decode ctx t = .ok i →
    i.wf = true ∧ i.selected ctx = true ∧ encode i = .word t

/-- Words written out from the spec's text read as the rows it names. -/
def Obligations.SpecWordsDecode : Prop :=
  decode ⟨false, true, false⟩ 0x100A083 = .ok (.wMode 0x83) ∧
  decode ⟨false, true, false⟩ 0x000B300 = .ok .rFpgadata ∧
  decode ⟨true, true, true⟩ 0x12FFF05 = .ok (.mbc5Romb0 0x2FFF 0x05) ∧
  decode ⟨false, true, false⟩ 0x1007B06 = .ok (.wRamkind 1 0x06) ∧
  decode ⟨false, true, false⟩ 0x100937F = .ok (.wRomlo 3 0x7F) ∧
  decode ⟨false, true, false⟩ 0x100F200 = .ok (.wEsptx 0x00) ∧
  decode ⟨false, true, false⟩ 0x1A00012 = .ok (.wMem 0xA000 0x12) ∧
  decode ⟨false, true, false⟩ 0x0456700 = .ok (.rMem 0x4567) ∧
  decode ⟨false, true, false⟩ 0x0004000 = .ok (.rFall 0x0040) ∧
  decode ⟨false, true, false⟩ 0x0800000 = .ok (.refuseNotDecoded 0 0x8000 0) ∧
  decode ⟨false, true, false⟩ 0x2000000 = .ok (.refuseIllFormedWord 0x2000000)

/-- 30 R80: the word of a transaction holds W in bit 24, A in bits 23:8 and D in bits 7:0, and a word with a bit above bit 24
is refused by the mark `Refused(IllFormedWord)`. -/
def Obligations.TransactionWordLayout : Prop :=
  (∀ (a : Addr) (d : Byte),
    writeWord a d = 0x1000000 ||| (a.toNat <<< 8) ||| d.toNat ∧ readWord a = a.toNat <<< 8 ∧
    (BitVec.ofNat 25 (writeWord a d) : BitVec 25) = (1 : BitVec 1) ++ a ++ d ∧
    (BitVec.ofNat 25 (readWord a) : BitVec 25) = (0 : BitVec 1) ++ a ++ (0 : BitVec 8)) ∧
  ∀ (s : State) (t : Nat), s.cfg.wf = true → (∃ k, 25 ≤ k ∧ t.testBit k = true) →
    step (s.present t) = .next (s.refuse .illFormedWord)

/-- 00_scope R5: a step executes the decoded instruction on the state without it; the step adds nothing around exec. A word
placed by `withFetchWord` is the next step. -/
def Obligations.StepRunsDecodedInstruction : Prop :=
  (∀ (s : State) (x : Input) (xs : List Input) (i : Instr), s.cfg.wf = true → s.pending = x :: xs →
    decodeInput s.decodeCtx x = .ok i → step s = exec i { s with pending := xs }) ∧
  ∀ (s : State) (nbits w : Nat) (i : Instr), s.cfg.wf = true → decode s.decodeCtx w = .ok i →
    step (s.withFetchWord nbits w) = exec i s

/-- The model's choice (log entry 2; 00_scope R6: the block never steps on its own): with no step waiting nothing changes. -/
def Obligations.StepWithNothingPending : Prop :=
  ∀ s : State, s.cfg.wf = true → s.pending = [] → step s = .next s

/-- 00_scope R8: a configuration is admitted exactly if ROM_SIZE is a power of two and at least 0x8000 and CART_RAM_SIZE is 0 or
a power of two; on any other no step is defined. -/
def Obligations.StepRefusesUnadmittedConfiguration : Prop :=
  (∀ c : Config, c.wf = true ↔
    (∃ k, c.romSize = 2 ^ k) ∧ 0x8000 ≤ c.romSize ∧ (c.cartRamSize = 0 ∨ ∃ k, c.cartRamSize = 2 ^ k)) ∧
  ∀ s : State, s.cfg.wf = false → step s = .refused .illFormedConfig

/-- The model's choice (log entry 6; 30 R80: D is 0 for a read): a read word of a decoded address that carries data is no
transaction, and the step refuses it by name. -/
def Obligations.StepRefusesReadWordWithData : Prop :=
  ∀ (s : State) (a : Addr) (d : Byte), s.cfg.wf = true → Decoded a → d ≠ 0 →
    step (s.present (readWord a + d.toNat)) = .refused .notATransaction

/-! ### Whole-machine invariants -/

/-- 10_state R36, R37, 20 R66, 60 R261, 00_scope R8: every step keeps the invariant: the configuration admitted, M the layout of
the current S but for the latched boot-ROM answer, both arrays in canonical form and inside their sizes, Fault a set. -/
def Obligations.StepKeepsInvariant : Prop :=
  ∀ s t : State, s.Inv → step s = .next t → t.Inv

/-- The reset state meets the invariant. -/
def Obligations.ResetMeetsInvariant : Prop := State.reset.Inv

/-- 60 R274: from a state that meets the invariant the block never gets stuck: a step has a next state, but for a read word that
carries data (log entry 6), which the step refuses by name. No step faults. -/
def Obligations.EveryStepHasANextState : Prop :=
  ∀ s : State, s.Inv →
    (∃ t, step s = .next t) ∨
    (∃ a d xs, Decoded a ∧ d ≠ 0#8 ∧ s.pending = .word (readWord a + d.toNat) :: xs ∧
      step s = .refused .notATransaction)

/-- The values the reset state holds: the spec's default RESET_STATE (10_state R44, 70 R291; the source gives no value, log
entry 7), the mapping of 70 R290's example, nothing logged and nothing recorded, storage reading 0 (log entry 10). -/
def Obligations.ResetHoldsDefaults : Prop :=
  let s := State.reset
  (s.regs.bootRomMode = false ∧ s.regs.mbc5CompatibilityMode = false ∧ s.regs.ramEnabled = false ∧ s.regs.romMode = 0 ∧
    s.regs.ramMode = false ∧ (∀ k, s.regs.romBank k = 0) ∧ (∀ k, s.regs.ramBank k = 0) ∧
    s.regs.fpgaRamAutoRwAddress = 0 ∧ s.regs.fpgaRamAutoRwIncrement = 0 ∧ s.regs.espEnable = false ∧
    s.regs.espIrqEnable = false ∧ s.regs.espHasReceivedMessage = false ∧ s.regs.espMessageSent = true ∧
    s.regs.espRxAddress = 0 ∧ s.regs.espTxAddress = 0) ∧
  s.mapping = ⟨[⟨0x0000, 0x7FFF, .rom 0⟩, ⟨0xA000, 0xBFFF, .rom 0⟩], true, false⟩ ∧
  s.mapping = layout s.cfg s.regs s.hostBootRomDisabled ∧
  (∀ o, s.romByte o = 0 ∧ s.cramByte o = 0) ∧ s.log = [] ∧ s.faults = [] ∧
  s.regs = Regs.ofImage s.cfg.resetState ∧ s.cfg.romSize = 0x80000 ∧ s.cfg.cartRamSize = 0x8000 ∧
  s.hostBootRomDisabled = s.cfg.bootDisabledAtInit

/-- 10_state R47, 70 R290: no step but INIT takes an entry out of Log or a record out of Fault. -/
def Obligations.MarksStayAndLogGrows : Prop :=
  ∀ (i : Instr) (s t : State), exec i s = .next t → isInit i = false →
    (∃ new, t.log = s.log ++ new) ∧ (∀ x ∈ s.faults, x ∈ t.faults)

/-- 10_state R37, R45, 20 R68: no step but INIT changes a byte of ROM or the configuration. -/
def Obligations.RomAndConfigurationAreFixed : Prop :=
  ∀ (i : Instr) (s t : State), exec i s = .next t → isInit i = false →
    t.cfg = s.cfg ∧ ∀ o, t.romByte o = s.romByte o

/-- 10_state R22: `mbc5CompatibilityMode` changes only by a write of 0x00A0 (and by INIT and RESTORE, which load S whole). -/
def Obligations.OnlyModeWriteChangesCompat : Prop :=
  ∀ (i : Instr) (s t : State), exec i s = .next t →
    t.regs.mbc5CompatibilityMode ≠ s.regs.mbc5CompatibilityMode → (∃ d, i = .wMode d) ∨ loadsState i = true

/-- 10_state R21: `bootRomMode` changes only by a write of 0x00FF (and by INIT and RESTORE). -/
def Obligations.OnlyBootWriteChangesBootMode : Prop :=
  ∀ (i : Instr) (s t : State), exec i s = .next t →
    t.regs.bootRomMode ≠ s.regs.bootRomMode → (∃ d, i = .wBoot d) ∨ loadsState i = true

/-- 10_state R23, 42 R151: a transaction changes `ramEnabled` only while compat mode is on, and then it is a write below 0x2000. -/
def Obligations.RamEnableChangesInCompatOnly : Prop :=
  ∀ (s t : State) (w : Nat), step (s.present w) = .next t → t.regs.ramEnabled ≠ s.regs.ramEnabled →
    s.regs.mbc5CompatibilityMode = true ∧
      ∃ (a : Addr) (d : Byte), w = writeWord a d ∧ a.toNat < 0x2000 ∧ t.regs.ramEnabled = decide (d = 0x0A)

/-- 10_state R27: bits 15:10 of a RAM bank register have no writer but INIT and RESTORE. -/
def Obligations.RamBankHighBitsHaveNoWriter : Prop :=
  ∀ (i : Instr) (s t : State), exec i s = .next t → loadsState i = false →
    ∀ (k : BitVec 1) (b : Nat), 10 ≤ b → b ≤ 15 → (t.regs.ramBank k).getLsbD b = (s.regs.ramBank k).getLsbD b

/-- 10_state R33, 70 R292, R304: once `espMessageSent` is 1 every step but INIT and RESTORE leaves it 1, so the CPU reads 1. -/
def Obligations.MessageSentStaysSet : Prop :=
  ∀ (i : Instr) (s t : State), exec i s = .next t → loadsState i = false → s.regs.espMessageSent = true →
    t.regs.espMessageSent = true

/-- 20 R60, R66: a read never rebuilds M, and a read that is neither R.FPGADATA nor R.ESPRX changes no register and no byte of
storage, logs nothing and pulls nothing. -/
def Obligations.ReadsKeepTheMapping : Prop :=
  ∀ (i : Instr) (s t : State), isRead i = true → exec i s = .next t →
    t.mapping = s.mapping ∧ t.log = s.log ∧
    (i ≠ .rFpgadata → i ≠ .rEsprx →
      t = { s with answer := t.answer, faults := t.faults } ∧ ∀ o, t.cramByte o = s.cramByte o ∧ t.romByte o = s.romByte o)

/-! ### Routing of transactions -/

/-- 20 R54, 41 R133, R136, R138, 60 R265: one step on the word of a write is the routing and the write dispatch as the spec's
pseudocode writes them, both matchers and their order included. -/
def Obligations.WriteStepFollowsDispatch : Prop :=
  ∀ (s : State) (a : Addr) (d : Byte), s.cfg.wf = true → step (s.present (writeWord a d)) = busWrite a d s

/-- 20 R55, 41 R130: one step on the word of a read is the routing and the read dispatch as the spec's pseudocode writes them. -/
def Obligations.ReadStepFollowsDispatch : Prop :=
  ∀ (s : State) (a : Addr), s.cfg.wf = true → step (s.present (readWord a)) = busRead a s

/-- 70 R299, 41 R133: in compat mode a write to any extended register sets the RAM-enable latch as well. -/
def Obligations.CompatCoFiring : Prop :=
  ∀ (s : State) (a : Addr) (d : Byte), s.cfg.wf = true → s.regs.mbc5CompatibilityMode = true → a.toNat ≤ 0x1FFF →
    ∃ t, step (s.present (writeWord a d)) = .next t ∧ t.regs.ramEnabled = decide (d = 0x0A)

/-- 60 R262: each refusal of the spec records its mark and changes nothing else, and no step but INIT, a new launch that empties
Fault (70 R290), clears the mark; on an unadmitted configuration no step is defined at all (00_scope R8). That an INIT with an
unadmitted configuration answers the old state with the mark, the old launch staying in force, is the model's choice (log entry 5). -/
def Obligations.RefusalsAreRecorded : Prop :=
  ∀ s : State,
    (∀ (a : Addr) (d : Byte), ¬ Decoded a →
      (∀ w, exec (.refuseNotDecoded w a d) s = .next (s.refuse .notDecoded)) ∧
      (s.cfg.wf = true →
        step (s.present (readWord a)) = .next (s.refuse .notDecoded) ∧
        step (s.present (writeWord a d)) = .next (s.refuse .notDecoded))) ∧
    (∀ t, 2 ^ 25 ≤ t → exec (.refuseIllFormedWord t) s = .next (s.refuse .illFormedWord)) ∧
    (∀ c : Config, c.wf = false → exec (.init c) s = .next (s.refuse .illFormedConfig)) ∧
    (∀ c : Config, c.wf = true → c.resetState.fits = false → exec (.init c) s = .next (s.refuse .illFormedState)) ∧
    (∀ m : Image, m.fits = false → exec (.restore m) s = .next (s.refuse .illFormedState)) ∧
    (∀ r, s.refuse r = { s with faults := (s.refuse r).faults, answer := .nothing } ∧
      ∀ x, x ∈ (s.refuse r).faults ↔ x ∈ s.faults ∨ x = .refused r) ∧
    (∀ r i t, isInit i = false → exec i (s.refuse r) = .next t → FaultRecord.refused r ∈ t.faults) ∧
    (s.cfg.wf = false → step s = .refused .illFormedConfig)

/-! ### The engine -/

/-- 40 R116, 10_state R36: in every layout each address of the two areas lies in exactly one window and no other address in any;
the windows' bounds are those of the tables. -/
def Obligations.LayoutTilesBothAreas : Prop :=
  ∀ (c : Config) (r : Regs) (b : Bool),
    (∀ n, (n ≤ 0x7FFF ∨ (0xA000 ≤ n ∧ n ≤ 0xBFFF)) → coverCount (layout c r b) n = 1) ∧
    (∀ n, ¬ (n ≤ 0x7FFF ∨ (0xA000 ≤ n ∧ n ≤ 0xBFFF)) → coverCount (layout c r b) n = 0) ∧
    (compatLayout r = true →
      romBounds (layout c r b) = [(0x0000, 0x3FFF), (0x4000, 0x7FFF)] ∧ ramBounds (layout c r b) = [(0xA000, 0xBFFF)]) ∧
    (compatLayout r = false →
      romBounds (layout c r b) =
        (match r.romMode.toNat with
          | 1 => [(0x0000, 0x3FFF), (0x4000, 0x7FFF)]
          | 2 => [(0x0000, 0x3FFF), (0x4000, 0x5FFF), (0x6000, 0x7FFF)]
          | 3 => [(0x0000, 0x1FFF), (0x2000, 0x3FFF), (0x4000, 0x5FFF), (0x6000, 0x7FFF)]
          | 4 => [(0x0000, 0x0FFF), (0x1000, 0x1FFF), (0x2000, 0x2FFF), (0x3000, 0x3FFF), (0x4000, 0x4FFF),
                  (0x5000, 0x5FFF), (0x6000, 0x6FFF), (0x7000, 0x7FFF)]
          | _ => [(0x0000, 0x7FFF)]) ∧
      ramBounds (layout c r b) = if r.ramMode then [(0xA000, 0xAFFF), (0xB000, 0xBFFF)] else [(0xA000, 0xBFFF)])

/-- 40 R107: on an admitted configuration a cartridge-RAM window of a size the layouts use is undefined if the RAM is smaller, so
that an access through it records the fault, and otherwise shows the bank whose number wraps at the RAM's size, inside the
ordinary cartridge RAM. -/
def Obligations.CartRamTargetWrapsInside : Prop :=
  (∀ (c : Config) (idx ws : Nat), c.wf = true → ws ∈ [0x1000, 0x2000, 0x4000, 0x8000] →
    (c.cartRamSize < ws → ramTarget c idx ws = .undef .ramMaskUndefined) ∧
    (ws ≤ c.cartRamSize →
      ramTarget c idx ws = .cram ((idx &&& (c.cartRamSize / ws - 1)) * ws) ∧
      (idx &&& (c.cartRamSize / ws - 1)) = idx % (c.cartRamSize / ws) ∧
      c.cartRamSize / ws * ws = c.cartRamSize ∧
      (idx &&& (c.cartRamSize / ws - 1)) * ws + ws ≤ c.cartRamSize)) ∧
  (∀ (s : State) (a : Addr) (d : Byte) (w : Win) (c : Config) (idx ws : Nat), s.winOf a = some w → w.target = ramTarget c idx ws →
    c.cartRamSize < ws →
    exec (.rMem a) s = .next (s.raiseFault .ramMaskUndefined (.read a)) ∧
    exec (.rFall a) s = .next (s.raiseFault .ramMaskUndefined (.read a)) ∧
    exec (.wMem a d) s = .next (s.raiseFault .ramMaskUndefined (.write a d)) ∧
    exec (.wFall a d) s =
      .next { s.raiseFault .ramMaskUndefined (.write a d) with mapping := layout s.cfg s.regs s.hostBootRomDisabled }) ∧
  0x8000 / 0x8000 - 1 = 0 ∧ 0x8000 / 0x4000 - 1 = 1 ∧ 0x8000 / 0x2000 - 1 = 3 ∧ 0x8000 / 0x1000 - 1 = 7

/-- 40 R101, R102, R103, R111: boot ROM mode or compat mode forces the compat layout, whatever the kind bits, the modes and the
other slots hold. -/
def Obligations.CompatLayoutIsForced : Prop :=
  ∀ (c : Config) (r : Regs) (b : Bool), r.bootRomMode = true ∨ r.mbc5CompatibilityMode = true →
    layout c r b =
      { win := [⟨0x0000, 0x3FFF, .rom 0⟩, ⟨0x4000, 0x7FFF, .rom ((r.romBank 4).toNat % 0x10000 * 0x4000)⟩,
          ⟨0xA000, 0xBFFF,
            if r.ramEnabled then ramTarget c ((r.ramBank 0).toNat % 0x10000) 0x2000 else .unmapped⟩]
        regReadLow := b
        regReadHigh := !r.ramEnabled }

/-- 40 R104, R105, R106, R111, R112: the ROM area of the extended layout. The window that holds an address is driven by the slot of its
start address; kind 0 shows program ROM unmasked, kind 1 cartridge RAM. -/
def Obligations.ExtendedRomWindows : Prop :=
  ∀ (c : Config) (r : Regs) (b : Bool), r.bootRomMode = false → r.mbc5CompatibilityMode = false →
    (layout c r b).regReadLow = b ∧ (layout c r b).regReadHigh = false ∧
    (∀ w ∈ (layout c r b).win, w.stop ≤ 0x7FFF → r.romMode.toNat ≤ 4 →
      w.target =
        (let v := r.romBank (BitVec.ofNat 3 (w.start / 0x1000))
         if v.toNat < 0x10000 then .rom (v.toNat * (w.stop - w.start + 1))
         else ramTarget c (v.toNat % 0x10000) (w.stop - w.start + 1))) ∧
    (5 ≤ r.romMode.toNat → ∀ w ∈ (layout c r b).win, w.stop ≤ 0x7FFF → w = ⟨0x0000, 0x7FFF, .undef .romModeReserved⟩)

/-- 40 R108, R109, R110: the RAM area of the extended layout. -/
def Obligations.ExtendedRamWindows : Prop :=
  ∀ (c : Config) (r : Regs) (b : Bool), r.bootRomMode = false → r.mbc5CompatibilityMode = false →
    ∀ w ∈ (layout c r b).win, 0xA000 ≤ w.start →
      let v := if w.start = 0xB000 then r.ramBank 1 else r.ramBank 0
      let idx := v.toNat % 0x10000
      w.target =
        (match v.toNat / 0x10000 with
          | 0 => .rom (idx * (w.stop - w.start + 1))
          | 1 => ramTarget c idx (w.stop - w.start + 1)
          | _ => if r.ramMode then .cram (c.cartRamSize + idx % 2 * 0x1000) else .cram c.cartRamSize)

/-- 43 R177, 10_state R38: no window of the ROM area reaches FPGA RAM. -/
def Obligations.RomAreaNeverShowsFpgaRam : Prop :=
  ∀ (c : Config) (r : Regs) (b : Bool) (w : Win) (o : Nat), w ∈ (layout c r b).win → w.stop ≤ 0x7FFF → w.target = .cram o →
    o + (w.stop - w.start) < c.cartRamSize

/-- 40 R101, R105, R108: the layout does not depend on the registers the mode does not consult. -/
def Obligations.UnconsultedRegistersDoNotMatter : Prop :=
  ∀ (c : Config) (r q : Regs) (b : Bool),
    (compatLayout r = true → compatLayout q = true → r.ramEnabled = q.ramEnabled →
      (r.romBank 4).toNat % 0x10000 = (q.romBank 4).toNat % 0x10000 →
      (r.ramBank 0).toNat % 0x10000 = (q.ramBank 0).toNat % 0x10000 → layout c r b = layout c q b) ∧
    (compatLayout r = false → compatLayout q = false → r.romMode = q.romMode → r.ramMode = q.ramMode →
      (∀ k ∈ consultedSlots r.romMode, r.romBank k = q.romBank k) → r.ramBank 0 = q.ramBank 0 →
      (r.ramMode = true → r.ramBank 1 = q.ramBank 1) → layout c r b = layout c q b)

/-- 40 R112, 60 R261: in the extended layout with a reserved ROM mode every mapped access of the ROM area records the fault with
its transaction, returns nothing and stores nothing, and the engine of a fall-through write still runs. -/
def Obligations.ReservedRomModeFaultsOnAccess : Prop :=
  ∀ (s : State) (a : Addr) (d : Byte), s.mappingCurrent → s.regs.bootRomMode = false → s.regs.mbc5CompatibilityMode = false →
    5 ≤ s.regs.romMode.toNat → a.toNat ≤ 0x7FFF →
    exec (.rMem a) s = .next (s.raiseFault .romModeReserved (.read a)) ∧
    exec (.rFall a) s = .next (s.raiseFault .romModeReserved (.read a)) ∧
    exec (.wMem a d) s = .next (s.raiseFault .romModeReserved (.write a d)) ∧
    exec (.wFall a d) s =
      .next { s.raiseFault .romModeReserved (.write a d) with mapping := layout s.cfg s.regs s.hostBootRomDisabled }

/-- 45 R231, 40 R115, R117: RECOMPUTE changes M alone; where M is current it changes nothing but the latched boot-ROM answer; a
second one changes nothing. -/
def Obligations.RecomputeIsIdempotent : Prop :=
  ∀ s : State, ∃ t, exec .recompute s = .next t ∧
    t = { s with mapping := layout s.cfg s.regs s.hostBootRomDisabled, answer := .nothing } ∧
    (∀ o, t.cramByte o = s.cramByte o ∧ t.romByte o = s.romByte o) ∧
    exec .recompute t = .next t ∧
    (s.mappingCurrent → t.mapping = { s.mapping with regReadLow := s.hostBootRomDisabled })

/-- 40 R118, 41 R135: setting `bootRomMode` forces the two-window layout whatever the stored modes are, and clearing it again gives
back the layout of the stored configuration. -/
def Obligations.BootModeOverridesAndReverts : Prop :=
  ∀ (s : State) (d e : Byte), d.getLsbD 0 = true → e.getLsbD 0 = false → s.regs.mbc5CompatibilityMode = false →
    ∃ t u, exec (.wBoot d) s = .next t ∧ exec (.wBoot e) t = .next u ∧
      romBounds t.mapping = [(0x0000, 0x3FFF), (0x4000, 0x7FFF)] ∧
      t.regs = { s.regs with bootRomMode := true } ∧ u.regs = { s.regs with bootRomMode := false } ∧
      u.mapping = layout s.cfg { s.regs with bootRomMode := false } s.hostBootRomDisabled

/-! ### Mapped accesses -/

/-- 20 R57, R59, 45 R220, 41 R132: what a mapped read answers, by the target of the window that holds the address; nothing but the
answer (or the record of a fault) changes. Where M is current, a window onto the allocation never leaves it. -/
def Obligations.MappedReadResult : Prop :=
  ∀ (s : State) (a : Addr) (w : Win) (i : Instr), s.winOf a = some w → i = .rMem a ∨ i = .rFall a →
    (∀ b, w.target = .rom b →
      exec i s = .next { s with answer := .byte (Memory.read s.rom ((b + (a.toNat - w.start)) % s.cfg.romSize)) }) ∧
    (∀ b, w.target = .cram b → b + (a.toNat - w.start) < s.cfg.cartRamSize + 0x2000 →
      exec i s = .next { s with answer := .byte (Memory.read s.cram (b + (a.toNat - w.start))) }) ∧
    (w.target = .unmapped → exec i s = .next { s with answer := .byte 0xFF }) ∧
    (∀ r, w.target = .undef r →
      ∃ t, exec i s = .next t ∧ t = { s with faults := t.faults, answer := .nothing } ∧
        ∀ x, x ∈ t.faults ↔ x ∈ s.faults ∨ x = .fault r (.read a)) ∧
    (s.mappingCurrent → ∀ b, w.target = .cram b → b + (a.toNat - w.start) < s.cfg.cartRamSize + 0x2000)

/-- 20 R58, 45 R221: what a mapped write does, by the target of the window that holds the address; one byte of cartridge RAM at
most is stored, and M is not rebuilt. -/
def Obligations.MappedWriteResult : Prop :=
  ∀ (s : State) (a : Addr) (d : Byte) (w : Win), Memory.wf s.cram → s.winOf a = some w →
    (∀ b, w.target = .rom b → exec (.wMem a d) s = .next { s with answer := .nothing }) ∧
    (w.target = .unmapped → exec (.wMem a d) s = .next { s with answer := .nothing }) ∧
    (∀ b, w.target = .cram b → b + (a.toNat - w.start) < s.cfg.cartRamSize + 0x2000 →
      ∃ t, exec (.wMem a d) s = .next t ∧ t = { s with cram := t.cram, answer := .nothing } ∧
        ∀ o, t.cramByte o = if o = b + (a.toNat - w.start) then d else s.cramByte o) ∧
    (∀ r, w.target = .undef r →
      ∃ t, exec (.wMem a d) s = .next t ∧ t = { s with faults := t.faults, answer := .nothing } ∧
        ∀ x, x ∈ t.faults ↔ x ∈ s.faults ∨ x = .fault r (.write a d))

/-- 41 R136: a write to 0x0000-0x5FFF that no matcher claims is the mapped write through the mapping installed before it, and then
M is rebuilt; it is so read only while compat mode is off. -/
def Obligations.FallThroughWriteResult : Prop :=
  ∀ (s : State) (a : Addr) (d : Byte) (w : Win), Memory.wf s.cram → s.winOf a = some w →
    (∀ ctx : DecodeCtx, a.toNat ≤ 0x5FFF → a.isExtended = false →
      (decode ctx (writeWord a d) = .ok (.wFall a d) ↔ ctx.compat = false)) ∧
    (∀ b, w.target = .rom b ∨ w.target = .unmapped → exec (.wFall a d) s =
      .next { s with mapping := layout s.cfg s.regs s.hostBootRomDisabled, answer := .nothing }) ∧
    (∀ b, w.target = .cram b → b + (a.toNat - w.start) < s.cfg.cartRamSize + 0x2000 →
      ∃ t, exec (.wFall a d) s = .next t ∧
        t = { s with cram := t.cram, mapping := layout s.cfg s.regs s.hostBootRomDisabled, answer := .nothing } ∧
        ∀ o, t.cramByte o = if o = b + (a.toNat - w.start) then d else s.cramByte o) ∧
    (∀ r, w.target = .undef r →
      ∃ t, exec (.wFall a d) s = .next t ∧
        t = { s with faults := t.faults, mapping := layout s.cfg s.regs s.hostBootRomDisabled, answer := .nothing } ∧
        ∀ x, x ∈ t.faults ↔ x ∈ s.faults ∨ x = .fault r (.write a d))

/-- 20 R69, R57, 40 R107, R110: where M is current, a mapped access of a decoded address always completes: a window holds it, and
no window leaves the allocation. -/
def Obligations.MappedAccessesComplete : Prop :=
  ∀ (s : State) (a : Addr) (d : Byte), s.mappingCurrent → Decoded a →
    (∃ t, exec (.rMem a) s = .next t) ∧ (∃ t, exec (.rFall a) s = .next t) ∧
    (∃ t, exec (.wMem a d) s = .next t) ∧ (∃ t, exec (.wFall a d) s = .next t)

/-- 20 R67, R61: a byte stored through one window is what the next read returns through any window that shows the same byte. -/
def Obligations.StoredByteIsReadThroughEveryWindow : Prop :=
  ∀ (s : State) (a a' : Addr) (d : Byte) (w w' : Win) (b b' : Nat), Memory.wf s.cram →
    s.winOf a = some w → w.target = .cram b → s.winOf a' = some w' → w'.target = .cram b' →
    b + (a.toNat - w.start) = b' + (a'.toNat - w'.start) → b + (a.toNat - w.start) < s.cfg.cartRamSize + 0x2000 →
    ∃ t u, exec (.wMem a d) s = .next t ∧ exec (.rMem a') t = .next u ∧ u.answer = .byte d ∧ u.cram = t.cram

/-! ### Bank registers and modes -/

/-- 42 R151, R152, R153, R154: the four legacy writes, every bit of every register, and the address ranges they answer to in compat
mode, whatever the low address bits (below 0x2000 an extended register answers with its own row, which fires the latch too). -/
def Obligations.LegacyWrites : Prop :=
  ∀ (s : State) (a : Addr) (d : Byte),
    (∀ ctx : DecodeCtx, ctx.compat = true →
      (a.toNat ≤ 0x1FFF → a.isExtended = false → decode ctx (writeWord a d) = .ok (.mbc5Ramg a d)) ∧
      (0x2000 ≤ a.toNat ∧ a.toNat ≤ 0x2FFF → decode ctx (writeWord a d) = .ok (.mbc5Romb0 a d)) ∧
      (0x3000 ≤ a.toNat ∧ a.toNat ≤ 0x3FFF → decode ctx (writeWord a d) = .ok (.mbc5Romb1 a d)) ∧
      (0x4000 ≤ a.toNat ∧ a.toNat ≤ 0x5FFF → decode ctx (writeWord a d) = .ok (.mbc5Ramb a d))) ∧
    (∃ t, exec (.mbc5Ramg a d) s = .next t ∧ RegisterWriteFrame s t ∧
      t.regs = { s.regs with ramEnabled := decide (d = 0x0A) }) ∧
    (∃ t, exec (.mbc5Romb0 a d) s = .next t ∧ RegisterWriteFrame s t ∧
      RomBanksBecome s t (fun k b => if k = 4 ∧ b < 8 then d.getLsbD b else (s.regs.romBank k).getLsbD b)
        s.regs.ramEnabled) ∧
    (∃ t, exec (.mbc5Romb1 a d) s = .next t ∧ RegisterWriteFrame s t ∧
      RomBanksBecome s t (fun k b => if k = 4 ∧ b = 8 then d.getLsbD 0 else (s.regs.romBank k).getLsbD b)
        s.regs.ramEnabled) ∧
    (∃ t, exec (.mbc5Ramb a d) s = .next t ∧ RegisterWriteFrame s t ∧
      RamBanksBecome s t (fun k b => if k = 0 ∧ b < 8 then decide (b < 4) && d.getLsbD b else (s.regs.ramBank k).getLsbD b)
        s.regs.ramEnabled)

/-- 42 R156, R158, R160, R155: the three ROM bank fields, every bit of every register; while compat mode is on no bank register
changes and only the RAM-enable latch fires. -/
def Obligations.RomBankFieldWrites : Prop :=
  ∀ (s : State) (i : BitVec 3) (d : Byte),
    Encodes (0x1007000 + 0x100 * i.toNat + d.toNat) (.wRomkind i d) ∧
    Encodes (0x1008000 + 0x100 * i.toNat + d.toNat) (.wRommid i d) ∧
    Encodes (0x1009000 + 0x100 * i.toNat + d.toNat) (.wRomlo i d) ∧
    (∃ t, exec (.wRomkind i d) s = .next t ∧ RegisterWriteFrame s t ∧
      RomBanksBecome s t
        (fun k b => if s.regs.mbc5CompatibilityMode = false ∧ k = i ∧ b = 16 then d.getLsbD 0
          else (s.regs.romBank k).getLsbD b) (latched s d)) ∧
    (∃ t, exec (.wRommid i d) s = .next t ∧ RegisterWriteFrame s t ∧
      RomBanksBecome s t
        (fun k b => if s.regs.mbc5CompatibilityMode = false ∧ k = i ∧ 8 ≤ b ∧ b ≤ 15 then d.getLsbD (b - 8)
          else (s.regs.romBank k).getLsbD b) (latched s d)) ∧
    (∃ t, exec (.wRomlo i d) s = .next t ∧ RegisterWriteFrame s t ∧
      RomBanksBecome s t
        (fun k b => if s.regs.mbc5CompatibilityMode = false ∧ k = i ∧ b < 8 then d.getLsbD b
          else (s.regs.romBank k).getLsbD b) (latched s d))

/-- 42 R157, R159, R161, R155: the three RAM bank fields, every bit of both registers; while compat mode is on no bank register
changes and only the RAM-enable latch fires. -/
def Obligations.RamBankFieldWrites : Prop :=
  ∀ (s : State) (j : BitVec 1) (d : Byte),
    Encodes (0x1007A00 + 0x100 * j.toNat + d.toNat) (.wRamkind j d) ∧
    Encodes (0x1008A00 + 0x100 * j.toNat + d.toNat) (.wRammid j d) ∧
    Encodes (0x1009A00 + 0x100 * j.toNat + d.toNat) (.wRamlo j d) ∧
    (∃ t, exec (.wRamkind j d) s = .next t ∧ RegisterWriteFrame s t ∧
      RamBanksBecome s t
        (fun k b => if s.regs.mbc5CompatibilityMode = false ∧ k = j ∧ 16 ≤ b ∧ b ≤ 17 then d.getLsbD (b - 16)
          else (s.regs.ramBank k).getLsbD b) (latched s d)) ∧
    (∃ t, exec (.wRammid j d) s = .next t ∧ RegisterWriteFrame s t ∧
      RamBanksBecome s t
        (fun k b => if s.regs.mbc5CompatibilityMode = false ∧ k = j ∧ 8 ≤ b ∧ b ≤ 9 then d.getLsbD (b - 8)
          else (s.regs.ramBank k).getLsbD b) (latched s d)) ∧
    (∃ t, exec (.wRamlo j d) s = .next t ∧ RegisterWriteFrame s t ∧
      RamBanksBecome s t
        (fun k b => if s.regs.mbc5CompatibilityMode = false ∧ k = j ∧ b < 8 then d.getLsbD b
          else (s.regs.ramBank k).getLsbD b) (latched s d))

/-- 42 R155, 70 R300: while compat mode is on each of the six bank-field writes changes no bank register; only the RAM-enable latch
fires. -/
def Obligations.BankWritesIgnoredInCompat : Prop :=
  ∀ (s : State) (i : BitVec 3) (j : BitVec 1) (d : Byte) (x : Instr), s.regs.mbc5CompatibilityMode = true →
    x ∈ [Instr.wRomkind i d, .wRommid i d, .wRomlo i d, .wRamkind j d, .wRammid j d, .wRamlo j d] →
    ∃ t, exec x s = .next t ∧ RegisterWriteFrame s t ∧ t.regs = { s.regs with ramEnabled := decide (d = 0x0A) }

/-- 41 R134, 30 R83: the mode byte sets three fields at once, in compat mode too, where the RAM-enable latch fires as well. -/
def Obligations.ModeWriteSetsThreeFields : Prop :=
  ∀ (s : State) (d : Byte), Encodes (0x100A000 + d.toNat) (.wMode d) ∧
    ∃ t, exec (.wMode d) s = .next t ∧ RegisterWriteFrame s t ∧
    t.regs =
      { s.regs with
        ramMode := decide (0x80 ≤ d.toNat)
        mbc5CompatibilityMode := decide (d.toNat / 8 % 2 = 1)
        romMode := BitVec.ofNat 3 (d.toNat % 8)
        ramEnabled := latched s d }

/-- 41 R135: the boot flag is data bit 0; the low read window follows the host's boot ROM, not this flag. -/
def Obligations.BootWriteSetsBootMode : Prop :=
  ∀ (s : State) (d : Byte), Encodes (0x100FF00 + d.toNat) (.wBoot d) ∧
    ∃ t, exec (.wBoot d) s = .next t ∧ RegisterWriteFrame s t ∧
    t.regs = { s.regs with bootRomMode := decide (d.toNat % 2 = 1), ramEnabled := latched s d } ∧
    t.mapping.regReadLow = s.hostBootRomDisabled

/-! ### The cursor -/

/-- 43 R172, R173, R174: the cursor's two bytes and the increment, in compat mode too. -/
def Obligations.CursorWrites : Prop :=
  ∀ (s : State) (d : Byte),
    Encodes (0x100B000 + d.toNat) (.wCurhi d) ∧ Encodes (0x100B100 + d.toNat) (.wCurlo d) ∧
    Encodes (0x100B200 + d.toNat) (.wCurinc d) ∧
    (∃ t, exec (.wCurhi d) s = .next t ∧ RegisterWriteFrame s t ∧
      t.regs =
        { s.regs with
          fpgaRamAutoRwAddress := BitVec.ofNat 16 (d.toNat * 0x100 + s.regs.fpgaRamAutoRwAddress.toNat % 0x100)
          ramEnabled := latched s d }) ∧
    (∃ t, exec (.wCurlo d) s = .next t ∧ RegisterWriteFrame s t ∧
      t.regs =
        { s.regs with
          fpgaRamAutoRwAddress := BitVec.ofNat 16 (s.regs.fpgaRamAutoRwAddress.toNat / 0x100 * 0x100 + d.toNat)
          ramEnabled := latched s d }) ∧
    (∃ t, exec (.wCurinc d) s = .next t ∧ RegisterWriteFrame s t ∧
      t.regs = { s.regs with fpgaRamAutoRwIncrement := d, ramEnabled := latched s d })

/-- 43 R175, R170, R171: the byte goes to the FPGA byte the cursor's low 13 bits name, then the cursor advances modulo 2^16, and M
is rebuilt; no other byte changes. -/
def Obligations.FpgaDataWriteStoresThenAdvances : Prop :=
  ∀ (s : State) (d : Byte), Memory.wf s.cram → Encodes (0x100B300 + d.toNat) (.wFpgadata d) ∧
    ∃ t, exec (.wFpgadata d) s = .next t ∧
      t = { s with
            regs := t.regs
            cram := t.cram
            mapping := layout s.cfg t.regs s.hostBootRomDisabled
            answer := .nothing } ∧
      t.regs =
        { s.regs with
          fpgaRamAutoRwAddress :=
            BitVec.ofNat 16 (s.regs.fpgaRamAutoRwAddress.toNat + s.regs.fpgaRamAutoRwIncrement.toNat)
          ramEnabled := latched s d } ∧
      ∀ o, t.cramByte o =
        if o = s.cfg.cartRamSize + s.regs.fpgaRamAutoRwAddress.toNat % 0x2000 then d else s.cramByte o

/-- 43 R176, R170, R171: the read returns the FPGA byte at the cursor, then the cursor advances; nothing else changes and M is not
rebuilt. -/
def Obligations.FpgaDataReadReturnsThenAdvances : Prop :=
  ∀ s : State, EncodesRead 0x000B300 0x00B3 .rFpgadata ∧ ∃ t, exec .rFpgadata s = .next t ∧
    t = { s with
          regs := { s.regs with
            fpgaRamAutoRwAddress :=
              BitVec.ofNat 16 (s.regs.fpgaRamAutoRwAddress.toNat + s.regs.fpgaRamAutoRwIncrement.toNat) }
          answer := .byte (s.cramByte (s.cfg.cartRamSize + s.regs.fpgaRamAutoRwAddress.toNat % 0x2000)) } ∧
    ∀ o, t.cramByte o = s.cramByte o ∧ t.romByte o = s.romByte o

/-- 43 R170, R171, R175, R176: up to 0x2000 bytes written through 0x00B3 with increment 1 from any cursor, the wrap at 0x2000 and at
65536 included, are read back in order once the cursor is set to its start. -/
def Obligations.SequentialWritesReadBack : Prop :=
  ∀ (s : State) (bs : List Byte), Memory.wf s.cram → s.regs.fpgaRamAutoRwIncrement = 1 → bs.length ≤ 0x2000 →
    ∃ t u, execAll (bs.map .wFpgadata) s = .next t ∧
      execAll [.wCurhi (s.regs.fpgaRamAutoRwAddress.extractLsb' 8 8), .wCurlo (s.regs.fpgaRamAutoRwAddress.extractLsb' 0 8)] t =
        .next u ∧
      readSeries bs.length u = some bs

/-! ### The bridge -/

/-- 44 R194, R195, 30 R86: the enable bits as written at 0x00F0, and the byte a read of 0x00F0 returns, without a side effect. -/
def Obligations.EspConfigWriteAndRead : Prop :=
  ∀ (s : State) (d : Byte),
    Encodes (0x100F000 + d.toNat) (.wEspcfg d) ∧ EncodesRead 0x000F000 0x00F0 .rEspcfg ∧
    (∃ t, exec (.wEspcfg d) s = .next t ∧ RegisterWriteFrame s t ∧
      t.regs =
        { s.regs with
          espEnable := decide (d.toNat % 2 = 1)
          espIrqEnable := decide (d.toNat / 2 % 2 = 1)
          ramEnabled := latched s d }) ∧
    (∃ t, exec .rEspcfg s = .next t ∧
      t = { s with answer := .byte (BitVec.ofNat 8 (2 * s.regs.espIrqEnable.toNat + s.regs.espEnable.toNat)) } ∧
      ∀ o, t.cramByte o = s.cramByte o ∧ t.romByte o = s.romByte o)

/-- 44 R197, 60 R263: an acknowledge clears the latched flag while the bridge is enabled; otherwise it only logs the warning. -/
def Obligations.AcknowledgeClearsOrWarns : Prop :=
  ∀ (s : State) (d : Byte),
    Encodes (0x100F100 + d.toNat) (.wEspack d) ∧
    (s.regs.espEnable = true →
      ∃ t, exec (.wEspack d) s = .next t ∧ RegisterWriteFrame s t ∧
        t.regs = { s.regs with espHasReceivedMessage := false, ramEnabled := latched s d }) ∧
    (s.regs.espEnable = false →
      ∃ t, exec (.wEspack d) s = .next t ∧
        t = { s with
              regs := { s.regs with ramEnabled := latched s d }
              mapping := layout s.cfg t.regs s.hostBootRomDisabled
              log := s.log ++ [.warn .espDisabledAck]
              answer := .nothing } ∧
        ∀ o, t.cramByte o = s.cramByte o ∧ t.romByte o = s.romByte o)

/-- 44 R193, R198, 45 R242, 60 R263: an enabled transmit pushes the length byte and that many payload bytes of the outbound slot in
order, leaves the mailbox as it is and `espMessageSent` set; a disabled one only logs the warning. -/
def Obligations.TransmitPushesLengthAndPayload : Prop :=
  ∀ (s : State) (d : Byte),
    let base := 0x1800 + 0x100 * s.regs.espTxAddress.toNat
    let len := s.cramByte (s.cfg.cartRamSize + base)
    Encodes (0x100F200 + d.toNat) (.wEsptx d) ∧
    (s.regs.espEnable = true →
      ∃ t, exec (.wEsptx d) s = .next t ∧
        t = { s with
              regs := { s.regs with espMessageSent := true, ramEnabled := latched s d }
              mapping := layout s.cfg t.regs s.hostBootRomDisabled
              log := s.log ++ (List.range (len.toNat + 1)).map fun k => .push (s.cramByte (s.cfg.cartRamSize + base + k))
              answer := .nothing } ∧
        ∀ o, t.cramByte o = s.cramByte o ∧ t.romByte o = s.romByte o) ∧
    (s.regs.espEnable = false →
      ∃ t, exec (.wEsptx d) s = .next t ∧
        t = { s with
              regs := { s.regs with ramEnabled := latched s d }
              mapping := layout s.cfg t.regs s.hostBootRomDisabled
              log := s.log ++ [.warn .espDisabledTx]
              answer := .nothing } ∧
        ∀ o, t.cramByte o = s.cramByte o ∧ t.romByte o = s.romByte o)

/-- 44 R192, R196, 60 R266: a read of 0x00F1 with the bridge enabled, no message latched and the peer ready copies one whole message
into the inbound slot (length at byte 0, payload byte k at byte k), sets the flag and returns it set; no byte outside the message
changes. Otherwise it returns the flag and changes nothing. -/
def Obligations.PollCopiesOneMessage : Prop :=
  ∀ s : State, Memory.wf s.cram →
    let base := s.cfg.cartRamSize + 0x1800 + 0x100 * s.regs.espRxAddress.toNat
    EncodesRead 0x000F100 0x00F1 .rEsprx ∧
    (∀ (len : Byte) (q : List Byte), s.regs.espEnable = true → s.regs.espHasReceivedMessage = false → s.peer.ready = true →
      s.peer.queue = len :: q →
      ∃ t, exec .rEsprx s = .next t ∧
        t = { s with
              regs := { s.regs with espHasReceivedMessage := true }
              cram := t.cram
              peer := { s.peer with queue := q.drop len.toNat }
              answer := .byte (statusByte true s.cfg.espRxBit) } ∧
        t.cramByte base = len ∧
        (∀ k, k < len.toNat → t.cramByte (base + 1 + k) = q.getD k s.cfg.peerEmptyByte) ∧
        ∀ o, (o < base ∨ base + len.toNat < o) → t.cramByte o = s.cramByte o) ∧
    ((s.regs.espEnable = false ∨ s.regs.espHasReceivedMessage = true ∨ s.peer.ready = false ∨ s.peer.queue = []) →
      exec .rEsprx s = .next { s with answer := .byte (statusByte s.regs.espHasReceivedMessage s.cfg.espRxBit) })

/-- 44 R199: while the low read window is open, a read of 0x00F2 returns `espMessageSent` at its bit and changes nothing. -/
def Obligations.MessageSentRead : Prop :=
  ∀ s : State, EncodesRead 0x000F200 0x00F2 .rEsptx ∧ exec .rEsptx s = .next { s with answer := .byte (statusByte s.regs.espMessageSent s.cfg.espTxBit) }

/-- 41 R131: a read of 0x00CA while the low window is open returns MAPPER_VERSION and changes nothing; while it is closed the read
is a mapped read. -/
def Obligations.VersionRead : Prop :=
  ∀ s : State, EncodesRead 0x000CA00 0x00CA .rVersion ∧
    exec .rVersion s = .next { s with answer := .byte s.cfg.mapperVersion } ∧
    (s.cfg.wf = true → s.mapping.regReadLow = true →
      step (s.present 0x000CA00) = .next { s with answer := .byte s.cfg.mapperVersion })

/-- 44 R200, R201: the mailbox indices are the low three data bits, with the bridge disabled too; a read of either address is
unclaimed. -/
def Obligations.MailboxIndexWrites : Prop :=
  ∀ (s : State) (d : Byte),
    Encodes (0x100F300 + d.toNat) (.wEsprxaddr d) ∧ Encodes (0x100F400 + d.toNat) (.wEsptxaddr d) ∧
    EncodesRead 0x000F300 0x00F3 (.rFall 0x00F3) ∧ EncodesRead 0x000F400 0x00F4 (.rFall 0x00F4) ∧
    (∃ t, exec (.wEsprxaddr d) s = .next t ∧ RegisterWriteFrame s t ∧
      t.regs = { s.regs with espRxAddress := BitVec.ofNat 3 (d.toNat % 8), ramEnabled := latched s d }) ∧
    (∃ t, exec (.wEsptxaddr d) s = .next t ∧ RegisterWriteFrame s t ∧
      t.regs = { s.regs with espTxAddress := BitVec.ofNat 3 (d.toNat % 8), ramEnabled := latched s d })

/-- 44 R203, R190: how the bridge's named state moves. A poll latches a pending message, an enabled acknowledge releases it, the
enable bit and the peer move it between idle and pending, and no other step but INIT and RESTORE moves it. -/
def Obligations.BridgeStateTransitions : Prop :=
  ∀ (i : Instr) (s t : State), exec i s = .next t →
    match i with
    | .rEsprx => linkState t = if linkState s = .inboundPending then .inboundLatched else linkState s
    | .wEspack _ => linkState t =
        if linkState s = .inboundLatched ∧ s.regs.espEnable = true then
          (if s.peer.dataReady then .inboundPending else .idle)
        else linkState s
    | .wEspcfg d => linkState t =
        if linkState s = .inboundLatched then .inboundLatched
        else if d.getLsbD 0 && s.peer.dataReady then .inboundPending else .idle
    | .peer r q => linkState t =
        if linkState s = .inboundLatched then .inboundLatched
        else if s.regs.espEnable && r && !q.isEmpty then .inboundPending else .idle
    | .init _ => True
    | .restore _ => True
    | _ => linkState t = linkState s

/-! ### Host operations -/

/-- 70 R290, R293: INIT on an admitted configuration loads RESET_STATE, the storage arrays and the boot-ROM answer, empties Log and
Fault and installs the layout; a RESET_STATE that does not fit is refused by its mark. The model's choices: the arrays are lists of
cells, and the peer and the steps not yet taken stay (log entry 15); an unadmitted configuration is refused by its mark, the old
launch staying in force (log entry 5). -/
def Obligations.InitLaunches : Prop :=
  ∀ (c : Config) (s : State),
    (c.wf = true → c.resetState.fits = true →
      ∃ t, exec (.init c) s = .next t ∧ t.cfg = c ∧ t.regs.toImage = c.resetState ∧
        (∀ o, o < c.romSize → t.romByte o = cellsByte c.romInit o) ∧
        (∀ o, o < c.cartRamSize + 0x2000 → t.cramByte o = cellsByte c.cramInit o) ∧
        t.log = [] ∧ t.faults = [] ∧ t.hostBootRomDisabled = c.bootDisabledAtInit ∧
        t.mapping = layout c t.regs c.bootDisabledAtInit ∧ t.peer = s.peer ∧ t.pending = s.pending ∧ t.answer = .nothing) ∧
    (c.wf = false → exec (.init c) s = .next (s.refuse .illFormedConfig)) ∧
    (c.wf = true → c.resetState.fits = false → exec (.init c) s = .next (s.refuse .illFormedState))

/-- 45 R232, R233, 70 R304: SAVE returns S and changes nothing; RESTORE of a tuple that fits sets S to it and installs its mapping,
leaving storage, Log, Fault and the peer alone; a saved tuple fits and restores exactly S; one that does not fit is refused. -/
def Obligations.SaveThenRestore : Prop :=
  ∀ s u : State,
    exec .save s = .next { s with answer := .image s.regs } ∧
    s.regs.toImage.fits = true ∧
    exec (.restore s.regs.toImage) u =
      .next { u with regs := s.regs, mapping := layout u.cfg s.regs u.hostBootRomDisabled, answer := .nothing } ∧
    (∀ m : Image, m.fits = true →
      ∃ v, exec (.restore m) u = .next v ∧ v.regs.toImage = m ∧ RegisterWriteFrame u v) ∧
    (∀ m : Image, m.fits = false → exec (.restore m) u = .next (u.refuse .illFormedState))

/-- 45 R234, R240, 70 R297: a change of the host's boot-ROM status changes neither S nor M, so the read window stays as it was until
the engine runs; a peer step sets the peer only. -/
def Obligations.HostAndPeerSteps : Prop :=
  ∀ s : State,
    (∀ b, ∃ t, exec (.host b) s = .next t ∧ t = { s with hostBootRomDisabled := b, answer := .nothing } ∧
      (∃ u, exec .recompute t = .next u ∧ u.mapping.regReadLow = b) ∧
      ∀ o, t.cramByte o = s.cramByte o ∧ t.romByte o = s.romByte o) ∧
    (∀ r q, ∃ t, exec (.peer r q) s = .next t ∧ t = { s with peer := ⟨r, q⟩, answer := .nothing } ∧
      (t.peer.dataReady = true ↔ r = true ∧ q ≠ []) ∧
      ∀ o, t.cramByte o = s.cramByte o ∧ t.romByte o = s.romByte o)
end

