-- ==== Sys2Proof/Laws/Layout.lean ====
section
/-! SUPPORT. Laws/Layout.lean: what the engine can install: every cartridge-RAM window lies inside the allocation, and both
decoded areas are covered. -/

namespace Sys2Proof.Machine

open Sys2Proof

/-- A masked cartridge-RAM window lies inside the ordinary cartridge RAM (40 R107). -/
theorem ramTarget_inside (c : Config) (idx ws b : Nat) (hws : 0 < ws) (h : ramTarget c idx ws = .cram b) :
    b + ws ≤ c.cartRamSize := by
  unfold ramTarget at h
  split at h
  · cases h
  · rename_i hlt
    obtain rfl : _ = b := by injection h
    have h1 : idx &&& (c.cartRamSize / ws - 1) ≤ c.cartRamSize / ws - 1 := Nat.and_le_right
    have h2 : 1 ≤ c.cartRamSize / ws := (Nat.one_le_div_iff hws).2 (Nat.le_of_not_lt hlt)
    have h3 : (idx &&& (c.cartRamSize / ws - 1)) + 1 ≤ c.cartRamSize / ws := by omega
    calc _ = ((idx &&& (c.cartRamSize / ws - 1)) + 1) * ws := by ring
      _ ≤ c.cartRamSize / ws * ws := Nat.mul_le_mul_right _ h3
      _ ≤ c.cartRamSize := Nat.div_mul_le_self _ _

/-- A ROM-area window onto cartridge RAM lies inside the ordinary cartridge RAM (40 R106, 43 R177). -/
theorem romWinTarget_inside (c : Config) (v : BitVec 17) (ws b : Nat) (hws : 0 < ws)
    (h : romWinTarget c v ws = .cram b) : b + ws ≤ c.cartRamSize := by
  unfold romWinTarget at h
  split at h
  · exact ramTarget_inside c _ ws b hws h
  · cases h

/-- A RAM-area window onto the allocation lies inside it (40 R109, R110). -/
theorem ramWinTarget_inside (c : Config) (v : BitVec 18) (ws b : Nat) (m : Bool) (hws : 0 < ws)
    (hm : ws ≤ if m then 0x1000 else 0x2000) (h : ramWinTarget c v ws m = .cram b) : b + ws ≤ c.cramSize := by
  unfold ramWinTarget at h
  have hc : c.cramSize = c.cartRamSize + 0x2000 := rfl
  split at h
  · cases h
  · split at h
    · have := ramTarget_inside c _ ws b hws h
      omega
    · unfold fpgaTarget at h
      split at h <;> injection h with h <;> subst h <;> simp_all
      omega

/-- The windows of the compat layout's ROM area are program ROM (40 R102). -/
theorem compatRomWindows_mem (r : Regs) (w : Win) (hw : w ∈ compatRomWindows r) :
    w.stop ≤ 0x7FFF ∧ ∃ b, w.target = .rom b := by
  simp only [compatRomWindows, List.mem_cons, List.not_mem_nil, or_false] at hw
  rcases hw with rfl | rfl <;> simp

/-- The windows of the extended layout's ROM area (40 R104, R106, R112). -/
theorem extRomWindows_mem (c : Config) (r : Regs) (w : Win) (hw : w ∈ extRomWindows c r) :
    w.start ≤ w.stop ∧ w.stop ≤ 0x7FFF ∧
      (w.target = .undef .romModeReserved ∨
        ∃ v, w.target = romWinTarget c v (w.stop - w.start + 1)) := by
  unfold extRomWindows at hw
  split at hw
  · obtain ⟨p, hp, rfl⟩ := List.mem_map.1 hw
    have : 0 < p.2 ∧ p.1 + p.2 ≤ 0x8000 := by
      unfold romPartition at hp
      split at hp <;>
        simp only [List.mem_cons, List.not_mem_nil, or_false] at hp <;> rcases hp with rfl | hp <;> simp_all
      · rcases hp with rfl | rfl <;> simp
      · rcases hp with rfl | rfl | rfl <;> simp
      · rcases hp with rfl | rfl | rfl | rfl | rfl | rfl | rfl <;> simp
    refine ⟨by simp only; omega, by simp only; omega, (.inr ⟨r.romBank (slotOf p.1), ?_⟩)⟩
    have e : p.1 + p.2 - 1 - p.1 + 1 = p.2 := by omega
    simp only [e]
  · simp only [List.mem_singleton] at hw
    subst hw
    simp

/-- Every installed window onto the allocation lies inside it (20 R57, 40 R107, R110). -/
theorem layout_cram_inside (c : Config) (r : Regs) (b : Bool) (w : Win) (hw : w ∈ (layout c r b).win) (o : Nat)
    (ht : w.target = .cram o) : o + (w.stop - w.start) < c.cramSize := by
  have hc : c.cramSize = c.cartRamSize + 0x2000 := rfl
  unfold layout at hw
  split at hw
  · rcases List.mem_append.1 hw with hw | hw
    · obtain ⟨-, b, hb⟩ := compatRomWindows_mem r w hw
      rw [hb] at ht
      cases ht
    · unfold compatRamWindow at hw
      split at hw <;> (simp only [List.mem_singleton] at hw; subst hw; simp only at ht)
      · have := ramTarget_inside c _ _ o (by decide) ht
        simp only; omega
      · cases ht
  · rcases List.mem_append.1 hw with hw | hw
    · obtain ⟨h1, -, h3⟩ := extRomWindows_mem c r w hw
      rcases h3 with h3 | ⟨v, h3⟩
      · rw [h3] at ht
        cases ht
      · have := romWinTarget_inside c v _ o (by omega) (h3 ▸ ht)
        omega
    · unfold extRamWindows at hw
      split at hw
      · simp only [List.mem_cons, List.not_mem_nil, or_false] at hw
        rcases hw with rfl | rfl <;>
          (have := ramWinTarget_inside c _ _ o true (by decide) (by decide) ht; simp only; omega)
      · simp only [List.mem_singleton] at hw
        subst hw
        have := ramWinTarget_inside c _ _ o false (by decide) (by decide) ht
        simp only; omega

/-- Every address of the two decoded areas lies in an installed window (20 R69, 40 R116). -/
theorem layout_covers (c : Config) (r : Regs) (b : Bool) (n : Nat) (hn : n ≤ 0x7FFF ∨ (0xA000 ≤ n ∧ n ≤ 0xBFFF)) :
    ∃ w ∈ (layout c r b).win, w.start ≤ n ∧ n ≤ w.stop := by
  have hrom : n ≤ 0x7FFF → ∃ w ∈ extRomWindows c r, w.start ≤ n ∧ n ≤ w.stop := by
    intro h
    unfold extRomWindows
    split
    · rename_i hm
      obtain ⟨p, hp, h1, h2⟩ : ∃ p ∈ romPartition r.romMode, p.1 ≤ n ∧ n ≤ p.1 + p.2 - 1 := by
        unfold romPartition
        have : r.romMode.toNat = 0 ∨ r.romMode.toNat = 1 ∨ r.romMode.toNat = 2 ∨ r.romMode.toNat = 3 ∨
          r.romMode.toNat = 4 := by omega
        rcases this with e | e | e | e | e <;> simp only [e, List.mem_cons, List.not_mem_nil, or_false,
          exists_eq_or_imp, exists_eq_left] <;> omega
      exact ⟨_, List.mem_map.2 ⟨p, hp, rfl⟩, h1, h2⟩
    · exact ⟨_, List.mem_singleton.2 rfl, by simp, h⟩
  unfold layout
  split <;> rcases hn with h | h
  · by_cases h4 : n ≤ 0x3FFF
    · exact ⟨_, List.mem_append_left _ List.mem_cons_self, by simp, h4⟩
    · exact ⟨_, List.mem_append_left _ (List.mem_cons_of_mem _ List.mem_cons_self), by simp only; omega, h⟩
  · unfold compatRamWindow
    split <;> exact ⟨_, List.mem_append_right _ List.mem_cons_self, h⟩
  · obtain ⟨w, hw, hh⟩ := hrom h
    exact ⟨w, List.mem_append_left _ hw, hh⟩
  · unfold extRamWindows
    split
    · by_cases hB : n ≤ 0xAFFF
      · exact ⟨_, List.mem_append_right _ List.mem_cons_self, h.1, hB⟩
      · exact ⟨_, List.mem_append_right _ (List.mem_cons_of_mem _ List.mem_cons_self), by simp only; omega, h.2⟩
    · exact ⟨_, List.mem_append_right _ List.mem_cons_self, h⟩

/-- The low read window is the boot-ROM answer the layout was made with (40 R111). -/
@[simp] theorem layout_regReadLow (c : Config) (r : Regs) (b : Bool) : (layout c r b).regReadLow = b := by
  unfold layout; split <;> rfl

end Sys2Proof.Machine
end

