-- ==== Sys2Proof/Laws/Memory.lean ====
section
/-! SUPPORT. Laws/Memory.lean: a storage array reads back what was written, a write leaves every other offset alone, and every
operation keeps the canonical form and the bounds. -/

namespace Sys2Proof.Machine

open Sys2Proof

namespace Memory

/-- An offset below every listed one reads as unlisted. -/
theorem read_of_lt (m : Memory) (o : Nat) (h : ∀ c ∈ m, o < c.1) : Memory.read m o = Memory.unlisted := by
  induction m with
  | nil => rfl
  | cons c m ih =>
    have hc := h c (by simp)
    simp only [Memory.read, if_neg (Nat.ne_of_gt hc)]
    exact ih fun d hd => h d (by simp [hd])

/-- A write leaves every other offset alone. -/
theorem read_write_of_ne (m : Memory) (o o' : Nat) (d : Byte) (h : o' ≠ o) :
    Memory.read (Memory.write m o d) o' = Memory.read m o' := by
  induction m with
  | nil => by_cases hd : d = Memory.unlisted <;> simp [Memory.write, Memory.read, hd, Ne.symm h]
  | cons c m ih =>
    obtain ⟨k, b⟩ := c
    by_cases h1 : o < k
    · by_cases hd : d = Memory.unlisted <;> simp [Memory.write, Memory.read, h1, hd, Ne.symm h]
    · by_cases h2 : o = k
      · subst h2
        by_cases hd : d = Memory.unlisted <;> simp [Memory.write, Memory.read, hd, Ne.symm h]
      · simp [Memory.write, Memory.read, h1, h2, ih]

/-- A read gives back what was written last. -/
theorem read_write_same (m : Memory) (hm : Memory.wf m) (o : Nat) (d : Byte) :
    Memory.read (Memory.write m o d) o = d := by
  induction m with
  | nil => by_cases hd : d = Memory.unlisted <;> simp [Memory.write, Memory.read, hd]
  | cons c m ih =>
    obtain ⟨k, b⟩ := c
    obtain ⟨hs, hu⟩ := hm
    rw [List.pairwise_cons] at hs
    have htail : Memory.wf m := ⟨hs.2, fun c hc => hu c (by simp [hc])⟩
    by_cases h1 : o < k
    · by_cases hd : d = Memory.unlisted
      · simp only [Memory.write, if_pos h1, if_pos hd]
        rw [read_of_lt _ _ ?_, hd]
        intro c hc
        rcases List.mem_cons.1 hc with rfl | hc
        · exact h1
        · exact Nat.lt_trans h1 (hs.1 c hc)
      · simp [Memory.write, Memory.read, h1, hd]
    · by_cases h2 : o = k
      · subst h2
        by_cases hd : d = Memory.unlisted
        · have hw : Memory.write ((o, b) :: m) o d = m := by simp [Memory.write, hd]
          rw [hw, read_of_lt _ _ hs.1, hd]
        · simp [Memory.write, Memory.read, hd]
      · simp only [Memory.write, if_neg h1, if_neg h2, Memory.read, if_neg (Ne.symm h2)]
        exact ih htail

/-- What a write can list: what was listed, and the written cell. -/
theorem mem_write (m : Memory) (o : Nat) (d : Byte) (c : Host.Cell) (h : c ∈ Memory.write m o d) :
    c ∈ m ∨ (c = (o, d) ∧ d ≠ Memory.unlisted) := by
  induction m with
  | nil =>
    by_cases hd : d = Memory.unlisted <;> simp [Memory.write, hd] at h
    exact .inr ⟨h, hd⟩
  | cons x m ih =>
    obtain ⟨k, b⟩ := x
    by_cases h1 : o < k
    · by_cases hd : d = Memory.unlisted <;> simp only [Memory.write, h1, hd, if_true, if_false] at h
      · exact .inl h
      · rcases List.mem_cons.1 h with h | h
        · exact .inr ⟨h, hd⟩
        · exact .inl h
    · by_cases h2 : o = k
      · by_cases hd : d = Memory.unlisted <;> simp only [Memory.write, h2, hd, if_true, if_false, Nat.lt_irrefl] at h
        · exact .inl (List.mem_cons_of_mem _ h)
        · rcases List.mem_cons.1 h with h | h
          · exact .inr ⟨by rw [h, h2], hd⟩
          · exact .inl (List.mem_cons_of_mem _ h)
      · simp only [Memory.write, if_neg h1, if_neg h2] at h
        rcases List.mem_cons.1 h with h | h
        · exact .inl (by simp [h])
        · rcases ih h with h | h
          · exact .inl (List.mem_cons_of_mem _ h)
          · exact .inr h

/-- A write keeps the canonical form. -/
theorem write_wf (m : Memory) (hm : Memory.wf m) (o : Nat) (d : Byte) : Memory.wf (Memory.write m o d) := by
  refine ⟨?_, fun c hc => ?_⟩
  · induction m with
    | nil => by_cases hd : d = Memory.unlisted <;> simp [Memory.write, hd]
    | cons x m ih =>
      obtain ⟨k, b⟩ := x
      obtain ⟨hs, hu⟩ := hm
      have hs' := List.pairwise_cons.1 hs
      have htail : Memory.wf m := ⟨hs'.2, fun c hc => hu c (by simp [hc])⟩
      by_cases h1 : o < k
      · by_cases hd : d = Memory.unlisted <;> simp only [Memory.write, h1, hd, if_true, if_false]
        · exact hs
        · refine List.pairwise_cons.2 ⟨fun c hc => ?_, hs⟩
          rcases List.mem_cons.1 hc with rfl | hc
          · exact h1
          · exact Nat.lt_trans h1 (hs'.1 c hc)
      · by_cases h2 : o = k
        · subst h2
          by_cases hd : d = Memory.unlisted <;> simp only [Memory.write, hd, if_true, if_false, Nat.lt_irrefl]
          · exact hs'.2
          · exact List.pairwise_cons.2 ⟨hs'.1, hs'.2⟩
        · simp only [Memory.write, if_neg h1, if_neg h2]
          refine List.pairwise_cons.2 ⟨fun c hc => ?_, ih htail⟩
          rcases mem_write m o d c hc with hc | ⟨rfl, -⟩
          · exact hs'.1 c hc
          · exact lt_of_le_of_ne (Nat.le_of_not_lt h1) (Ne.symm h2)
  · rcases mem_write m o d c hc with hc | ⟨rfl, hd⟩
    · exact hm.2 c hc
    · exact hd

/-- A write inside a bound keeps the array inside it. -/
theorem write_bound (m : Memory) (n o : Nat) (d : Byte) (hm : ∀ c ∈ m, c.1 < n) (ho : o < n) :
    ∀ c ∈ Memory.write m o d, c.1 < n := by
  intro c hc
  rcases mem_write m o d c hc with hc | ⟨rfl, -⟩
  · exact hm c hc
  · exact ho

/-- A described array is in canonical form and inside its size. -/
theorem ofCells_wf (cells : List Host.Cell) (size : Nat) :
    Memory.wf (Memory.ofCells cells size) ∧ ∀ c ∈ Memory.ofCells cells size, c.1 < size := by
  unfold Memory.ofCells
  suffices h : ∀ m : Memory, Memory.wf m → (∀ c ∈ m, c.1 < size) →
      Memory.wf (cells.foldl (fun m c => if c.1 < size then Memory.write m c.1 c.2 else m) m) ∧
      ∀ c ∈ cells.foldl (fun m c => if c.1 < size then Memory.write m c.1 c.2 else m) m, c.1 < size from
    h [] (by simp [Memory.wf]) (by simp)
  induction cells with
  | nil => exact fun m h1 h2 => ⟨h1, h2⟩
  | cons c cells ih =>
    intro m h1 h2
    by_cases hc : c.1 < size
    · simpa [hc] using ih _ (write_wf m h1 c.1 c.2) (write_bound m size c.1 c.2 h2 hc)
    · simpa [hc] using ih m h1 h2

/-- The arrays of the reset state are in canonical form. -/
theorem reset_wf : Memory.wf State.reset.rom ∧ Memory.wf State.reset.cram := by
  simp [State.reset, Memory.wf]

end Memory

end Sys2Proof.Machine
end

