-- ==== Sys2Proof/Laws/State.lean ====
section
/-! SUPPORT. Laws/State.lean: what each state operation does to each field, by rfl, so that no proof unfolds a record update. -/

namespace Sys2Proof.Machine

open Sys2Proof

@[simp] theorem State.withRegs_regs (s : State) (f : Regs → Regs) : (s.withRegs f).regs = f s.regs := rfl
@[simp] theorem State.withRegs_mapping (s : State) (f : Regs → Regs) : (s.withRegs f).mapping = s.mapping := rfl
@[simp] theorem State.withRegs_rom (s : State) (f : Regs → Regs) : (s.withRegs f).rom = s.rom := rfl
@[simp] theorem State.withRegs_cram (s : State) (f : Regs → Regs) : (s.withRegs f).cram = s.cram := rfl
@[simp] theorem State.withRegs_log (s : State) (f : Regs → Regs) : (s.withRegs f).log = s.log := rfl
@[simp] theorem State.withRegs_faults (s : State) (f : Regs → Regs) : (s.withRegs f).faults = s.faults := rfl
@[simp] theorem State.withRegs_cfg (s : State) (f : Regs → Regs) : (s.withRegs f).cfg = s.cfg := rfl
@[simp] theorem State.withRegs_hostBootRomDisabled (s : State) (f : Regs → Regs) : (s.withRegs f).hostBootRomDisabled = s.hostBootRomDisabled := rfl
@[simp] theorem State.withRegs_peer (s : State) (f : Regs → Regs) : (s.withRegs f).peer = s.peer := rfl
@[simp] theorem State.withRegs_pending (s : State) (f : Regs → Regs) : (s.withRegs f).pending = s.pending := rfl
@[simp] theorem State.withRegs_answer (s : State) (f : Regs → Regs) : (s.withRegs f).answer = s.answer := rfl

@[simp] theorem State.ret_regs (s : State) (b : Byte) : (s.ret b).regs = s.regs := rfl
@[simp] theorem State.ret_mapping (s : State) (b : Byte) : (s.ret b).mapping = s.mapping := rfl
@[simp] theorem State.ret_rom (s : State) (b : Byte) : (s.ret b).rom = s.rom := rfl
@[simp] theorem State.ret_cram (s : State) (b : Byte) : (s.ret b).cram = s.cram := rfl
@[simp] theorem State.ret_log (s : State) (b : Byte) : (s.ret b).log = s.log := rfl
@[simp] theorem State.ret_faults (s : State) (b : Byte) : (s.ret b).faults = s.faults := rfl
@[simp] theorem State.ret_cfg (s : State) (b : Byte) : (s.ret b).cfg = s.cfg := rfl
@[simp] theorem State.ret_hostBootRomDisabled (s : State) (b : Byte) : (s.ret b).hostBootRomDisabled = s.hostBootRomDisabled := rfl
@[simp] theorem State.ret_peer (s : State) (b : Byte) : (s.ret b).peer = s.peer := rfl
@[simp] theorem State.ret_pending (s : State) (b : Byte) : (s.ret b).pending = s.pending := rfl
@[simp] theorem State.ret_answer (s : State) (b : Byte) : (s.ret b).answer = .byte b := rfl

@[simp] theorem State.silent_regs (s : State) : s.silent.regs = s.regs := rfl
@[simp] theorem State.silent_mapping (s : State) : s.silent.mapping = s.mapping := rfl
@[simp] theorem State.silent_rom (s : State) : s.silent.rom = s.rom := rfl
@[simp] theorem State.silent_cram (s : State) : s.silent.cram = s.cram := rfl
@[simp] theorem State.silent_log (s : State) : s.silent.log = s.log := rfl
@[simp] theorem State.silent_faults (s : State) : s.silent.faults = s.faults := rfl
@[simp] theorem State.silent_cfg (s : State) : s.silent.cfg = s.cfg := rfl
@[simp] theorem State.silent_hostBootRomDisabled (s : State) : s.silent.hostBootRomDisabled = s.hostBootRomDisabled := rfl
@[simp] theorem State.silent_peer (s : State) : s.silent.peer = s.peer := rfl
@[simp] theorem State.silent_pending (s : State) : s.silent.pending = s.pending := rfl
@[simp] theorem State.silent_answer (s : State) : s.silent.answer = .nothing := rfl

@[simp] theorem State.mark_regs (s : State) (x : FaultRecord) : (s.mark x).regs = s.regs := rfl
@[simp] theorem State.mark_mapping (s : State) (x : FaultRecord) : (s.mark x).mapping = s.mapping := rfl
@[simp] theorem State.mark_rom (s : State) (x : FaultRecord) : (s.mark x).rom = s.rom := rfl
@[simp] theorem State.mark_cram (s : State) (x : FaultRecord) : (s.mark x).cram = s.cram := rfl
@[simp] theorem State.mark_log (s : State) (x : FaultRecord) : (s.mark x).log = s.log := rfl
@[simp] theorem State.mark_faults (s : State) (x : FaultRecord) : (s.mark x).faults = insertRecord x s.faults := rfl
@[simp] theorem State.mark_cfg (s : State) (x : FaultRecord) : (s.mark x).cfg = s.cfg := rfl
@[simp] theorem State.mark_hostBootRomDisabled (s : State) (x : FaultRecord) : (s.mark x).hostBootRomDisabled = s.hostBootRomDisabled := rfl
@[simp] theorem State.mark_peer (s : State) (x : FaultRecord) : (s.mark x).peer = s.peer := rfl
@[simp] theorem State.mark_pending (s : State) (x : FaultRecord) : (s.mark x).pending = s.pending := rfl
@[simp] theorem State.mark_answer (s : State) (x : FaultRecord) : (s.mark x).answer = .nothing := rfl

@[simp] theorem State.raiseFault_regs (s : State) (r : ModelFault) (t : Transaction) : (s.raiseFault r t).regs = s.regs := rfl
@[simp] theorem State.raiseFault_mapping (s : State) (r : ModelFault) (t : Transaction) : (s.raiseFault r t).mapping = s.mapping := rfl
@[simp] theorem State.raiseFault_rom (s : State) (r : ModelFault) (t : Transaction) : (s.raiseFault r t).rom = s.rom := rfl
@[simp] theorem State.raiseFault_cram (s : State) (r : ModelFault) (t : Transaction) : (s.raiseFault r t).cram = s.cram := rfl
@[simp] theorem State.raiseFault_log (s : State) (r : ModelFault) (t : Transaction) : (s.raiseFault r t).log = s.log := rfl
@[simp] theorem State.raiseFault_faults (s : State) (r : ModelFault) (t : Transaction) : (s.raiseFault r t).faults = insertRecord (.fault r t) s.faults := rfl
@[simp] theorem State.raiseFault_cfg (s : State) (r : ModelFault) (t : Transaction) : (s.raiseFault r t).cfg = s.cfg := rfl
@[simp] theorem State.raiseFault_hostBootRomDisabled (s : State) (r : ModelFault) (t : Transaction) : (s.raiseFault r t).hostBootRomDisabled = s.hostBootRomDisabled := rfl
@[simp] theorem State.raiseFault_peer (s : State) (r : ModelFault) (t : Transaction) : (s.raiseFault r t).peer = s.peer := rfl
@[simp] theorem State.raiseFault_pending (s : State) (r : ModelFault) (t : Transaction) : (s.raiseFault r t).pending = s.pending := rfl
@[simp] theorem State.raiseFault_answer (s : State) (r : ModelFault) (t : Transaction) : (s.raiseFault r t).answer = .nothing := rfl

@[simp] theorem State.refuse_regs (s : State) (r : RefusedReason) : (s.refuse r).regs = s.regs := rfl
@[simp] theorem State.refuse_mapping (s : State) (r : RefusedReason) : (s.refuse r).mapping = s.mapping := rfl
@[simp] theorem State.refuse_rom (s : State) (r : RefusedReason) : (s.refuse r).rom = s.rom := rfl
@[simp] theorem State.refuse_cram (s : State) (r : RefusedReason) : (s.refuse r).cram = s.cram := rfl
@[simp] theorem State.refuse_log (s : State) (r : RefusedReason) : (s.refuse r).log = s.log := rfl
@[simp] theorem State.refuse_faults (s : State) (r : RefusedReason) : (s.refuse r).faults = insertRecord (.refused r) s.faults := rfl
@[simp] theorem State.refuse_cfg (s : State) (r : RefusedReason) : (s.refuse r).cfg = s.cfg := rfl
@[simp] theorem State.refuse_hostBootRomDisabled (s : State) (r : RefusedReason) : (s.refuse r).hostBootRomDisabled = s.hostBootRomDisabled := rfl
@[simp] theorem State.refuse_peer (s : State) (r : RefusedReason) : (s.refuse r).peer = s.peer := rfl
@[simp] theorem State.refuse_pending (s : State) (r : RefusedReason) : (s.refuse r).pending = s.pending := rfl
@[simp] theorem State.refuse_answer (s : State) (r : RefusedReason) : (s.refuse r).answer = .nothing := rfl

@[simp] theorem State.warn_regs (s : State) (w : Warning) : (s.warn w).regs = s.regs := rfl
@[simp] theorem State.warn_mapping (s : State) (w : Warning) : (s.warn w).mapping = s.mapping := rfl
@[simp] theorem State.warn_rom (s : State) (w : Warning) : (s.warn w).rom = s.rom := rfl
@[simp] theorem State.warn_cram (s : State) (w : Warning) : (s.warn w).cram = s.cram := rfl
@[simp] theorem State.warn_log (s : State) (w : Warning) : (s.warn w).log = s.log ++ [.warn w] := rfl
@[simp] theorem State.warn_faults (s : State) (w : Warning) : (s.warn w).faults = s.faults := rfl
@[simp] theorem State.warn_cfg (s : State) (w : Warning) : (s.warn w).cfg = s.cfg := rfl
@[simp] theorem State.warn_hostBootRomDisabled (s : State) (w : Warning) : (s.warn w).hostBootRomDisabled = s.hostBootRomDisabled := rfl
@[simp] theorem State.warn_peer (s : State) (w : Warning) : (s.warn w).peer = s.peer := rfl
@[simp] theorem State.warn_pending (s : State) (w : Warning) : (s.warn w).pending = s.pending := rfl
@[simp] theorem State.warn_answer (s : State) (w : Warning) : (s.warn w).answer = s.answer := rfl

@[simp] theorem State.push_regs (s : State) (b : Byte) : (s.push b).regs = s.regs := rfl
@[simp] theorem State.push_mapping (s : State) (b : Byte) : (s.push b).mapping = s.mapping := rfl
@[simp] theorem State.push_rom (s : State) (b : Byte) : (s.push b).rom = s.rom := rfl
@[simp] theorem State.push_cram (s : State) (b : Byte) : (s.push b).cram = s.cram := rfl
@[simp] theorem State.push_log (s : State) (b : Byte) : (s.push b).log = s.log ++ [.push b] := rfl
@[simp] theorem State.push_faults (s : State) (b : Byte) : (s.push b).faults = s.faults := rfl
@[simp] theorem State.push_cfg (s : State) (b : Byte) : (s.push b).cfg = s.cfg := rfl
@[simp] theorem State.push_hostBootRomDisabled (s : State) (b : Byte) : (s.push b).hostBootRomDisabled = s.hostBootRomDisabled := rfl
@[simp] theorem State.push_peer (s : State) (b : Byte) : (s.push b).peer = s.peer := rfl
@[simp] theorem State.push_pending (s : State) (b : Byte) : (s.push b).pending = s.pending := rfl
@[simp] theorem State.push_answer (s : State) (b : Byte) : (s.push b).answer = s.answer := rfl

@[simp] theorem State.cramSet_regs (s : State) (o : Nat) (d : Byte) : (s.cramSet o d).regs = s.regs := rfl
@[simp] theorem State.cramSet_mapping (s : State) (o : Nat) (d : Byte) : (s.cramSet o d).mapping = s.mapping := rfl
@[simp] theorem State.cramSet_rom (s : State) (o : Nat) (d : Byte) : (s.cramSet o d).rom = s.rom := rfl
@[simp] theorem State.cramSet_cram (s : State) (o : Nat) (d : Byte) : (s.cramSet o d).cram = Memory.write s.cram o d := rfl
@[simp] theorem State.cramSet_log (s : State) (o : Nat) (d : Byte) : (s.cramSet o d).log = s.log := rfl
@[simp] theorem State.cramSet_faults (s : State) (o : Nat) (d : Byte) : (s.cramSet o d).faults = s.faults := rfl
@[simp] theorem State.cramSet_cfg (s : State) (o : Nat) (d : Byte) : (s.cramSet o d).cfg = s.cfg := rfl
@[simp] theorem State.cramSet_hostBootRomDisabled (s : State) (o : Nat) (d : Byte) : (s.cramSet o d).hostBootRomDisabled = s.hostBootRomDisabled := rfl
@[simp] theorem State.cramSet_peer (s : State) (o : Nat) (d : Byte) : (s.cramSet o d).peer = s.peer := rfl
@[simp] theorem State.cramSet_pending (s : State) (o : Nat) (d : Byte) : (s.cramSet o d).pending = s.pending := rfl
@[simp] theorem State.cramSet_answer (s : State) (o : Nat) (d : Byte) : (s.cramSet o d).answer = s.answer := rfl

@[simp] theorem State.fpgaWrite_regs (s : State) (i : Nat) (d : Byte) : (s.fpgaWrite i d).regs = s.regs := rfl
@[simp] theorem State.fpgaWrite_mapping (s : State) (i : Nat) (d : Byte) : (s.fpgaWrite i d).mapping = s.mapping := rfl
@[simp] theorem State.fpgaWrite_rom (s : State) (i : Nat) (d : Byte) : (s.fpgaWrite i d).rom = s.rom := rfl
@[simp] theorem State.fpgaWrite_cram (s : State) (i : Nat) (d : Byte) : (s.fpgaWrite i d).cram = Memory.write s.cram (s.cfg.cartRamSize + i) d := rfl
@[simp] theorem State.fpgaWrite_log (s : State) (i : Nat) (d : Byte) : (s.fpgaWrite i d).log = s.log := rfl
@[simp] theorem State.fpgaWrite_faults (s : State) (i : Nat) (d : Byte) : (s.fpgaWrite i d).faults = s.faults := rfl
@[simp] theorem State.fpgaWrite_cfg (s : State) (i : Nat) (d : Byte) : (s.fpgaWrite i d).cfg = s.cfg := rfl
@[simp] theorem State.fpgaWrite_hostBootRomDisabled (s : State) (i : Nat) (d : Byte) : (s.fpgaWrite i d).hostBootRomDisabled = s.hostBootRomDisabled := rfl
@[simp] theorem State.fpgaWrite_peer (s : State) (i : Nat) (d : Byte) : (s.fpgaWrite i d).peer = s.peer := rfl
@[simp] theorem State.fpgaWrite_pending (s : State) (i : Nat) (d : Byte) : (s.fpgaWrite i d).pending = s.pending := rfl
@[simp] theorem State.fpgaWrite_answer (s : State) (i : Nat) (d : Byte) : (s.fpgaWrite i d).answer = s.answer := rfl

@[simp] theorem State.remap_regs (s : State) : s.remap.regs = s.regs := rfl
@[simp] theorem State.remap_mapping (s : State) : s.remap.mapping = layout s.cfg s.regs s.hostBootRomDisabled := rfl
@[simp] theorem State.remap_rom (s : State) : s.remap.rom = s.rom := rfl
@[simp] theorem State.remap_cram (s : State) : s.remap.cram = s.cram := rfl
@[simp] theorem State.remap_log (s : State) : s.remap.log = s.log := rfl
@[simp] theorem State.remap_faults (s : State) : s.remap.faults = s.faults := rfl
@[simp] theorem State.remap_cfg (s : State) : s.remap.cfg = s.cfg := rfl
@[simp] theorem State.remap_hostBootRomDisabled (s : State) : s.remap.hostBootRomDisabled = s.hostBootRomDisabled := rfl
@[simp] theorem State.remap_peer (s : State) : s.remap.peer = s.peer := rfl
@[simp] theorem State.remap_pending (s : State) : s.remap.pending = s.pending := rfl
@[simp] theorem State.remap_answer (s : State) : s.remap.answer = s.answer := rfl

end Sys2Proof.Machine
end

