-- ==== Sys2Proof/Laws/Ops.lean ====
section
/-! SUPPORT. Laws/Ops.lean: for each shared operation, everything it can do, said once. -/

namespace Sys2Proof.Machine

open Sys2Proof

/-- Reading a ROM bank register after setting one. -/
theorem Regs.romBank_setRomBank (r : Regs) (i k : BitVec 3) (v : BitVec 17) :
    (r.setRomBank i v).romBank k = if i = k then v else r.romBank k := by
  simp [Regs.setRomBank, Regs.romBank, Vector.getElem_set, BitVec.toNat_inj]

/-- Reading a RAM bank register after setting one. -/
theorem Regs.ramBank_setRamBank (r : Regs) (j k : BitVec 1) (v : BitVec 18) :
    (r.setRamBank j v).ramBank k = if j = k then v else r.ramBank k := by
  simp [Regs.setRamBank, Regs.ramBank, Vector.getElem_set, BitVec.toNat_inj]

/-- The bank registers of a converted tuple, slot by slot. -/
@[simp] theorem getElem_mapSlots {α β : Type} {n : Nat} (f : α → β) (v : Vector α n) (k : Nat) (hk : k < n) :
    (mapSlots f v)[k] = f v[k] := by
  simp [mapSlots]

/-- Converting bank registers back and forth. -/
theorem mapSlots_mapSlots {α β : Type} {n : Nat} (f : α → β) (g : β → α) (v : Vector α n) (h : ∀ x ∈ v.toList, g (f x) = x) :
    mapSlots g (mapSlots f v) = v := by
  ext k hk
  simp only [getElem_mapSlots]
  exact h _ (by simp)

/-- The matched window is installed and covers the address. -/
theorem State.winOf_some (s : State) (a : Addr) (w : Win) (h : s.winOf a = some w) :
    w ∈ s.mapping.win ∧ w.start ≤ a.toNat ∧ a.toNat ≤ w.stop := by
  unfold State.winOf at h
  refine ⟨List.mem_of_find?_eq_some h, ?_⟩
  simpa using List.find?_some h

/-- What a mapped read can do (20 R57). -/
theorem mappedRead_cases (a : Addr) (s : State) :
    (∃ b, mappedRead a s = .next (s.ret b)) ∨
    (∃ r, mappedRead a s = .next (s.raiseFault r (.read a))) ∨
    (mappedRead a s = .fault .noWindow ∧ s.winOf a = none) ∨
    (mappedRead a s = .fault .outsideStorage ∧
      ∃ w b, s.winOf a = some w ∧ w.target = .cram b ∧ ¬ b + (a.toNat - w.start) < s.cfg.cramSize) := by
  unfold mappedRead
  cases hw : s.winOf a with
  | none => simp
  | some w =>
    cases ht : w.target with
    | rom b => exact .inl ⟨_, by simp only [ht]; rfl⟩
    | cram b =>
      by_cases hb : b + (a.toNat - w.start) < s.cfg.cramSize
      · exact .inl ⟨_, by simp only [ht, if_pos hb]; rfl⟩
      · exact .inr (.inr (.inr ⟨by simp only [ht, if_neg hb], w, b, rfl, ht, hb⟩))
    | unmapped => exact .inl ⟨_, by simp only [ht]; rfl⟩
    | undef r => exact .inr (.inl ⟨r, by simp only [ht]⟩)

/-- What a mapped write can do (20 R58). -/
theorem mappedWrite_cases (a : Addr) (d : Byte) (s : State) :
    mappedWrite a d s = .next s.silent ∨
    (∃ o, o < s.cfg.cramSize ∧ mappedWrite a d s = .next (s.cramSet o d).silent) ∨
    (∃ r, mappedWrite a d s = .next (s.raiseFault r (.write a d))) ∨
    (mappedWrite a d s = .fault .noWindow ∧ s.winOf a = none) ∨
    (mappedWrite a d s = .fault .outsideStorage ∧
      ∃ w b, s.winOf a = some w ∧ w.target = .cram b ∧ ¬ b + (a.toNat - w.start) < s.cfg.cramSize) := by
  unfold mappedWrite
  cases hw : s.winOf a with
  | none => simp
  | some w =>
    cases ht : w.target with
    | rom b => exact .inl (by simp only [ht])
    | cram b =>
      by_cases hb : b + (a.toNat - w.start) < s.cfg.cramSize
      · exact .inr (.inl ⟨_, hb, by simp only [ht, if_pos hb]⟩)
      · exact .inr (.inr (.inr (.inr ⟨by simp only [ht, if_neg hb], w, b, rfl, ht, hb⟩)))
    | unmapped => exact .inl (by simp only [ht])
    | undef r => exact .inr (.inr (.inl ⟨r, by simp only [ht]⟩))

/-- With a current mapping, an address of a decoded area has a window, and a window never leaves the allocation. -/
theorem State.mappingCurrent.winOf_inside {s : State} (hs : s.mapping = layout s.cfg s.regs s.mapping.regReadLow)
    (a : Addr) (ha : a.toNat ≤ 0x7FFF ∨ (0xA000 ≤ a.toNat ∧ a.toNat ≤ 0xBFFF)) :
    ∃ w, s.winOf a = some w ∧ ∀ b, w.target = .cram b → b + (a.toNat - w.start) < s.cfg.cramSize := by
  obtain ⟨w, hw, hc⟩ := layout_covers s.cfg s.regs s.mapping.regReadLow a.toNat ha
  have hsome : (s.winOf a).isSome := by
    unfold State.winOf
    rw [List.find?_isSome]
    exact ⟨w, hs ▸ hw, by simpa using hc⟩
  obtain ⟨v, hv⟩ := Option.isSome_iff_exists.1 hsome
  refine ⟨v, hv, fun b hb => ?_⟩
  obtain ⟨hm, h1, h2⟩ := s.winOf_some a v hv
  rw [hs] at hm
  have := layout_cram_inside _ _ _ v hm b hb
  omega

/-- The legacy matcher changes S only, and none of its writes touches the mode bits (42 R150). -/
theorem legacyWrite_eq (a : Addr) (d : Byte) (s : State) :
    legacyWrite a d s = s.withRegs (fun r => { r with ramEnabled := d == 0x0A }) ∨
    legacyWrite a d s = s.withRegs (fun r => r.setRomBank 4 (putRomLow (r.romBank 4) d)) ∨
    legacyWrite a d s = s.withRegs (fun r => r.setRomBank 4 (putRomBit8 (r.romBank 4) d)) ∨
    legacyWrite a d s = s.withRegs (fun r => r.setRamBank 0 (putRamLowNibble (r.ramBank 0) d)) := by
  unfold legacyWrite
  split
  · exact .inl rfl
  · exact .inl rfl
  · exact .inr (.inl rfl)
  · exact .inr (.inr (.inl rfl))
  · exact .inr (.inr (.inr rfl))

/-- Below 0x2000, where every extended register stands, the legacy matcher is the RAM-enable latch (42 R150, 70 R299). -/
theorem coFire_low (a : Addr) (d : Byte) (s : State) (ha : a.toNat < 0x2000) :
    coFire a d s = s.withRegs fun r =>
      { r with ramEnabled := if r.mbc5CompatibilityMode then d == 0x0A else r.ramEnabled } := by
  unfold coFire
  by_cases hc : s.regs.mbc5CompatibilityMode = true
  · have : (a.extractLsb' 12 3).toNat = 0 ∨ (a.extractLsb' 12 3).toNat = 1 := by
      simp only [BitVec.extractLsb'_toNat, Nat.shiftRight_eq_div_pow]
      omega
    rw [if_pos hc]
    unfold legacyWrite
    rcases this with e | e <;> simp [e, legacyRamg, State.withRegs, hc]
  · rw [if_neg hc]
    have e : s.withRegs (fun r => { r with ramEnabled := if r.mbc5CompatibilityMode then d == 0x0A else r.ramEnabled }) =
        s.withRegs id := by
      simp only [State.withRegs, if_neg hc, id]
    rw [e]
    rfl

/-- The slot addresses lie below 0x2000. -/
theorem romSlotAddr_low (base : Nat) (i : BitVec 3) (h : base < 0x1000) : (romSlotAddr base i).toNat < 0x2000 := by
  have := i.isLt
  simp only [romSlotAddr, BitVec.toNat_ofNat]
  omega

/-- The slot addresses lie below 0x2000. -/
theorem ramSlotAddr_low (base : Nat) (j : BitVec 1) (h : base < 0x1000) : (ramSlotAddr base j).toNat < 0x2000 := by
  have := j.isLt
  simp only [ramSlotAddr, BitVec.toNat_ofNat]
  omega

/-- What a write to an extended register does: the latch if compat mode is on, the rule, the engine (41 R133). -/
theorem registerWrite_eq (a : Addr) (d : Byte) (rule : State → State) (s : State) (ha : a.toNat < 0x2000) :
    registerWrite a d rule s =
      (rule (s.withRegs fun r =>
        { r with ramEnabled := if r.mbc5CompatibilityMode then d == 0x0A else r.ramEnabled })).silent.remap := by
  simp only [registerWrite, endWrite, coFire_low a d s ha]

/-- A mark is in the set after it is recorded. -/
theorem mem_insertRecord (x : FaultRecord) (xs : List FaultRecord) : x ∈ insertRecord x xs := by
  unfold insertRecord; split <;> simp_all

/-- Recording a mark keeps the others. -/
theorem subset_insertRecord (x : FaultRecord) (xs : List FaultRecord) : xs ⊆ insertRecord x xs := by
  unfold insertRecord; split <;> simp

/-- Recording a mark keeps the set a set. -/
theorem insertRecord_nodup (x : FaultRecord) (xs : List FaultRecord) (h : xs.Nodup) : (insertRecord x xs).Nodup := by
  unfold insertRecord
  split
  · exact h
  · rename_i hx
    rw [List.nodup_append]
    exact ⟨h, by simp, fun a ha b hb => by rw [List.mem_singleton.1 hb]; exact fun e => hx (e ▸ ha)⟩

end Sys2Proof.Machine
end

