-- ==== Sys2Proof/Laws/Bridge.lean ====
section
/-! SUPPORT. Laws/Bridge.lean: what a series of pulls and a series of pushes do. -/

namespace Sys2Proof.Machine

open Sys2Proof

/-- A pull stores one byte and takes it off the queue. -/
theorem pullTo_eq (at_ : Nat) (s : State) :
    pullTo at_ s =
      { s with
        cram := Memory.write s.cram (s.cfg.cartRamSize + at_) (s.peer.pulled s.cfg.peerEmptyByte)
        peer := s.peer.afterPull } := rfl

/-- A series of pulls changes the storage array and the peer's queue only. -/
theorem pullMany_eq (n at_ : Nat) (s : State) :
    pullMany n at_ s = { s with cram := (pullMany n at_ s).cram, peer := { s.peer with queue := s.peer.queue.drop n } } := by
  induction n generalizing at_ s with
  | zero => rfl
  | succ n ih =>
    rw [pullMany, ih]
    simp [pullTo_eq, Peer.afterPull]

/-- A series of pulls keeps the canonical form. -/
theorem pullMany_wf (n at_ : Nat) (s : State) (h : Memory.wf s.cram) : Memory.wf (pullMany n at_ s).cram := by
  induction n generalizing at_ s with
  | zero => exact h
  | succ n ih => exact ih _ _ (Memory.write_wf _ h _ _)

/-- A series of pulls stays inside the allocation. -/
theorem pullMany_bound (n at_ : Nat) (s : State) (h : ∀ c ∈ s.cram, c.1 < s.cfg.cramSize) (hn : at_ + n ≤ 0x2000) :
    ∀ c ∈ (pullMany n at_ s).cram, c.1 < s.cfg.cramSize := by
  induction n generalizing at_ s with
  | zero => exact h
  | succ n ih =>
    have hb : s.cfg.cartRamSize + at_ < s.cfg.cramSize := by
      have : s.cfg.cramSize = s.cfg.cartRamSize + 0x2000 := rfl
      omega
    exact ih (at_ + 1) (pullTo at_ s) (Memory.write_bound _ _ _ _ h hb) (by omega)

/-- A series of pulls leaves every byte outside its range alone. -/
theorem pullMany_read_outside (n at_ o : Nat) (s : State)
    (h : o < s.cfg.cartRamSize + at_ ∨ s.cfg.cartRamSize + at_ + n ≤ o) :
    Memory.read (pullMany n at_ s).cram o = Memory.read s.cram o := by
  induction n generalizing at_ s with
  | zero => rfl
  | succ n ih =>
    rw [pullMany, ih]
    · rw [pullTo_eq]
      exact Memory.read_write_of_ne _ _ _ _ (by omega)
    · simp only [pullTo_eq]
      omega

/-- The k-th byte of a series of pulls is the k-th byte of the queue (45 R240). -/
theorem pullMany_read_inside (n at_ k : Nat) (s : State) (hk : k < n) (hm : Memory.wf s.cram) :
    Memory.read (pullMany n at_ s).cram (s.cfg.cartRamSize + (at_ + k)) = s.peer.queue.getD k s.cfg.peerEmptyByte := by
  induction n generalizing at_ k s with
  | zero => omega
  | succ n ih =>
    rw [pullMany]
    cases k with
    | zero =>
      have e : (pullTo at_ s).cfg = s.cfg := rfl
      rw [pullMany_read_outside _ _ _ _ (by rw [e]; omega), pullTo_eq]
      simp only [Nat.add_zero]
      rw [Memory.read_write_same _ hm]
      cases h : s.peer.queue <;> simp [Peer.pulled, h]
    | succ k =>
      have hm' : Memory.wf (pullTo at_ s).cram := Memory.write_wf _ hm _ _
      have := ih (at_ + 1) k (pullTo at_ s) (by omega) hm'
      have e : at_ + (k + 1) = at_ + 1 + k := by omega
      rw [e]
      have e2 : (pullTo at_ s).cfg = s.cfg := rfl
      rw [e2] at this
      rw [this, pullTo_eq]
      cases h : s.peer.queue <;> simp [Peer.afterPull, h]

/-- A series of pushes appends to Log only: the bytes from the first offset on, in order (45 R242). -/
theorem pushMany_eq (n at_ : Nat) (s : State) :
    pushMany n at_ s = { s with log := s.log ++ (List.range n).map fun k => LogEntry.push (s.fpgaRead (at_ + k)) } := by
  induction n generalizing at_ s with
  | zero => simp [pushMany]
  | succ n ih =>
    rw [pushMany, ih]
    have e : ∀ i b, (s.push b).fpgaRead i = s.fpgaRead i := fun _ _ => rfl
    simp only [State.push, List.range_succ_eq_map, List.map_cons, List.map_map, List.append_assoc, List.cons_append,
      List.nil_append, Nat.add_zero]
    congr 4
    funext k
    simp only [Function.comp_apply, Nat.succ_eq_add_one]
    rw [show at_ + 1 + k = at_ + (k + 1) by omega]
    rfl

end Sys2Proof.Machine
end

