-- ==== Sys2Proof/Laws/Decode.lean ====
section
/-! SUPPORT. Laws/Decode.lean: taking apart the word of a write and of a read, and which addresses no extended row claims. -/

namespace Sys2Proof

/-- The address of a write's word. -/
theorem wordAddr_write (a : Addr) (d : Byte) : wordAddr (writeWord a d) = a := by
  have := a.isLt; have := d.isLt
  apply BitVec.eq_of_toNat_eq
  simp only [wordAddr, writeWord, BitVec.toNat_ofNat]; omega

/-- The data of a write's word. -/
theorem wordData_write (a : Addr) (d : Byte) : wordData (writeWord a d) = d := by
  have := a.isLt; have := d.isLt
  apply BitVec.eq_of_toNat_eq
  simp only [wordData, writeWord, BitVec.toNat_ofNat]; omega

/-- A write's word has bit 24 set. -/
theorem wordIsWrite_write (a : Addr) (d : Byte) : wordIsWrite (writeWord a d) = true := by
  have := a.isLt; have := d.isLt
  simp only [wordIsWrite, writeWord, beq_iff_eq]; omega

/-- A write's word has no bit above bit 24. -/
theorem writeWord_lt (a : Addr) (d : Byte) : ¬ 0x2000000 ≤ writeWord a d := by
  have := a.isLt; have := d.isLt
  simp only [writeWord]; omega

/-- The address of a read's word. -/
theorem wordAddr_read (a : Addr) (d : Byte) : wordAddr (readWord a + d.toNat) = a := by
  have := a.isLt; have := d.isLt
  apply BitVec.eq_of_toNat_eq
  simp only [wordAddr, readWord, BitVec.toNat_ofNat]; omega

/-- The data of a read's word. -/
theorem wordData_read (a : Addr) (d : Byte) : wordData (readWord a + d.toNat) = d := by
  have := a.isLt; have := d.isLt
  apply BitVec.eq_of_toNat_eq
  simp only [wordData, readWord, BitVec.toNat_ofNat]; omega

/-- A read's word has bit 24 clear. -/
theorem wordIsWrite_read (a : Addr) (d : Byte) : wordIsWrite (readWord a + d.toNat) = false := by
  have := a.isLt; have := d.isLt
  simp only [wordIsWrite, readWord, beq_eq_false_iff_ne]; omega

/-- A read's word has no bit above bit 24. -/
theorem readWord_lt (a : Addr) (d : Byte) : ¬ 0x2000000 ≤ readWord a + d.toNat := by
  have := a.isLt; have := d.isLt
  simp only [readWord]; omega

/-- A write's word is read by its address and data. -/
theorem decode_write (ctx : DecodeCtx) (a : Addr) (d : Byte) : decode ctx (writeWord a d) = .ok (decodeWrite ctx a d) := by
  unfold decode
  rw [if_neg (writeWord_lt a d), wordIsWrite_write, wordAddr_write, wordData_write]; rfl

/-- A read's word is read by its address and data. -/
theorem decode_readData (ctx : DecodeCtx) (a : Addr) (d : Byte) : decode ctx (readWord a + d.toNat) = decodeRead ctx a d := by
  unfold decode
  rw [if_neg (readWord_lt a d), wordIsWrite_read, wordAddr_read, wordData_read]; rfl

/-- A read's word carries no data. -/
theorem decode_read (ctx : DecodeCtx) (a : Addr) : decode ctx (readWord a) = decodeRead ctx a 0 := by
  simpa using decode_readData ctx a 0

/-- No extended row claims an address outside the extended map. -/
theorem extendedRow_none (a : Addr) (d : Byte) (h : a.isExtended = false) : extendedRow a d = none := by
  simp only [Addr.isExtended, Bool.or_eq_false_iff, decide_eq_false_iff_not] at h
  simp only [extendedRow]
  repeat rw [if_neg (by omega)]

/-- Every address of the extended map is claimed by a row. -/
theorem extendedRow_some (a : Addr) (d : Byte) (h : a.isExtended = true) : ∃ i, extendedRow a d = some i := by
  by_contra hn
  have hn' : extendedRow a d = none := by
    cases he : extendedRow a d with
    | none => rfl
    | some i => exact absurd ⟨i, he⟩ hn
  simp only [Addr.isExtended, Bool.or_eq_true, decide_eq_true_eq] at h
  simp only [extendedRow, ite_eq_right_iff, reduceCtorEq, imp_false, ite_eq_iff, and_false, false_or] at hn'
  omega

end Sys2Proof
end

