-- ==== Sys2Proof/Laws/PerInstr.lean ====
section
/-! SUPPORT. Laws/PerInstr.lean: the family RowBits. The word encoded for a well-formed instruction carries the fixed bits its row
of spec/opcode_table.json asks for (one of its alternatives), and a step without a word is the operation itself. -/

namespace Sys2Proof.Laws.RowBits

open Sys2Proof

/-- Bits hi..lo of a row and the value they hold. -/
structure Fixed where
  hi : Nat
  lo : Nat
  value : Nat
  deriving DecidableEq, Repr

/-- The word holds the value in the field. -/
def Fixed.holds (f : Fixed) (t : Nat) : Prop := t / 2 ^ f.lo % 2 ^ (f.hi - f.lo + 1) = f.value

/-- The alternatives of each row of spec/opcode_table.json: its "fixed" bits, and those of its "alt" entries. -/
def rowBits : Instr → List (List Fixed)
  | .mbc5Ramg _ _ => [[⟨24, 21, 8⟩]]
  | .mbc5Romb0 _ _ => [[⟨24, 20, 18⟩]]
  | .mbc5Romb1 _ _ => [[⟨24, 20, 19⟩]]
  | .mbc5Ramb _ _ => [[⟨24, 21, 10⟩]]
  | .wRomkind _ _ => [[⟨24, 11, 8206⟩]]
  | .wRamkind _ _ => [[⟨24, 9, 32829⟩]]
  | .wRommid _ _ => [[⟨24, 11, 8208⟩]]
  | .wRammid _ _ => [[⟨24, 9, 32837⟩]]
  | .wRomlo _ _ => [[⟨24, 11, 8210⟩]]
  | .wRamlo _ _ => [[⟨24, 9, 32845⟩]]
  | .wMode _ => [[⟨24, 8, 65696⟩]]
  | .wCurhi _ => [[⟨24, 8, 65712⟩]]
  | .wCurlo _ => [[⟨24, 8, 65713⟩]]
  | .wCurinc _ => [[⟨24, 8, 65714⟩]]
  | .wFpgadata _ => [[⟨24, 8, 65715⟩]]
  | .wEspcfg _ => [[⟨24, 8, 65776⟩]]
  | .wEspack _ => [[⟨24, 8, 65777⟩]]
  | .wEsptx _ => [[⟨24, 8, 65778⟩]]
  | .wEsprxaddr _ => [[⟨24, 8, 65779⟩]]
  | .wEsptxaddr _ => [[⟨24, 8, 65780⟩]]
  | .wBoot _ => [[⟨24, 8, 65791⟩]]
  | .wFall _ _ => [[⟨24, 24, 1⟩]]
  | .wMem _ _ => [[⟨24, 21, 11⟩], [⟨24, 21, 13⟩]]
  | .rFpgadata => [[⟨24, 0, 45824⟩]]
  | .rVersion => [[⟨24, 0, 51712⟩]]
  | .rEspcfg => [[⟨24, 0, 61440⟩]]
  | .rEsprx => [[⟨24, 0, 61696⟩]]
  | .rEsptx => [[⟨24, 0, 61952⟩]]
  | .rFall _ => [[⟨24, 16, 0⟩, ⟨7, 0, 0⟩], [⟨24, 21, 5⟩, ⟨7, 0, 0⟩]]
  | .rMem _ => [[⟨24, 23, 0⟩, ⟨7, 0, 0⟩], [⟨24, 21, 5⟩, ⟨7, 0, 0⟩]]
  | .refuseNotDecoded _ _ _ => [[⟨23, 21, 4⟩], [⟨23, 22, 3⟩]]
  | .refuseIllFormedWord _ => [[]]
  | .init _ => [[]]
  | .recompute => [[]]
  | .save => [[]]
  | .restore _ => [[]]
  | .host _ => [[]]
  | .peer _ _ => [[]]

/-- The word of a well-formed instruction is one its row matches; a step without a word is the operation itself. -/
def Statement (i : Instr) : Prop :=
  i.wf = true →
    match encode i with
    | .word t => ∃ alt ∈ rowBits i, ∀ f ∈ alt, f.holds t
    | .op o => o.toInstr = i

/-- A row of one alternative with one run of fixed bits. -/
theorem oneRun {f : Fixed} {t : Nat} (h : f.holds t) : ∃ alt ∈ [[f]], ∀ g ∈ alt, g.holds t :=
  ⟨[f], List.mem_cons_self, fun g hg => by rwa [List.mem_singleton.1 hg]⟩

/-- A row whose first alternative holds. -/
theorem firstAlt {x : List Fixed} {xs : List (List Fixed)} {t : Nat} (h : ∀ f ∈ x, f.holds t) :
    ∃ alt ∈ x :: xs, ∀ f ∈ alt, f.holds t := ⟨x, List.mem_cons_self, h⟩

/-- A row whose second alternative holds. -/
theorem secondAlt {x y : List Fixed} {xs : List (List Fixed)} {t : Nat} (h : ∀ f ∈ y, f.holds t) :
    ∃ alt ∈ x :: y :: xs, ∀ f ∈ alt, f.holds t := ⟨y, List.mem_cons_of_mem _ List.mem_cons_self, h⟩

/-- A write to a fixed address. -/
theorem exactWrite (n : Nat) (hn : n < 2 ^ 16) (d : Byte) :
    Fixed.holds ⟨24, 8, 2 ^ 16 + n⟩ (writeWord (BitVec.ofNat 16 n) d) := by
  have := d.isLt
  simp only [Fixed.holds, writeWord, BitVec.toNat_ofNat]
  omega

/-- A write to a group of eight registers. -/
theorem romGroupWrite (k : Nat) (hk : k < 2 ^ 13) (i : BitVec 3) (d : Byte) :
    Fixed.holds ⟨24, 11, 2 ^ 13 + k⟩ (writeWord (romSlotAddr (8 * k) i) d) := by
  have := d.isLt
  have := i.isLt
  simp only [Fixed.holds, writeWord, romSlotAddr, BitVec.toNat_ofNat]
  omega

/-- A write to a group of two registers. -/
theorem ramGroupWrite (k : Nat) (hk : k < 2 ^ 15) (j : BitVec 1) (d : Byte) :
    Fixed.holds ⟨24, 9, 2 ^ 15 + k⟩ (writeWord (ramSlotAddr (2 * k) j) d) := by
  have := d.isLt
  have := j.isLt
  simp only [Fixed.holds, writeWord, ramSlotAddr, BitVec.toNat_ofNat]
  omega

/-- A write whose top address bits are given. -/
theorem rangeWrite (k v : Nat) (a : Addr) (d : Byte) (hk : k ≤ 16) (ha : a.toNat / 2 ^ (16 - k) = v) :
    Fixed.holds ⟨24, 24 - k, 2 ^ k + v⟩ (writeWord a d) := by
  have := d.isLt
  have := a.isLt
  subst ha
  interval_cases k <;> simp only [Fixed.holds, writeWord] <;> omega

/-- A read of a fixed address. -/
theorem exactRead (n : Nat) (hn : n < 2 ^ 16) :
    Fixed.holds ⟨24, 0, n * 0x100⟩ (readWord (BitVec.ofNat 16 n)) := by
  simp only [Fixed.holds, readWord, BitVec.toNat_ofNat]
  omega

/-- A read carries no data and is no write, and its top address bits are given. -/
theorem rangeRead (k v : Nat) (a : Addr) (hk : k ≤ 16) (ha : a.toNat / 2 ^ (16 - k) = v) :
    ∀ f ∈ [Fixed.mk 24 (24 - k) v, Fixed.mk 7 0 0], f.holds (readWord a) := by
  have := a.isLt
  subst ha
  intro f hf
  simp only [List.mem_cons, List.not_mem_nil, or_false] at hf
  rcases hf with rfl | rfl
  · interval_cases k <;> simp only [Fixed.holds, readWord] <;> omega
  · simp only [Fixed.holds, readWord]
    omega

theorem mbc5Ramg (a : Addr) (d : Byte) : Statement (.mbc5Ramg a d) := by
  intro h
  simp only [Instr.wf, Bool.and_eq_true, decide_eq_true_eq] at h
  exact oneRun (rangeWrite 3 0 a d (by decide) (by omega))

theorem mbc5Romb0 (a : Addr) (d : Byte) : Statement (.mbc5Romb0 a d) := by
  intro h
  simp only [Instr.wf, decide_eq_true_eq] at h
  exact oneRun (rangeWrite 4 2 a d (by decide) (by omega))

theorem mbc5Romb1 (a : Addr) (d : Byte) : Statement (.mbc5Romb1 a d) := by
  intro h
  simp only [Instr.wf, decide_eq_true_eq] at h
  exact oneRun (rangeWrite 4 3 a d (by decide) (by omega))

theorem mbc5Ramb (a : Addr) (d : Byte) : Statement (.mbc5Ramb a d) := by
  intro h
  simp only [Instr.wf, decide_eq_true_eq] at h
  exact oneRun (rangeWrite 3 2 a d (by decide) (by omega))

theorem wRomkind (i : BitVec 3) (d : Byte) : Statement (.wRomkind i d) :=
  fun _ => oneRun (romGroupWrite 0xe (by decide) i d)

theorem wRamkind (j : BitVec 1) (d : Byte) : Statement (.wRamkind j d) :=
  fun _ => oneRun (ramGroupWrite 0x3d (by decide) j d)

theorem wRommid (i : BitVec 3) (d : Byte) : Statement (.wRommid i d) :=
  fun _ => oneRun (romGroupWrite 0x10 (by decide) i d)

theorem wRammid (j : BitVec 1) (d : Byte) : Statement (.wRammid j d) :=
  fun _ => oneRun (ramGroupWrite 0x45 (by decide) j d)

theorem wRomlo (i : BitVec 3) (d : Byte) : Statement (.wRomlo i d) :=
  fun _ => oneRun (romGroupWrite 0x12 (by decide) i d)

theorem wRamlo (j : BitVec 1) (d : Byte) : Statement (.wRamlo j d) :=
  fun _ => oneRun (ramGroupWrite 0x4d (by decide) j d)

theorem wMode (d : Byte) : Statement (.wMode d) :=
  fun _ => oneRun (exactWrite 0x00a0 (by decide) d)

theorem wCurhi (d : Byte) : Statement (.wCurhi d) :=
  fun _ => oneRun (exactWrite 0x00b0 (by decide) d)

theorem wCurlo (d : Byte) : Statement (.wCurlo d) :=
  fun _ => oneRun (exactWrite 0x00b1 (by decide) d)

theorem wCurinc (d : Byte) : Statement (.wCurinc d) :=
  fun _ => oneRun (exactWrite 0x00b2 (by decide) d)

theorem wFpgadata (d : Byte) : Statement (.wFpgadata d) :=
  fun _ => oneRun (exactWrite 0x00b3 (by decide) d)

theorem wEspcfg (d : Byte) : Statement (.wEspcfg d) :=
  fun _ => oneRun (exactWrite 0x00f0 (by decide) d)

theorem wEspack (d : Byte) : Statement (.wEspack d) :=
  fun _ => oneRun (exactWrite 0x00f1 (by decide) d)

theorem wEsptx (d : Byte) : Statement (.wEsptx d) :=
  fun _ => oneRun (exactWrite 0x00f2 (by decide) d)

theorem wEsprxaddr (d : Byte) : Statement (.wEsprxaddr d) :=
  fun _ => oneRun (exactWrite 0x00f3 (by decide) d)

theorem wEsptxaddr (d : Byte) : Statement (.wEsptxaddr d) :=
  fun _ => oneRun (exactWrite 0x00f4 (by decide) d)

theorem wBoot (d : Byte) : Statement (.wBoot d) :=
  fun _ => oneRun (exactWrite 0x00ff (by decide) d)

theorem wFall (a : Addr) (d : Byte) : Statement (.wFall a d) := by
  intro _
  have := a.isLt
  exact oneRun (rangeWrite 0 0 a d (by decide) (by omega))

theorem wMem (a : Addr) (d : Byte) : Statement (.wMem a d) := by
  intro h
  simp only [Instr.wf, Addr.inRamArea, Bool.or_eq_true, decide_eq_true_eq] at h
  by_cases ha : a.toNat < 0x8000
  · exact firstAlt fun f hf => by
      rw [List.mem_singleton.1 hf]
      exact rangeWrite 3 3 a d (by decide) (by omega)
  · exact secondAlt fun f hf => by
      rw [List.mem_singleton.1 hf]
      exact rangeWrite 3 5 a d (by decide) (by omega)

theorem rFpgadata : Statement (.rFpgadata) :=
  fun _ => oneRun (exactRead 0x00b3 (by decide))

theorem rVersion : Statement (.rVersion) :=
  fun _ => oneRun (exactRead 0x00ca (by decide))

theorem rEspcfg : Statement (.rEspcfg) :=
  fun _ => oneRun (exactRead 0x00f0 (by decide))

theorem rEsprx : Statement (.rEsprx) :=
  fun _ => oneRun (exactRead 0x00f1 (by decide))

theorem rEsptx : Statement (.rEsptx) :=
  fun _ => oneRun (exactRead 0x00f2 (by decide))

theorem rFall (a : Addr) : Statement (.rFall a) := by
  intro h
  simp only [Instr.wf, Addr.inRamArea, Bool.or_eq_true, Bool.and_eq_true, decide_eq_true_eq] at h
  by_cases ha : a.toNat < 0x8000
  · exact firstAlt (rangeRead 8 0 a (by decide) (by omega))
  · exact secondAlt (rangeRead 3 5 a (by decide) (by omega))

theorem rMem (a : Addr) : Statement (.rMem a) := by
  intro h
  simp only [Instr.wf, Addr.inRomArea, Addr.inRamArea, Bool.or_eq_true, decide_eq_true_eq] at h
  by_cases ha : a.toNat < 0x8000
  · exact firstAlt (rangeRead 1 0 a (by decide) (by omega))
  · exact secondAlt (rangeRead 3 5 a (by decide) (by omega))

theorem refuseNotDecoded (w : BitVec 1) (a : Addr) (d : Byte) : Statement (.refuseNotDecoded w a d) := by
  intro h
  simp only [Instr.wf, Addr.inRomArea, Addr.inRamArea, Bool.not_eq_true', Bool.or_eq_false_iff,
    decide_eq_false_iff_not] at h
  have := d.isLt
  have := a.isLt
  by_cases ha : a.toNat < 0xC000
  · exact firstAlt fun f hf => by
      rw [List.mem_singleton.1 hf]
      simp only [Fixed.holds, writeWord, readWord]
      split <;> omega
  · exact secondAlt fun f hf => by
      rw [List.mem_singleton.1 hf]
      simp only [Fixed.holds, writeWord, readWord]
      split <;> omega

theorem refuseIllFormedWord (t : Nat) : Statement (.refuseIllFormedWord t) :=
  fun _ => ⟨[], List.mem_cons_self, by simp⟩

theorem init (cfg : Config) : Statement (.init cfg) := fun _ => rfl

theorem recompute : Statement (.recompute) := fun _ => rfl

theorem save : Statement (.save) := fun _ => rfl

theorem restore (m : Image) : Statement (.restore m) := fun _ => rfl

theorem host (b : Bool) : Statement (.host b) := fun _ => rfl

theorem peer (r : Bool) (q : List Byte) : Statement (.peer r q) := fun _ => rfl

end Sys2Proof.Laws.RowBits
end

