-- ==== Sys2Proof/Laws/Step.lean ====
section
/-! SUPPORT. Laws/Step.lean: what one step can do. -/

namespace Sys2Proof.Machine

open Sys2Proof

/-- If a step answers a next state, the configuration is admitted and either no step waited or the next one was decoded and
executed. -/
theorem step_next_cases (s t : State) (h : step s = .next t) :
    s.cfg.wf = true ∧
      ((s.pending = [] ∧ t = s) ∨
       ∃ x xs i, s.pending = x :: xs ∧ decodeInput s.decodeCtx x = .ok i ∧
         exec i { s with pending := xs } = .next t) := by
  unfold step at h
  by_cases hc : s.cfg.wf = true
  · refine ⟨hc, ?_⟩
    rw [if_pos hc] at h
    unfold fetch at h
    cases hp : s.pending with
    | nil =>
      simp only [hp] at h
      injection h with h
      exact .inl ⟨rfl, h.symm⟩
    | cons x xs =>
      simp only [hp] at h
      have e : State.decodeCtx { s with pending := xs } = s.decodeCtx := rfl
      rw [e] at h
      cases hd : decodeInput s.decodeCtx x with
      | ok i =>
        simp only [hd] at h
        exact .inr ⟨x, xs, i, rfl, hd, h⟩
      | error er =>
        cases er
        simp only [hd] at h
        cases h
  · rw [if_neg hc] at h
    cases h

/-- A presented word is what the next step decodes and executes. -/
theorem step_present (s : State) (t : Nat) (i : Instr) (hc : s.cfg.wf = true) (hd : decode s.decodeCtx t = .ok i) :
    step (s.present t) = exec i s := by
  unfold step
  rw [show (s.present t).cfg = s.cfg from rfl, if_pos hc]
  simp only [fetch, State.present, decodeInput]
  have e3 : State.decodeCtx { s with pending := s.pending } = s.decodeCtx := rfl
  simp only [e3, hd]

end Sys2Proof.Machine
end

