-- ==== Sys2Proof/Tests/Slice0.lean ====
section
/-! SUPPORT. Tests/Slice0.lean: the ill-formed terms the checks refuse, a word of every row written out from 30_encoding, one or two
steps of every row with the result 95_test_vectors gives by hand, and a witness for the hypotheses of every obligation. -/

namespace Sys2Proof.Tests

open Sys2Proof Sys2Proof.Machine Sys2Proof.Claims

/-! ### Helpers -/

/-- The vectors' configuration (95 section 0), with a version and an empty-queue byte of the test's own. -/
def cfg0 : Config := { Config.default with mapperVersion := 0x21, peerEmptyByte := 0xEE }

/-- "default" (95 section 0). -/
def s0 : State := { State.reset with cfg := cfg0 }

/-- "default + X", then RECOMPUTE. -/
def st (f : Regs → Regs) : State := (s0.withRegs f).remap

/-- The mode of the default state. -/
def ext : DecodeCtx := ⟨false, true, false⟩

/-- Compat mode with both read windows open. -/
def compat : DecodeCtx := ⟨true, true, true⟩

/-- Both read windows closed. -/
def closed : DecodeCtx := ⟨false, false, false⟩

/-- What one step on a word leaves, seen through `f`. -/
def onWord {α : Type} (t : Nat) (s : State) (f : State → α) : Option α :=
  match step (s.present t) with
  | .next u => some (f u)
  | _ => none

/-- What one host or peer step leaves, seen through `f`. -/
def onOp {α : Type} (o : HostOp) (s : State) (f : State → α) : Option α :=
  match step { s with pending := [.op o] } with
  | .next u => some (f u)
  | _ => none

/-- The word reads as the instruction in the mode, and the encoder gives the word back. -/
abbrev Reads (ctx : DecodeCtx) (w : Nat) (i : Instr) : Prop :=
  i.wf = true ∧ i.selected ctx = true ∧ encode i = .word w ∧ decode ctx w = .ok i

/-- Every field of a tuple at the spec's default but the given `romMode`. -/
def image (romMode : Nat) : Image := { Image.default with romMode := romMode }

/-! ### WellFormed: an ill-formed term for each check -/

theorem test_wf_refuses_mbc5Ramg_range : (Instr.mbc5Ramg 0x2000 0).wf = false := by decide
theorem test_wf_refuses_mbc5Ramg_extended : (Instr.mbc5Ramg 0x0070 0).wf = false := by decide
theorem test_wf_refuses_mbc5Romb0 : (Instr.mbc5Romb0 0x1FFF 0).wf = false ∧ (Instr.mbc5Romb0 0x3000 0).wf = false := by decide
theorem test_wf_refuses_mbc5Romb1 : (Instr.mbc5Romb1 0x2FFF 0).wf = false ∧ (Instr.mbc5Romb1 0x4000 0).wf = false := by decide
theorem test_wf_refuses_mbc5Ramb : (Instr.mbc5Ramb 0x3FFF 0).wf = false ∧ (Instr.mbc5Ramb 0x6000 0).wf = false := by decide
theorem test_wf_refuses_wFall : (Instr.wFall 0x6000 0).wf = false ∧ (Instr.wFall 0x00FF 0).wf = false := by decide
theorem test_wf_refuses_wMem :
    (Instr.wMem 0x5FFF 0).wf = false ∧ (Instr.wMem 0x8000 0).wf = false ∧ (Instr.wMem 0xC000 0).wf = false := by decide
theorem test_wf_refuses_rFall :
    (Instr.rFall 0x0100).wf = false ∧ (Instr.rFall 0x00B3).wf = false ∧ (Instr.rFall 0x9FFF).wf = false := by decide
theorem test_wf_refuses_rMem : (Instr.rMem 0x8000).wf = false ∧ (Instr.rMem 0x9FFF).wf = false ∧ (Instr.rMem 0xC000).wf = false := by
  decide
theorem test_wf_refuses_refuseNotDecoded :
    (Instr.refuseNotDecoded 0 0x7FFF 0).wf = false ∧ (Instr.refuseNotDecoded 1 0xA000 0).wf = false := by decide
theorem test_wf_refuses_refuseIllFormedWord : (Instr.refuseIllFormedWord 0x1FFFFFF).wf = false := by decide

/-- 00_scope R8: each condition on a configuration, at its boundary. -/
theorem test_config_wf :
    cfg0.wf = true ∧ Config.wf { cfg0 with romSize := 0x8000, cartRamSize := 0 } = true ∧
    Config.wf { cfg0 with romSize := 0x4000 } = false ∧ Config.wf { cfg0 with romSize := 0x18000 } = false ∧
    Config.wf { cfg0 with romSize := 0 } = false ∧ Config.wf { cfg0 with cartRamSize := 0x3000 } = false := by decide

/-- 45 R233: each field of a tuple, one above its largest value. -/
theorem test_image_fits :
    Image.default.fits = true ∧ (image 7).fits = true ∧ (image 8).fits = false ∧
    Image.fits { Image.default with bootRomMode := 2 } = false ∧
    Image.fits { Image.default with mbc5CompatibilityMode := 2 } = false ∧
    Image.fits { Image.default with ramEnabled := 2 } = false ∧ Image.fits { Image.default with ramMode := 2 } = false ∧
    Image.fits { Image.default with romBanks := Vector.replicate 8 0x20000 } = false ∧
    Image.fits { Image.default with ramBanks := Vector.replicate 2 0x40000 } = false ∧
    Image.fits { Image.default with fpgaRamAutoRwAddress := 0x10000 } = false ∧
    Image.fits { Image.default with fpgaRamAutoRwIncrement := 0x100 } = false ∧
    Image.fits { Image.default with espEnable := 2 } = false ∧ Image.fits { Image.default with espIrqEnable := 2 } = false ∧
    Image.fits { Image.default with espHasReceivedMessage := 2 } = false ∧
    Image.fits { Image.default with espMessageSent := 2 } = false ∧
    Image.fits { Image.default with espRxAddress := 8 } = false ∧ Image.fits { Image.default with espTxAddress := 8 } = false := by
  decide

/-! ### Decoding: a word of every row, `W`, `A`, `D` written out from 30 R80 -/

theorem test_decode_mbc5Ramg : Reads compat 0x11FFF0A (.mbc5Ramg 0x1FFF 0x0A) ∧ Reads compat 0x100001A (.mbc5Ramg 0x0000 0x1A) := by
  decide
theorem test_decode_mbc5Romb0 : Reads compat 0x12FFF05 (.mbc5Romb0 0x2FFF 0x05) ∧ Reads compat 0x1200034 (.mbc5Romb0 0x2000 0x34) := by
  decide
theorem test_decode_mbc5Romb1 : Reads compat 0x13FFFFF (.mbc5Romb1 0x3FFF 0xFF) ∧ Reads compat 0x13000FE (.mbc5Romb1 0x3000 0xFE) := by
  decide
theorem test_decode_mbc5Ramb : Reads compat 0x15FFF1F (.mbc5Ramb 0x5FFF 0x1F) ∧ Reads compat 0x14000F3 (.mbc5Ramb 0x4000 0xF3) := by
  decide
theorem test_decode_wRomkind : Reads ext 0x1007001 (.wRomkind 0 0x01) ∧ Reads compat 0x10077FE (.wRomkind 7 0xFE) := by decide
theorem test_decode_wRamkind : Reads ext 0x1007A03 (.wRamkind 0 0x03) ∧ Reads ext 0x1007B06 (.wRamkind 1 0x06) := by decide
theorem test_decode_wRommid : Reads ext 0x10085AB (.wRommid 5 0xAB) ∧ Reads ext 0x1008755 (.wRommid 7 0x55) := by decide
theorem test_decode_wRammid : Reads ext 0x1008AFF (.wRammid 0 0xFF) ∧ Reads ext 0x1008B02 (.wRammid 1 0x02) := by decide
theorem test_decode_wRomlo : Reads ext 0x100937F (.wRomlo 3 0x7F) ∧ Reads compat 0x1009055 (.wRomlo 0 0x55) := by decide
theorem test_decode_wRamlo : Reads ext 0x1009A01 (.wRamlo 0 0x01) ∧ Reads ext 0x1009B42 (.wRamlo 1 0x42) := by decide
theorem test_decode_wMode : Reads ext 0x100A083 (.wMode 0x83) ∧ Reads compat 0x100A070 (.wMode 0x70) := by decide
theorem test_decode_wCurhi : Reads ext 0x100B01F (.wCurhi 0x1F) := by decide
theorem test_decode_wCurlo : Reads ext 0x100B1FE (.wCurlo 0xFE) := by decide
theorem test_decode_wCurinc : Reads ext 0x100B201 (.wCurinc 0x01) := by decide
theorem test_decode_wFpgadata : Reads ext 0x100B311 (.wFpgadata 0x11) := by decide
theorem test_decode_wEspcfg : Reads ext 0x100F0FE (.wEspcfg 0xFE) := by decide
theorem test_decode_wEspack : Reads ext 0x100F100 (.wEspack 0x00) := by decide
theorem test_decode_wEsptx : Reads ext 0x100F20A (.wEsptx 0x0A) := by decide
theorem test_decode_wEsprxaddr : Reads ext 0x100F30D (.wEsprxaddr 0x0D) := by decide
theorem test_decode_wEsptxaddr : Reads ext 0x100F4FA (.wEsptxaddr 0xFA) := by decide
theorem test_decode_wBoot : Reads ext 0x100FFFE (.wBoot 0xFE) := by decide

/-- The unlisted addresses on both sides of the register groups, and the ends of the window (30 R91). -/
theorem test_decode_wFall :
    Reads ext 0x1005012 (.wFall 0x0050 0x12) ∧ Reads ext 0x1006F00 (.wFall 0x006F 0) ∧ Reads ext 0x1007800 (.wFall 0x0078 0) ∧
    Reads ext 0x1007C00 (.wFall 0x007C 0) ∧ Reads ext 0x100A100 (.wFall 0x00A1 0) ∧ Reads ext 0x100FE00 (.wFall 0x00FE 0) ∧
    Reads ext 0x1010000 (.wFall 0x0100 0) ∧ Reads ext 0x15FFF00 (.wFall 0x5FFF 0) ∧ Reads ext 0x1200005 (.wFall 0x2000 0x05) := by
  decide
theorem test_decode_wMem :
    Reads compat 0x1600012 (.wMem 0x6000 0x12) ∧ Reads ext 0x17FFF00 (.wMem 0x7FFF 0) ∧ Reads ext 0x1A00012 (.wMem 0xA000 0x12) ∧
    Reads compat 0x1BFFF00 (.wMem 0xBFFF 0) := by decide
theorem test_decode_rFpgadata : Reads ext 0x000B300 .rFpgadata := by decide
theorem test_decode_rVersion : Reads ext 0x000CA00 .rVersion := by decide
theorem test_decode_rEspcfg : Reads ext 0x000F000 .rEspcfg := by decide
theorem test_decode_rEsprx : Reads ext 0x000F100 .rEsprx := by decide
theorem test_decode_rEsptx : Reads ext 0x000F200 .rEsptx := by decide

/-- Reads of 0x00F3, 0x00F4, 0x00A0 are not decoded (RD3); matching is exact on all 16 bits (RD11). -/
theorem test_decode_rFall :
    Reads ext 0x000F300 (.rFall 0x00F3) ∧ Reads ext 0x000F400 (.rFall 0x00F4) ∧ Reads ext 0x000A000 (.rFall 0x00A0) ∧
    Reads ext 0x000FF00 (.rFall 0x00FF) ∧ Reads compat 0x0A0B300 (.rFall 0xA0B3) ∧ Reads compat 0x0BFFF00 (.rFall 0xBFFF) := by decide

/-- A read outside an open window is a mapped read, of a register's address too (RD10). -/
theorem test_decode_rMem :
    Reads closed 0x000CA00 (.rMem 0x00CA) ∧ Reads ext 0x0010000 (.rMem 0x0100) ∧ Reads ext 0x07FFF00 (.rMem 0x7FFF) ∧
    Reads ext 0x0A00000 (.rMem 0xA000) ∧ Reads ext 0x0BFFF00 (.rMem 0xBFFF) := by decide
theorem test_decode_refuseNotDecoded :
    Reads ext 0x0800000 (.refuseNotDecoded 0 0x8000 0) ∧ Reads ext 0x19FFF00 (.refuseNotDecoded 1 0x9FFF 0) ∧
    Reads compat 0x1C00000 (.refuseNotDecoded 1 0xC000 0) ∧ Reads compat 0x0FFFF00 (.refuseNotDecoded 0 0xFFFF 0) := by decide
theorem test_decode_refuseIllFormedWord :
    Reads ext 0x2000000 (.refuseIllFormedWord 0x2000000) ∧ Reads compat 0x300A083 (.refuseIllFormedWord 0x300A083) := by decide

/-- 30 R96: a host or peer step has no word and is read as itself in every mode. -/
theorem test_decode_host_steps :
    decodeInput compat (encode (.init cfg0)) = .ok (.init cfg0) ∧ decodeInput ext (encode .recompute) = .ok .recompute ∧
    decodeInput ext (encode .save) = .ok .save ∧ decodeInput ext (encode (.restore (image 3))) = .ok (.restore (image 3)) ∧
    decodeInput ext (encode (.host false)) = .ok (.host false) ∧
    decodeInput ext (encode (.peer true [1, 2])) = .ok (.peer true [1, 2]) := by decide

/-! ### Reset -/

/-- RC1: the default layout. -/
theorem test_reset_layout : s0.mapping = layout cfg0 s0.regs true ∧ s0.mapping.win = [⟨0x0000, 0x7FFF, .rom 0⟩, ⟨0xA000, 0xBFFF, .rom 0⟩] := by
  decide
theorem test_reset_memory_wf : Memory.wf State.reset.rom ∧ Memory.wf State.reset.cram := Memory.reset_wf

/-! ### One step of every row -/

/-- BS1: the latch follows the whole byte, and the RAM window with it. -/
theorem test_mbc5Ramg_enables :
    onWord 0x11FFF0A (st fun r => { r with mbc5CompatibilityMode := true })
      (fun t => (t.regs.ramEnabled, t.mapping.win.drop 2, t.mapping.regReadHigh)) =
      some (true, [⟨0xA000, 0xBFFF, .cram 0⟩], false) := by decide
theorem test_mbc5Ramg_disables :
    onWord 0x100001A (st fun r => { r with mbc5CompatibilityMode := true, ramEnabled := true })
      (fun t => (t.regs.ramEnabled, t.mapping.win.drop 2, t.mapping.regReadHigh)) =
      some (false, [⟨0xA000, 0xBFFF, .unmapped⟩], true) := by decide
/-- BS3. -/
theorem test_mbc5Romb0 :
    onWord 0x12FFF05 (st fun r => { r with mbc5CompatibilityMode := true }.setRomBank 4 0x101FF) (fun t => t.regs.romBank 4) =
      some 0x10105 := by decide
/-- BS4: index bits 15:9 stay. -/
theorem test_mbc5Romb1 :
    onWord 0x1300001 (st fun r => { r with mbc5CompatibilityMode := true }.setRomBank 4 0x0A34)
      (fun t => (t.regs.romBank 4, t.mapping.win.drop 1 |>.take 1)) = some (0x0B34, [⟨0x4000, 0x7FFF, .rom 0x2CD0000⟩]) := by decide
/-- BS5. -/
theorem test_mbc5Ramb :
    onWord 0x15FFF1F (st fun r => { r with mbc5CompatibilityMode := true }.setRamBank 0 0x3FFFF) (fun t => t.regs.ramBank 0) =
      some 0x3FF0F := by decide
/-- BS8. -/
theorem test_wRomkind_clears : onWord 0x10072FE (st fun r => r.setRomBank 2 0x1FFFF) (fun t => t.regs.romBank 2) = some 0x0FFFF := by decide
/-- BS7: boot ROM mode alone does not block it. -/
theorem test_wRomkind_in_boot_mode :
    onWord 0x1007001 (st fun r => { r with bootRomMode := true }) (fun t => (t.regs.romBank 0, t.regs.ramEnabled)) =
      some (0x10000, false) := by decide
/-- BS8. -/
theorem test_wRamkind : onWord 0x1007B06 (st fun r => r.setRamBank 1 0x1FFFF) (fun t => t.regs.ramBank 1) = some 0x2FFFF := by decide
/-- BS8. -/
theorem test_wRommid : onWord 0x10085AB (st fun r => r.setRomBank 5 0x1FF34) (fun t => t.regs.romBank 5) = some 0x1AB34 := by decide
/-- BS9: bits 15:10 keep their value. -/
theorem test_wRammid :
    onWord 0x1008AFF (st fun r => r.setRamBank 0 0x0FC00) (fun t => (t.regs.ramBank 0, t.mapping.win.drop 1)) =
      some (0x0FF00, [⟨0xA000, 0xBFFF, .rom 0x1FE00000⟩]) := by decide
/-- BS8. -/
theorem test_wRomlo : onWord 0x100937F (st fun r => r.setRomBank 3 0x1AB34) (fun t => t.regs.romBank 3) = some 0x1AB7F := by decide
/-- BS6: ignored in compat mode, where it is a RAM-enable write. -/
theorem test_wRomlo_in_compat :
    onWord 0x100900A (st fun r => { r with mbc5CompatibilityMode := true }) (fun t => (t.regs.romBank 0, t.regs.ramEnabled)) =
      some (0, true) := by decide
/-- BS8. -/
theorem test_wRamlo : onWord 0x1009B42 (st fun r => r.setRamBank 1 0x3FFFF) (fun t => t.regs.ramBank 1) = some 0x3FF42 := by decide
/-- RD4: the legacy matcher is off before the write. -/
theorem test_wMode_enters_compat :
    onWord 0x100A08C s0 (fun t => (t.regs.ramMode, t.regs.mbc5CompatibilityMode, t.regs.romMode, t.regs.ramEnabled, t.mapping.regReadHigh)) =
      some (true, true, 4, false, true) := by decide
/-- RD9: leaving compat mode, the latch fires with the same byte. -/
theorem test_wMode_leaves_compat :
    onWord 0x100A002 (st fun r => { r with mbc5CompatibilityMode := true, ramEnabled := true })
      (fun t => (t.regs.mbc5CompatibilityMode, t.regs.romMode, t.regs.ramEnabled, t.mapping.win.length)) = some (false, 2, false, 4) := by
  decide
/-- FP1. -/
theorem test_wCurhi : onWord 0x100B01F (st fun r => { r with fpgaRamAutoRwAddress := 0x0034 }) (fun t => t.regs.fpgaRamAutoRwAddress) =
    some 0x1F34 := by decide
/-- FP1. -/
theorem test_wCurlo : onWord 0x100B1FE (st fun r => { r with fpgaRamAutoRwAddress := 0x1F34 }) (fun t => t.regs.fpgaRamAutoRwAddress) =
    some 0x1FFE := by decide
/-- FP8: not ignored in compat mode. -/
theorem test_wCurinc :
    onWord 0x100B202 (st fun r => { r with mbc5CompatibilityMode := true, ramEnabled := true })
      (fun t => (t.regs.fpgaRamAutoRwIncrement, t.regs.ramEnabled)) = some (2, false) := by decide
/-- FP3: the wrap of the cursor. -/
theorem test_wFpgadata_wraps :
    onWord 0x100B311 (st fun r => { r with fpgaRamAutoRwAddress := 0xFF10, fpgaRamAutoRwIncrement := 0xFF })
      (fun t => (t.cram, t.regs.fpgaRamAutoRwAddress)) = some ([(0x9F10, 0x11)], 0x000F) := by decide
/-- FP5: in compat mode the byte 0x0A enables RAM as well. -/
theorem test_wFpgadata_in_compat :
    onWord 0x100B30A (st fun r => { r with mbc5CompatibilityMode := true }) (fun t => (t.cram, t.regs.ramEnabled)) =
      some ([(0x8000, 0x0A)], true) := by decide
/-- BR1. -/
theorem test_wEspcfg : onWord 0x100F0FE s0 (fun t => (t.regs.espEnable, t.regs.espIrqEnable)) = some (false, true) := by decide
/-- RD8: both matchers fire. -/
theorem test_wEspcfg_in_compat :
    onWord 0x100F00A (st fun r => { r with mbc5CompatibilityMode := true })
      (fun t => (t.regs.ramEnabled, t.regs.espEnable, t.regs.espIrqEnable)) = some (true, false, true) := by decide
/-- 44 R197's example. -/
theorem test_wEspack : onWord 0x100F100 (st fun r => { r with espEnable := true, espHasReceivedMessage := true })
    (fun t => (t.regs.espHasReceivedMessage, t.log)) = some (false, []) := by decide
/-- BR4: disabled, it only warns. -/
theorem test_wEspack_disabled : onWord 0x100F100 (st fun r => { r with espHasReceivedMessage := true })
    (fun t => (t.regs.espHasReceivedMessage, t.log)) = some (true, [.warn .espDisabledAck]) := by decide
/-- 44 R198's example. -/
theorem test_wEsptx :
    onWord 0x100F200 { st (fun r => { r with espEnable := true, espTxAddress := 2 }) with cram := [(0x9A00, 2), (0x9A01, 0x48), (0x9A02, 0x69)] }
      (fun t => (t.log, t.regs.espMessageSent)) = some ([.push 2, .push 0x48, .push 0x69], true) := by decide
/-- BR11: disabled and in compat mode. -/
theorem test_wEsptx_disabled : onWord 0x100F20A (st fun r => { r with mbc5CompatibilityMode := true })
    (fun t => (t.log, t.regs.ramEnabled)) = some ([.warn .espDisabledTx], true) := by decide
/-- BR9. -/
theorem test_wEsprxaddr : onWord 0x100F30D s0 (fun t => (t.regs.espRxAddress, t.regs.espTxAddress)) = some (5, 0) := by decide
/-- BR9. -/
theorem test_wEsptxaddr : onWord 0x100F4FA s0 (fun t => (t.regs.espRxAddress, t.regs.espTxAddress)) = some (0, 2) := by decide
/-- RC14: the override. -/
theorem test_wBoot_sets :
    onWord 0x100FF01 (st fun r => { r with romMode := 4, ramMode := true }.setRomBank 4 0x10112) (fun t => (t.mapping.win, t.mapping.regReadHigh)) =
      some ([⟨0x0000, 0x3FFF, .rom 0⟩, ⟨0x4000, 0x7FFF, .rom 0x448000⟩, ⟨0xA000, 0xBFFF, .unmapped⟩], true) := by decide
/-- RC14: the stored configuration returns. -/
theorem test_wBoot_clears :
    onWord 0x100FFFE (st fun r => ({ r with bootRomMode := true, romMode := 4, ramMode := true }.setRomBank 4 0x10112).setRomBank 0 3)
      (fun t => (t.regs.bootRomMode, t.mapping.win[0]?, t.mapping.win[4]?, t.mapping.win.drop 8)) =
      some (false, some ⟨0x0000, 0x0FFF, .rom 0x3000⟩, some ⟨0x4000, 0x4FFF, .cram 0x2000⟩,
        [⟨0xA000, 0xAFFF, .rom 0⟩, ⟨0xB000, 0xBFFF, .rom 0⟩]) := by decide
/-- 41 R136's example. -/
theorem test_wFall_stores :
    onWord 0x120105A (st fun r => { r with romMode := 3 }.setRomBank 2 0x10005) (fun t => t.cram) = some [(0x2010, 0x5A)] := by decide
/-- RD12: a dropped write recomputes too. -/
theorem test_wFall_recomputes :
    onWord 0x1007800 { s0 with mapping := layout cfg0 s0.regs false } (fun t => (t.cram, t.mapping.regReadLow)) = some ([], true) := by decide
/-- RC6: stored through slot 7 of kind 1. -/
theorem test_wMem_stores :
    onWord 0x17ABC3C (st fun r => { r with romMode := 4 }.setRomBank 7 0x1000F) (fun t => t.cram) = some [(0x7ABC, 0x3C)] := by decide
/-- RC13: dropped by a ROM window. -/
theorem test_wMem_dropped : onWord 0x1A01055 (st fun r => r.setRamBank 0 3) (fun t => (t.cram, t.faults)) = some ([], []) := by decide
/-- 43 R176's example, its last read: the index wraps, the cursor does not. -/
theorem test_rFpgadata :
    onWord 0x000B300 { st (fun r => { r with fpgaRamAutoRwAddress := 0x2000, fpgaRamAutoRwIncrement := 1 }) with cram := [(0x8000, 0xCC)] }
      (fun t => (t.answer, t.regs.fpgaRamAutoRwAddress)) = some (.byte 0xCC, 0x2001) := by decide
/-- FP6: with the window closed the cursor stays. -/
theorem test_rFpgadata_closed :
    onWord 0x000B300 { st (fun r => { r with fpgaRamAutoRwIncrement := 1 }) with mapping := layout cfg0 s0.regs false, rom := [(0xB3, 0x77)] }
      (fun t => (t.answer, t.regs.fpgaRamAutoRwAddress)) = some (.byte 0x77, 0) := by decide
/-- RD1. -/
theorem test_rVersion : onWord 0x000CA00 s0 (fun t => t.answer) = some (.byte 0x21) := by decide
/-- 44 R195's example. -/
theorem test_rEspcfg : onWord 0x000F000 (st fun r => { r with espIrqEnable := true }) (fun t => t.answer) = some (.byte 0x02) := by decide
/-- 44 R196's example: slot 5. -/
theorem test_rEsprx_polls :
    onWord 0x000F100 { st (fun r => { r with espEnable := true, espRxAddress := 5 }) with peer := ⟨true, [0x01, 0x4F]⟩ }
      (fun t => (t.answer, t.cram, t.peer.queue, t.regs.espHasReceivedMessage)) =
      some (.byte 0x80, [(0x9D00, 0x01), (0x9D01, 0x4F)], [], true) := by decide
/-- BR5: disabled, it does not poll. -/
theorem test_rEsprx_disabled :
    onWord 0x000F100 { s0 with peer := ⟨true, [0x01, 0x02]⟩ } (fun t => (t.answer, t.peer.queue, t.cram)) =
      some (.byte 0x00, [0x01, 0x02], []) := by decide
/-- MH5: the only way to see 0. -/
theorem test_rEsptx :
    onWord 0x000F200 s0 (fun t => t.answer) = some (.byte 0x80) ∧
    onWord 0x000F200 (st fun r => { r with espMessageSent := false }) (fun t => t.answer) = some (.byte 0x00) := by decide
/-- RD2. -/
theorem test_rFall : onWord 0x0004000 { s0 with rom := [(0x40, 0x5E)] } (fun t => t.answer) = some (.byte 0x5E) := by decide
/-- RC18: an unclaimed read of a reserved ROM mode records the fault. -/
theorem test_rFall_faults :
    onWord 0x0004000 (st fun r => { r with romMode := 5 }) (fun t => (t.answer, t.faults)) =
      some (.nothing, [.fault .romModeReserved (.read 0x0040)]) := by decide
/-- RC5: the ROM index aliases. -/
theorem test_rMem_aliases :
    onWord 0x0010000 { st (fun r => { r with romMode := 4 }.setRomBank 0 0x0FFFF) with rom := [(0x7F100, 0xA7)] } (fun t => t.answer) =
      some (.byte 0xA7) := by decide
/-- RC8: RAM smaller than the window faults at the access. -/
theorem test_rMem_faults :
    onWord 0x0010000 (State.remap { s0.withRegs (fun r => r.setRomBank 0 0x10000) with cfg := { cfg0 with cartRamSize := 0x2000 } })
      (fun t => (t.answer, t.faults)) = some (.nothing, [.fault .ramMaskUndefined (.read 0x0100)]) := by decide
/-- MH4. -/
theorem test_refuseNotDecoded :
    onWord 0x0800000 s0 (fun t => t.faults) = some [.refused .notDecoded] ∧
    onWord 0x1C00000 s0 (fun t => t.faults) = some [.refused .notDecoded] := by decide
/-- MH4. -/
theorem test_refuseIllFormedWord : onWord 0x2000000 s0 (fun t => t.faults) = some [.refused .illFormedWord] := by decide
/-- 70 R290. -/
theorem test_init :
    onOp (.init { cfg0 with romInit := [(5, 0x44), (2, 0x33)], bootDisabledAtInit := false, resetState := image 1 })
      { s0 with log := [.push 1], faults := [.refused .notDecoded] }
      (fun t => (t.rom, t.log.length + t.faults.length, t.regs.romMode, t.mapping.regReadLow)) =
      some ([(2, 0x33), (5, 0x44)], 0, 1, false) := by decide
/-- MH4: the refusals of INIT. -/
theorem test_init_refused :
    onOp (.init { cfg0 with romSize := 0x6000 }) s0 (fun t => (t.faults, t.cfg.romSize)) = some ([.refused .illFormedConfig], 0x80000) ∧
    onOp (.init { cfg0 with resetState := image 8 }) s0 (fun t => t.faults) = some [.refused .illFormedState] := by decide
/-- MH3. -/
theorem test_recompute :
    onOp .recompute { s0 with mapping := layout cfg0 s0.regs false } (fun t => t.mapping.regReadLow) = some true := by decide
/-- 45 R232's example. -/
theorem test_save : onOp .save s0 (fun t => t.answer) = some (.image Regs.reset) := by decide
/-- 45 R233. -/
theorem test_restore : onOp (.restore (image 4)) s0 (fun t => (t.regs.romMode, t.mapping.win.length)) = some (4, 9) := by decide
/-- MH4. -/
theorem test_restore_refused : onOp (.restore (image 8)) s0 (fun t => (t.regs.romMode, t.faults)) = some (0, [.refused .illFormedState]) := by
  decide
/-- 45 R234: sampled by the engine only. -/
theorem test_host : onOp (.host false) s0 (fun t => (t.hostBootRomDisabled, t.mapping.regReadLow)) = some (false, true) := by decide
/-- BR10. -/
theorem test_peer : onOp (.peer true []) s0 (fun t => (t.peer.ready, t.peer.dataReady)) = some (true, false) := by decide

/-! ### Witnesses: a concrete state and operands that meet each obligation's hypotheses, at the boundaries of its clauses -/

/-- The default state meets the invariant. -/
theorem s0_inv : s0.Inv := ⟨by decide, rfl, ⟨⟨by simp [s0, State.reset], by simp [s0, State.reset]⟩, by simp [s0, State.reset],
  ⟨by simp [s0, State.reset], by simp [s0, State.reset]⟩, by simp [s0, State.reset]⟩, by simp [s0, State.reset]⟩

/-- Compat mode on. -/
def sCompat : State := st fun r => { r with mbc5CompatibilityMode := true }

/-- A configuration that 00_scope R8 does not admit. -/
def cfgBad : Config := { cfg0 with romSize := 0x7FFF }

/-- Cartridge RAM smaller than every window but the 4K one. -/
def cfgSmall : Config := { cfg0 with cartRamSize := 0x1000 }

/-- The obligation's operands: every row's word in `test_decode_…` above is one; here the first and last mode. -/
theorem witness_DecodeInvertsEncode :
    (Instr.rMem 0x00B3).wf = true ∧ (Instr.rMem 0x00B3).selected closed = true ∧
    (Instr.mbc5Ramb 0x5FFF 0xFF).wf = true ∧ (Instr.mbc5Ramb 0x5FFF 0xFF).selected compat = true := by decide
theorem witness_EncodeInvertsDecode : decode compat 0x0A0B300 = .ok (.rFall 0xA0B3) ∧ decode ext 0x1FFFFFF = .ok (.refuseNotDecoded 1 0xFFFF 0xFF) := by
  decide
theorem witness_TransactionWordLayout : s0.cfg.wf = true ∧ ∃ k, 25 ≤ k ∧ Nat.testBit 0x2000000 k = true := ⟨by decide, 25, by decide⟩
theorem witness_StepRunsDecodedInstruction :
    s0.cfg.wf = true ∧ (s0.present 0x100A083).pending = .word 0x100A083 :: [] ∧
    decodeInput (s0.present 0x100A083).decodeCtx (.word 0x100A083) = .ok (.wMode 0x83) ∧
    decode s0.decodeCtx 0x000F300 = .ok (.rFall 0x00F3) := by decide
theorem witness_StepWithNothingPending : s0.cfg.wf = true ∧ s0.pending = [] := by decide
theorem witness_StepRefusesUnadmittedConfiguration :
    State.cfg { s0 with cfg := cfgBad } = cfgBad ∧ cfgBad.wf = false ∧ Config.wf { cfg0 with cartRamSize := 0x18 } = false ∧
    Config.wf { cfg0 with romSize := 0x4000 } = false := by decide
theorem witness_StepRefusesReadWordWithData :
    s0.cfg.wf = true ∧ (0x01 : Byte) ≠ 0 ∧ Decoded 0x7FFF ∧ Decoded 0xA000 ∧ Decoded 0xBFFF ∧
    step (s0.present 0x07FFF01) = .refused .notATransaction :=
  ⟨by decide, by decide, by unfold Decoded; decide, by unfold Decoded; decide, by unfold Decoded; decide, rfl⟩
theorem witness_StepKeepsInvariant : ∃ s t, s.Inv ∧ step s = .next t :=
  ⟨s0, s0, s0_inv, by simp [step, fetch, s0, State.reset, show cfg0.wf = true by decide]⟩
theorem witness_EveryStepHasANextState : s0.Inv ∧ (s0.present 0x0000001).Inv ∧ step (s0.present 0x0000001) = .refused .notATransaction :=
  ⟨s0_inv, ⟨s0_inv.admitted, s0_inv.current, s0_inv.storage, s0_inv.marks⟩, rfl⟩

/-- The hypotheses of MarksStayAndLogGrows and RomAndConfigurationAreFixed: a step that is not INIT and has a next state. -/
theorem witness_MarksStayAndLogGrows :
    isInit (.wEsptx 0) = false ∧ ∃ t, exec (.wEsptx 0) { s0 with faults := [.refused .notDecoded] } = .next t ∧ t.log ≠ [] :=
  ⟨rfl, _, rfl, by decide⟩
theorem witness_RomAndConfigurationAreFixed : isInit (.restore (image 4)) = false ∧ ∃ t, exec (.restore (image 4)) s0 = .next t :=
  ⟨rfl, _, rfl⟩
theorem witness_OnlyModeWriteChangesCompat :
    ∃ t, exec (.wMode 0x08) s0 = .next t ∧ t.regs.mbc5CompatibilityMode ≠ s0.regs.mbc5CompatibilityMode := ⟨_, rfl, by decide⟩
theorem witness_OnlyBootWriteChangesBootMode :
    ∃ t, exec (.wBoot 0x01) s0 = .next t ∧ t.regs.bootRomMode ≠ s0.regs.bootRomMode := ⟨_, rfl, by decide⟩
theorem witness_RamEnableChangesInCompatOnly :
    ∃ t, step (sCompat.present 0x11FFF0A) = .next t ∧ t.regs.ramEnabled ≠ sCompat.regs.ramEnabled := ⟨_, rfl, by decide⟩
theorem witness_RamBankHighBitsHaveNoWriter :
    loadsState (.wRammid 0 0xFF) = false ∧ ∃ t, exec (.wRammid 0 0xFF) (st fun r => r.setRamBank 0 0x3FFFF) = .next t :=
  ⟨rfl, _, rfl⟩
theorem witness_MessageSentStaysSet :
    loadsState (.wEsptx 0) = false ∧ s0.regs.espMessageSent = true ∧ ∃ t, exec (.wEsptx 0) (st fun r => { r with espEnable := true }) = .next t :=
  ⟨rfl, rfl, _, rfl⟩
theorem witness_ReadsKeepTheMapping :
    isRead .rEsptx = true ∧ Instr.rEsptx ≠ .rFpgadata ∧ Instr.rEsptx ≠ .rEsprx ∧ ∃ t, exec .rEsptx s0 = .next t :=
  ⟨rfl, by decide, by decide, _, rfl⟩
theorem witness_WriteStepFollowsDispatch : s0.cfg.wf = true ∧ sCompat.cfg.wf = true := by decide
theorem witness_ReadStepFollowsDispatch : s0.cfg.wf = true ∧ sCompat.cfg.wf = true := by decide
theorem witness_CompatCoFiring :
    sCompat.cfg.wf = true ∧ sCompat.regs.mbc5CompatibilityMode = true ∧ (0x1FFF : Addr).toNat ≤ 0x1FFF ∧ (0x0070 : Addr).toNat ≤ 0x1FFF := by
  decide
theorem witness_RefusalsAreRecorded :
    s0.cfg.wf = true ∧ ¬ Decoded 0x8000 ∧ ¬ Decoded 0x9FFF ∧ ¬ Decoded 0xC000 ∧ ¬ Decoded 0xFFFF ∧ 2 ^ 25 ≤ 0x2000000 ∧
    cfgBad.wf = false ∧ Config.wf { cfg0 with resetState := image 8 } = true ∧ (image 8).fits = false ∧
    isInit .recompute = false := by unfold Decoded; decide

/-- RC16 at every mode and the compat layout: the boundaries of the two areas are inside, the addresses next to them outside. -/
theorem witness_LayoutTilesBothAreas :
    (∀ m ∈ [0, 1, 2, 3, 4, 5, 6, 7], ∀ n ∈ [0x0000, 0x0FFF, 0x1000, 0x1FFF, 0x2000, 0x3FFF, 0x4000, 0x5FFF, 0x6000, 0x7FFF, 0xA000, 0xBFFF],
      coverCount (layout cfg0 { Regs.reset with romMode := m } true) n = 1) ∧
    (∀ n ∈ [0x8000, 0x9FFF, 0xC000], coverCount (layout cfg0 Regs.reset true) n = 0) ∧
    compatLayout sCompat.regs = true ∧ compatLayout s0.regs = false ∧
    (∀ n ∈ [0xAFFF, 0xB000], coverCount (layout cfg0 { Regs.reset with ramMode := true } true) n = 1) := by decide

/-- Each window size with the RAM just as large, and half as large. -/
theorem witness_CartRamTargetWrapsInside :
    cfgSmall.wf = true ∧ cfgSmall.cartRamSize < 0x2000 ∧ 0x1000 ≤ cfgSmall.cartRamSize ∧ ramTarget cfgSmall 0xFFFF 0x1000 = .cram 0 ∧
    ramTarget cfgSmall 0xFFFF 0x2000 = .undef .ramMaskUndefined ∧ ramTarget cfg0 5 0x2000 = .cram 0x2000 ∧
    ramTarget cfg0 9 0x8000 = .cram 0 ∧ ramTarget cfg0 3 0x4000 = .cram 0x4000 ∧ ramTarget cfg0 0xFFFF 0x1000 = .cram 0x7000 := by decide
theorem witness_CartRamTargetWrapsInside_access :
    ∃ w, (State.winOf (State.remap { s0.withRegs (fun r => r.setRomBank 0 0x10000) with cfg := cfgSmall }) 0x7FFF) = some w ∧
      w.target = ramTarget cfgSmall 0 0x8000 ∧ cfgSmall.cartRamSize < 0x8000 := ⟨_, rfl, rfl, by decide⟩
theorem witness_CompatLayoutIsForced : sCompat.regs.mbc5CompatibilityMode = true ∧ Regs.bootRomMode { Regs.reset with bootRomMode := true } = true := by
  decide

/-- Mode 4's last window, and the reserved mode 7. -/
theorem witness_ExtendedRomWindows :
    Regs.reset.bootRomMode = false ∧ Regs.reset.mbc5CompatibilityMode = false ∧
    (⟨0x7000, 0x7FFF, .rom 0⟩ : Win) ∈ (layout cfg0 { Regs.reset with romMode := 4 } true).win ∧
    (⟨0x0000, 0x7FFF, .undef .romModeReserved⟩ : Win) ∈ (layout cfg0 { Regs.reset with romMode := 7 } true).win := by decide

/-- RAM mode 1 with every kind in both slots (RC10, RC12). -/
theorem witness_ExtendedRamWindows :
    (⟨0xB000, 0xBFFF, .cram 0x9000⟩ : Win) ∈ (layout cfg0 ({ Regs.reset with ramMode := true }.setRamBank 1 0x30003) true).win ∧
    (⟨0xA000, 0xAFFF, .cram 0x7000⟩ : Win) ∈ (layout cfg0 ({ Regs.reset with ramMode := true }.setRamBank 0 0x103FF) true).win ∧
    (⟨0xA000, 0xBFFF, .cram 0x8000⟩ : Win) ∈ (layout cfg0 (Regs.reset.setRamBank 0 0x2FFFF) true).win ∧
    (⟨0xA000, 0xBFFF, .rom 0x6000⟩ : Win) ∈ (layout cfg0 (Regs.reset.setRamBank 0 3) true).win := by decide
theorem witness_RomAreaNeverShowsFpgaRam :
    ∃ w o, w ∈ (layout cfg0 ({ Regs.reset with romMode := 4 }.setRomBank 7 0x1000F) true).win ∧ w.stop ≤ 0x7FFF ∧ w.target = .cram o :=
  ⟨⟨0x7000, 0x7FFF, .cram 0x7000⟩, 0x7000, by decide, by decide, rfl⟩

/-- RC19: the registers differ where the mode does not look. -/
theorem witness_UnconsultedRegistersDoNotMatter :
    let r := Regs.reset
    let q := r.setRomBank 1 0x1FFFF
    r ≠ q ∧ compatLayout r = false ∧ compatLayout q = false ∧ r.romMode = q.romMode ∧ r.ramMode = q.ramMode ∧
    (∀ k ∈ consultedSlots r.romMode, r.romBank k = q.romBank k) ∧ r.ramBank 0 = q.ramBank 0 ∧
    compatLayout { r with bootRomMode := true } = true ∧ compatLayout { q with mbc5CompatibilityMode := true } = true := by decide
theorem witness_ReservedRomModeFaultsOnAccess :
    (st fun r => { r with romMode := 5 }).mappingCurrent ∧ (st fun r => { r with romMode := 7 }).mappingCurrent ∧
    5 ≤ ((5 : BitVec 3)).toNat ∧ (0x7FFF : Addr).toNat ≤ 0x7FFF := ⟨rfl, rfl, by decide, by decide⟩
theorem witness_RecomputeIsIdempotent : State.mappingCurrent { s0 with hostBootRomDisabled := false } := rfl
theorem witness_BootModeOverridesAndReverts :
    (0x01 : Byte).getLsbD 0 = true ∧ (0xFE : Byte).getLsbD 0 = false ∧ s0.regs.mbc5CompatibilityMode = false := by decide

/-- The four targets at the edges of their windows: ROM, the last byte of the allocation, unmapped, undefined. -/
theorem witness_MappedReadResult :
    s0.winOf 0x7FFF = some ⟨0x0000, 0x7FFF, .rom 0⟩ ∧
    (st fun r => r.setRamBank 0 0x20000).winOf 0xBFFF = some ⟨0xA000, 0xBFFF, .cram 0x8000⟩ ∧ 0x8000 + 0x1FFF < cfg0.cartRamSize + 0x2000 ∧
    sCompat.winOf 0xA000 = some ⟨0xA000, 0xBFFF, .unmapped⟩ ∧
    (st fun r => { r with romMode := 6 }).winOf 0x0000 = some ⟨0x0000, 0x7FFF, .undef .romModeReserved⟩ := by decide
theorem witness_MappedReadResult_current : (st fun r => r.setRamBank 0 0x20000).mappingCurrent := rfl
theorem witness_MappedWriteResult :
    Memory.wf s0.cram ∧ s0.winOf 0xA000 = some ⟨0xA000, 0xBFFF, .rom 0⟩ ∧ sCompat.winOf 0xBFFF = some ⟨0xA000, 0xBFFF, .unmapped⟩ ∧
    (st fun r => r.setRamBank 0 0x20000).winOf 0xBFFF = some ⟨0xA000, 0xBFFF, .cram 0x8000⟩ ∧
    (st fun r => { r with romMode := 5 }).winOf 0x7FFF = some ⟨0x0000, 0x7FFF, .undef .romModeReserved⟩ := by decide
theorem witness_FallThroughWriteResult :
    ((0x0100 : Addr).toNat ≤ 0x5FFF ∧ (0x5FFF : Addr).isExtended = false ∧ ext.compat = false ∧ compat.compat = true) ∧
    Memory.wf s0.cram ∧ s0.winOf 0x5FFF = some ⟨0x0000, 0x7FFF, .rom 0⟩ ∧
    (st fun r => r.setRomBank 0 0x10000).winOf 0x5FFF = some ⟨0x0000, 0x7FFF, .cram 0⟩ ∧
    (st fun r => { r with romMode := 5 }).winOf 0x0050 = some ⟨0x0000, 0x7FFF, .undef .romModeReserved⟩ ∧
    State.winOf { s0 with mapping := ⟨[⟨0, 0x7FFF, .unmapped⟩], true, false⟩ } 0 = some ⟨0, 0x7FFF, .unmapped⟩ := by decide
theorem witness_MappedAccessesComplete : s0.mappingCurrent ∧ Decoded 0x0000 ∧ Decoded 0x7FFF ∧ Decoded 0xA000 ∧ Decoded 0xBFFF :=
  ⟨rfl, by unfold Decoded; decide⟩

/-- RC10: both halves of the RAM area show the same FPGA half. -/
theorem witness_StoredByteIsReadThroughEveryWindow :
    let s := st fun r => ({ r with ramMode := true }.setRamBank 0 0x20001).setRamBank 1 0x30003
    Memory.wf s.cram ∧ s.winOf 0xAFFF = some ⟨0xA000, 0xAFFF, .cram 0x9000⟩ ∧ s.winOf 0xBFFF = some ⟨0xB000, 0xBFFF, .cram 0x9000⟩ ∧
    0x9000 + (0xAFFF - 0xA000) = 0x9000 + (0xBFFF - 0xB000) ∧ 0x9FFF < s.cfg.cartRamSize + 0x2000 := by decide
theorem witness_LegacyWrites :
    compat.compat = true ∧ (0x1FFF : Addr).toNat ≤ 0x1FFF ∧ (0x1FFF : Addr).isExtended = false ∧
    (0x2000 ≤ (0x2000 : Addr).toNat ∧ (0x2FFF : Addr).toNat ≤ 0x2FFF) ∧ (0x3000 ≤ (0x3000 : Addr).toNat ∧ (0x3FFF : Addr).toNat ≤ 0x3FFF) ∧
    (0x4000 ≤ (0x4000 : Addr).toNat ∧ (0x5FFF : Addr).toNat ≤ 0x5FFF) := by decide
/-- Both cases of the two bank-field statements. -/
theorem witness_BankFieldWrites : s0.regs.mbc5CompatibilityMode = false ∧ sCompat.regs.mbc5CompatibilityMode = true := by decide
theorem witness_BankWritesIgnoredInCompat :
    sCompat.regs.mbc5CompatibilityMode = true ∧
    Instr.wRamlo 1 0x0A ∈ [Instr.wRomkind 7 0x0A, .wRommid 7 0x0A, .wRomlo 7 0x0A, .wRamkind 1 0x0A, .wRammid 1 0x0A, .wRamlo 1 0x0A] := by
  decide
theorem witness_FpgaDataWriteStoresThenAdvances : Memory.wf s0.cram := s0_inv.storage.2.2.1

/-- The longest series, from the last FPGA byte and the last cursor value. -/
theorem witness_SequentialWritesReadBack :
    let s := st fun r => { r with fpgaRamAutoRwAddress := 0xFFFF, fpgaRamAutoRwIncrement := 1 }
    Memory.wf s.cram ∧ s.regs.fpgaRamAutoRwIncrement = 1 ∧ (List.replicate 0x2000 (0xA5 : Byte)).length ≤ 0x2000 :=
  ⟨s0_inv.storage.2.2.1, rfl, Nat.le_of_eq List.length_replicate⟩
theorem witness_AcknowledgeClearsOrWarns : (st fun r => { r with espEnable := true }).regs.espEnable = true ∧ s0.regs.espEnable = false := by
  decide
theorem witness_TransmitPushesLengthAndPayload : (st fun r => { r with espEnable := true }).regs.espEnable = true ∧ s0.regs.espEnable = false := by
  decide

/-- Each way a poll does nothing, and the one in which it copies. -/
theorem witness_PollCopiesOneMessage :
    let s := { st (fun r => { r with espEnable := true, espRxAddress := 7 }) with peer := ⟨true, [0xFF, 0x4F]⟩ }
    Memory.wf s.cram ∧ s.regs.espEnable = true ∧ s.regs.espHasReceivedMessage = false ∧ s.peer.ready = true ∧ s.peer.queue = 0xFF :: [0x4F] ∧
    s0.regs.espEnable = false ∧ s0.peer.ready = false ∧ s0.peer.queue = [] ∧
    (st fun r => { r with espHasReceivedMessage := true }).regs.espHasReceivedMessage = true := by decide
theorem witness_VersionRead : s0.cfg.wf = true ∧ s0.mapping.regReadLow = true := by decide

/-- A step out of each named state: idle, pending, latched. -/
theorem witness_BridgeStateTransitions :
    (∃ t, exec (.peer true [1]) (st fun r => { r with espEnable := true }) = .next t ∧ linkState t = .inboundPending) ∧
    (∃ t, exec .rEsprx { st (fun r => { r with espEnable := true }) with peer := ⟨true, [0]⟩ } = .next t ∧ linkState t = .inboundLatched) ∧
    (∃ t, exec (.wEspack 0) (st fun r => { r with espEnable := true, espHasReceivedMessage := true }) = .next t ∧ linkState t = .idle) :=
  ⟨⟨_, rfl, by decide⟩, ⟨_, rfl, by decide⟩, ⟨_, rfl, by decide⟩⟩
theorem witness_InitLaunches :
    cfg0.wf = true ∧ cfg0.resetState.fits = true ∧ cfgBad.wf = false ∧ Config.wf { cfg0 with resetState := image 8 } = true ∧
    Image.fits (Config.resetState { cfg0 with resetState := image 8 }) = false := by decide
theorem witness_SaveThenRestore : (image 7).fits = true ∧ (image 8).fits = false := by decide

end Sys2Proof.Tests
end

section
/-! PROOFS. What 00_scope says of the step as a whole: which configurations are admitted (R8), and what a step does on an
admitted one with a step waiting and with none (R5, R6). -/

namespace Sys2Proof

/-- The model's bit test for a power of two (00_scope R8) says what it is named for. -/
theorem Config.isPowerOfTwo_iff (n : Nat) : Config.isPowerOfTwo n = true ↔ ∃ k, n = 2 ^ k := by
  simp only [Config.isPowerOfTwo, Bool.and_eq_true, bne_iff_ne, beq_iff_eq]
  exact Nat.ne_zero_and_sub_one_eq_zero_iff_isPowerOfTwo

/-- `Config.wf` as rule R8 words it. -/
theorem Config.wf_iff (c : Config) :
    c.wf = true ↔
      (∃ k, c.romSize = 2 ^ k) ∧ 0x8000 ≤ c.romSize ∧ (c.cartRamSize = 0 ∨ ∃ k, c.cartRamSize = 2 ^ k) := by
  simp only [Config.wf, Bool.and_eq_true, Bool.or_eq_true, beq_iff_eq, decide_eq_true_eq, Config.isPowerOfTwo_iff,
    and_assoc]

namespace Machine

/-- On a configuration that is not admitted no step is defined (00_scope R8). -/
theorem step_of_unadmitted (s : State) (hc : s.cfg.wf = false) : step s = .refused .illFormedConfig := by
  simp [step, hc]

theorem fetch_of_pending_nil (s : State) (hp : s.pending = []) : fetch s = none := by
  simp [fetch, hp]

theorem fetch_of_pending_cons (s : State) (x : Input) (xs : List Input) (hp : s.pending = x :: xs) :
    fetch s = some (x, { s with pending := xs }) := by
  simp [fetch, hp]

/-- Decoding reads the mode, and taking a step off the list leaves the mode as it was (30 R90). -/
@[simp] theorem State.decodeCtx_setPending (s : State) (xs : List Input) :
    State.decodeCtx { s with pending := xs } = s.decodeCtx := rfl

/-- The block never steps on its own (00_scope R6; log entry 2). -/
theorem step_of_pending_nil (s : State) (hc : s.cfg.wf = true) (hp : s.pending = []) : step s = .next s := by
  simp [step, hc, fetch_of_pending_nil s hp]

/-- The step on a waiting input is the decoded instruction on the state without that input (00_scope R5). -/
theorem step_of_pending_cons (s : State) (x : Input) (xs : List Input) (i : Instr) (hc : s.cfg.wf = true)
    (hp : s.pending = x :: xs) (hd : decodeInput s.decodeCtx x = .ok i) : step s = exec i { s with pending := xs } := by
  simp [step, hc, fetch_of_pending_cons s x xs hp, hd]

end Machine

namespace ScopeProofs

open Sys2Proof.Machine

/-- Settles O7: the bit test of `Config.wf` is rule R8, and `step` asks it before anything else. -/
theorem stepRefusesUnadmittedConfiguration : Obligations.StepRefusesUnadmittedConfiguration :=
  ⟨Config.wf_iff, step_of_unadmitted⟩

/-- Settles O5: `step` on a waiting input, and `step_present` for a word that `withFetchWord` places. -/
theorem stepRunsDecodedInstruction : Obligations.StepRunsDecodedInstruction :=
  ⟨step_of_pending_cons, fun s _ w i hc hd => step_present s w i hc hd⟩

/-- Settles O6: with nothing to fetch, `step` answers the state it was given. -/
theorem stepWithNothingPending : Obligations.StepWithNothingPending :=
  step_of_pending_nil

end ScopeProofs

end Sys2Proof
end

section
/-! PROOFS. 10_state, the layer below the whole-machine statements: what a step that answers a next state answered (per
operation), what every instruction but INIT leaves of the launch, and what becomes of M. -/

namespace Sys2Proof.Machine

open Sys2Proof Sys2Proof.Claims

/-! ### The operations that can refuse, fault or stop, inverted -/

/-- A mapped read that completes returns a byte or records a fault (20 R57). -/
theorem mappedRead_next {a : Addr} {s t : State} (h : mappedRead a s = .next t) :
    (∃ b, t = s.ret b) ∨ ∃ r, t = s.raiseFault r (.read a) := by
  rcases mappedRead_cases a s with ⟨b, e⟩ | ⟨r, e⟩ | ⟨e, -⟩ | ⟨e, -⟩ <;> rw [e] at h <;> cases h
  · exact .inl ⟨b, rfl⟩
  · exact .inr ⟨r, rfl⟩

/-- A mapped write that completes is dropped, stores inside the allocation or records a fault (20 R58). -/
theorem mappedWrite_next {a : Addr} {d : Byte} {s t : State} (h : mappedWrite a d s = .next t) :
    t = s.silent ∨ (∃ o, o < s.cfg.cramSize ∧ t = (s.cramSet o d).silent) ∨ ∃ r, t = s.raiseFault r (.write a d) := by
  rcases mappedWrite_cases a d s with e | ⟨o, ho, e⟩ | ⟨r, e⟩ | ⟨e, -⟩ | ⟨e, -⟩ <;> rw [e] at h <;> cases h
  · exact .inl rfl
  · exact .inr (.inl ⟨o, ho, rfl⟩)
  · exact .inr (.inr ⟨r, rfl⟩)

/-- A fall-through write that completes is a mapped write, then the engine (41 R136). -/
theorem execWFall_next {a : Addr} {d : Byte} {s t : State} (h : execWFall a d s = .next t) :
    ∃ u, mappedWrite a d s = .next u ∧ t = u.remap := by
  unfold execWFall at h
  split at h <;> cases h
  exact ⟨_, ‹_›, rfl⟩

/-- INIT records a refusal, or launches an admitted configuration whose RESET_STATE fits (70 R290). -/
theorem execInit_next {c : Config} {s t : State} (h : execInit c s = .next t) :
    ((c.wf && c.resetState.fits) = false ∧ ∃ r, t = s.refuse r) ∨
    ((c.wf && c.resetState.fits) = true ∧ t = launch c s) := by
  unfold execInit at h
  split at h
  · cases h; exact .inl ⟨by simp_all, _, rfl⟩
  · split at h <;> cases h
    · exact .inl ⟨by simp_all, _, rfl⟩
    · exact .inr ⟨by simp_all, rfl⟩

/-- RESTORE records a refusal, or takes a tuple that fits and runs the engine (45 R233). -/
theorem execRestore_next {m : Image} {s t : State} (h : execRestore m s = .next t) :
    (m.fits = false ∧ t = s.refuse .illFormedState) ∨
    (m.fits = true ∧ t = State.remap { s with regs := Regs.ofImage m, answer := .nothing }) := by
  unfold execRestore at h
  split at h <;> cases h
  · exact .inr ⟨‹_›, rfl⟩
  · exact .inl ⟨by simp_all, rfl⟩

/-! ### What a step leaves of its launch -/

/-- The cartridge-RAM allocation is in canonical form and inside its size (10_state R37). -/
def State.cramFits (s : State) : Prop := Memory.wf s.cram ∧ ∀ c ∈ s.cram, c.1 < s.cfg.cramSize

/-- What every step but a launch keeps: the configuration and ROM (10_state R37, R45), the form of the allocation, the entries
of Log in order and the records of Fault (10_state R47), and that Fault is a set (60 R261). -/
structure LaunchFrame (s t : State) : Prop where
  cfg : t.cfg = s.cfg
  rom : t.rom = s.rom
  cram : s.cramFits → t.cramFits
  log : s.log <+: t.log
  marks : s.faults ⊆ t.faults
  nodup : s.faults.Nodup → t.faults.Nodup

namespace LaunchFrame

/-- An operation that stores nothing, records nothing and at most logs. -/
theorem of_eq {s t : State} (hcfg : t.cfg = s.cfg) (hrom : t.rom = s.rom) (hcram : t.cram = s.cram)
    (hfaults : t.faults = s.faults) (hlog : s.log <+: t.log) : LaunchFrame s t where
  cfg := hcfg
  rom := hrom
  cram := by simp only [State.cramFits, hcram, hcfg, imp_self]
  log := hlog
  marks := by rw [hfaults]; exact List.Subset.refl _
  nodup := by rw [hfaults]; exact id

theorem refl (s : State) : LaunchFrame s s := of_eq rfl rfl rfl rfl List.prefix_rfl

theorem trans {s t u : State} (h : LaunchFrame s t) (k : LaunchFrame t u) : LaunchFrame s u where
  cfg := k.cfg.trans h.cfg
  rom := k.rom.trans h.rom
  cram := k.cram ∘ h.cram
  log := h.log.trans k.log
  marks := List.Subset.trans h.marks k.marks
  nodup := k.nodup ∘ h.nodup

theorem withRegs (s : State) (f : Regs → Regs) : LaunchFrame s (s.withRegs f) := of_eq rfl rfl rfl rfl List.prefix_rfl
theorem ret (s : State) (b : Byte) : LaunchFrame s (s.ret b) := of_eq rfl rfl rfl rfl List.prefix_rfl
theorem silent (s : State) : LaunchFrame s s.silent := of_eq rfl rfl rfl rfl List.prefix_rfl
theorem remap (s : State) : LaunchFrame s s.remap := of_eq rfl rfl rfl rfl List.prefix_rfl
theorem warn (s : State) (w : Warning) : LaunchFrame s (s.warn w) := of_eq rfl rfl rfl rfl (List.prefix_append _ _)
theorem push (s : State) (b : Byte) : LaunchFrame s (s.push b) := of_eq rfl rfl rfl rfl (List.prefix_append _ _)

/-- Recording a fault or a refusal touches Fault only (60 R261, R262). -/
theorem mark (s : State) (x : FaultRecord) : LaunchFrame s (s.mark x) where
  cfg := rfl
  rom := rfl
  cram := id
  log := List.prefix_rfl
  marks := subset_insertRecord x s.faults
  nodup := insertRecord_nodup x s.faults

theorem cramSet (s : State) (o : Nat) (d : Byte) (ho : o < s.cfg.cramSize) : LaunchFrame s (s.cramSet o d) where
  cfg := rfl
  rom := rfl
  cram := fun ⟨hwf, hb⟩ => ⟨Memory.write_wf _ hwf o d, Memory.write_bound _ _ o d hb ho⟩
  log := List.prefix_rfl
  marks := List.Subset.refl _
  nodup := id

theorem fpgaWrite (s : State) (i : Nat) (d : Byte) (hi : i < 0x2000) : LaunchFrame s (s.fpgaWrite i d) :=
  cramSet s _ d (Nat.add_lt_add_left hi _)

theorem unlessCompat (f : Regs → Regs) (s : State) : LaunchFrame s (unlessCompat f s) := by
  unfold Machine.unlessCompat
  split
  · exact refl s
  · exact withRegs s f

theorem endWrite (s : State) : LaunchFrame s (endWrite s) := (silent s).trans (remap _)

theorem coFire (a : Addr) (d : Byte) (s : State) : LaunchFrame s (coFire a d s) := by
  unfold Machine.coFire
  split
  · rcases legacyWrite_eq a d s with e | e | e | e <;> rw [e] <;> exact withRegs s _
  · exact refl s

/-- A register write keeps what its own rule keeps. -/
theorem registerWrite (a : Addr) (d : Byte) {rule : State → State} (hr : ∀ u, LaunchFrame u (rule u)) (s : State) :
    LaunchFrame s (registerWrite a d rule s) :=
  (coFire a d s).trans ((hr _).trans (endWrite _))

theorem pushMany (n at_ : Nat) (s : State) : LaunchFrame s (pushMany n at_ s) := by
  rw [pushMany_eq]
  exact of_eq rfl rfl rfl rfl (List.prefix_append _ _)

theorem transmit (s : State) : LaunchFrame s (transmit s) := by
  unfold Machine.transmit setSent
  exact (withRegs s _).trans ((push _ _).trans ((pushMany _ _ _).trans (withRegs _ _)))

theorem pullTo (at_ : Nat) (s : State) (h : at_ < 0x2000) : LaunchFrame s (pullTo at_ s) :=
  (fpgaWrite s at_ _ h).trans (of_eq rfl rfl rfl rfl List.prefix_rfl)

theorem pullMany (n at_ : Nat) (s : State) (h : at_ + n ≤ 0x2000) : LaunchFrame s (pullMany n at_ s) := by
  induction n generalizing at_ s with
  | zero => exact refl s
  | succ n ih => exact (pullTo at_ s (by omega)).trans (ih (at_ + 1) _ (by omega))

/-- A message with its length byte fills at most the inbound slot, which ends inside FPGA RAM (44 R191, R192). -/
theorem poll (s : State) : LaunchFrame s (poll s) := by
  have hslot : rxBase s.regs ≤ 0x1F00 := by
    have := s.regs.espRxAddress.isLt
    simp only [rxBase, Config.mailboxBase, Config.mailboxSlotSize]
    omega
  unfold Machine.poll
  split
  · exact (pullTo _ s (by omega)).trans ((pullMany _ _ _ (by omega)).trans (withRegs _ _))
  · exact refl s

theorem mappedRead {a : Addr} {s t : State} (h : mappedRead a s = .next t) : LaunchFrame s t := by
  obtain ⟨b, rfl⟩ | ⟨r, rfl⟩ := mappedRead_next h
  · exact ret s b
  · exact mark s _

theorem mappedWrite {a : Addr} {d : Byte} {s t : State} (h : mappedWrite a d s = .next t) : LaunchFrame s t := by
  obtain rfl | ⟨o, ho, rfl⟩ | ⟨r, rfl⟩ := mappedWrite_next h
  · exact silent s
  · exact (cramSet s o d ho).trans (silent _)
  · exact mark s _

end LaunchFrame

/-- The cursor names a byte of FPGA RAM (43 R171). -/
theorem cursorIndex_lt (r : Regs) : cursorIndex r < 0x2000 := BitVec.isLt _

/-- Every instruction but INIT keeps what belongs to the launch. -/
theorem exec_launchFrame {i : Instr} {s t : State} (h : exec i s = .next t) (hi : isInit i = false) :
    LaunchFrame s t := by
  cases i with
  | mbc5Ramg _ _ | mbc5Romb0 _ _ | mbc5Romb1 _ _ | mbc5Ramb _ _ =>
    cases h; exact (LaunchFrame.withRegs s _).trans (.endWrite _)
  | wRomkind _ _ | wRamkind _ _ | wRommid _ _ | wRammid _ _ | wRomlo _ _ | wRamlo _ _ =>
    cases h; exact .registerWrite _ _ (fun u => .unlessCompat _ u) s
  | wMode _ | wBoot _ | wCurhi _ | wCurlo _ | wCurinc _ | wEspcfg _ | wEsprxaddr _ | wEsptxaddr _ =>
    cases h; exact .registerWrite _ _ (fun u => .withRegs u _) s
  | wFpgadata d =>
    cases h
    exact .registerWrite _ _ (fun u => (LaunchFrame.fpgaWrite u _ d (cursorIndex_lt _)).trans (.withRegs _ _)) s
  | wEspack d =>
    cases h
    refine .registerWrite _ _ (fun u => ?_) s
    split
    · exact .withRegs u _
    · exact .warn u _
  | wEsptx d =>
    cases h
    refine .registerWrite _ _ (fun u => ?_) s
    split
    · exact .transmit u
    · exact .warn u _
  | wFall a d =>
    obtain ⟨u, hu, rfl⟩ := execWFall_next h
    exact (LaunchFrame.mappedWrite hu).trans (.remap u)
  | wMem a d => exact .mappedWrite h
  | rFall a | rMem a => exact .mappedRead h
  | rFpgadata => cases h; exact (LaunchFrame.ret s _).trans (.withRegs _ _)
  | rEsprx => cases h; exact (LaunchFrame.poll s).trans (.ret _ _)
  | rVersion | rEspcfg | rEsptx => cases h; exact .ret s _
  | refuseNotDecoded _ _ _ | refuseIllFormedWord _ => cases h; exact .mark s _
  | init c => cases hi
  | restore m =>
    obtain ⟨-, rfl⟩ | ⟨-, rfl⟩ := execRestore_next h
    · exact .mark s _
    · exact .of_eq rfl rfl rfl rfl List.prefix_rfl
  | recompute | save | host _ | peer _ _ => cases h; exact .of_eq rfl rfl rfl rfl List.prefix_rfl

/-! ### What becomes of M -/

/-- The engine leaves a current mapping (40 R100). -/
theorem State.remap_mappingCurrent (s : State) : s.remap.mappingCurrent := by
  simp [State.mappingCurrent]

/-- A current mapping stays current where neither M nor what the layout reads of the state changes. -/
theorem State.mappingCurrent.of_eq {s t : State} (hs : s.mappingCurrent) (hm : t.mapping = s.mapping)
    (hl : ∀ b, layout t.cfg t.regs b = layout s.cfg s.regs b) : t.mappingCurrent := by
  rw [State.mappingCurrent, hm, hl]
  exact hs

/-- A poll changes S in `espHasReceivedMessage` only, and no M and no configuration (44 R192). -/
theorem poll_regs (s : State) :
    (poll s).mapping = s.mapping ∧ (poll s).cfg = s.cfg ∧
    (poll s).regs = { s.regs with espHasReceivedMessage :=
      s.regs.espHasReceivedMessage || (s.regs.espEnable && s.peer.dataReady) } := by
  unfold poll
  split
  · have hflag : (s.regs.espHasReceivedMessage || (s.regs.espEnable && s.peer.dataReady)) = true := by simp_all
    rw [hflag, pullMany_eq]
    exact ⟨rfl, rfl, rfl⟩
  · have hflag : (s.regs.espHasReceivedMessage || (s.regs.espEnable && s.peer.dataReady)) =
        s.regs.espHasReceivedMessage := by
      cases hr : s.regs.espHasReceivedMessage <;> simp_all
    rw [hflag]
    exact ⟨rfl, rfl, rfl⟩

/-- No instruction leaves a stale M: either the engine runs, or M and all that the layout consults stay (20 R66). -/
theorem exec_mappingCurrent {i : Instr} {s t : State} (h : exec i s = .next t) (hs : s.mappingCurrent) :
    t.mappingCurrent := by
  cases i with
  | wFall a d =>
    obtain ⟨u, -, rfl⟩ := execWFall_next h
    exact u.remap_mappingCurrent
  | wMem a d => obtain rfl | ⟨o, -, rfl⟩ | ⟨r, rfl⟩ := mappedWrite_next h <;> exact hs
  | rFall a | rMem a => obtain ⟨b, rfl⟩ | ⟨r, rfl⟩ := mappedRead_next h <;> exact hs
  | rFpgadata => cases h; exact hs.of_eq rfl fun _ => rfl
  | rEsprx =>
    cases h
    obtain ⟨hm, hc, hr⟩ := poll_regs s
    exact hs.of_eq hm fun b => by simp only [State.ret_cfg, State.ret_regs, hc, hr]; rfl
  | rVersion | rEspcfg | rEsptx | refuseNotDecoded _ _ _ | refuseIllFormedWord _ | save | host _ | peer _ _ =>
    cases h; exact hs
  | init c =>
    obtain ⟨-, r, rfl⟩ | ⟨-, rfl⟩ := execInit_next h
    · exact hs
    · exact State.remap_mappingCurrent _
  | restore m =>
    obtain ⟨-, rfl⟩ | ⟨-, rfl⟩ := execRestore_next h
    · exact hs
    · exact State.remap_mappingCurrent _
  | _ => cases h; exact State.remap_mappingCurrent _

end Sys2Proof.Machine
end

section
/-! PROOFS. 10_state, S after an instruction as a function of the state before it. -/

namespace Sys2Proof.Machine

open Sys2Proof Sys2Proof.Claims

/-- S where the legacy matcher has fired on a write to an extended register (42 R151, 70 R299): in compat mode only. -/
def Regs.latch (r : Regs) (d : Byte) : Regs :=
  { r with ramEnabled := if r.mbc5CompatibilityMode then d == 0x0A else r.ramEnabled }

/-- A ROM bank field written through `put`, ignored while compat mode is on (42 R155). -/
def Regs.putRomBank (r : Regs) (i : BitVec 3) (put : BitVec 17 → Byte → BitVec 17) (d : Byte) : Regs :=
  { r with romBanks := if r.mbc5CompatibilityMode then r.romBanks else (r.setRomBank i (put (r.romBank i) d)).romBanks }

/-- A RAM bank field written through `put`, ignored while compat mode is on (42 R155). -/
def Regs.putRamBank (r : Regs) (j : BitVec 1) (put : BitVec 18 → Byte → BitVec 18) (d : Byte) : Regs :=
  { r with ramBanks := if r.mbc5CompatibilityMode then r.ramBanks else (r.setRamBank j (put (r.ramBank j) d)).ramBanks }

/-- S after an instruction that answers a next state (`exec_regs`). -/
def regsAfter (s : State) : Instr → Regs
  | .mbc5Ramg _ d => { s.regs with ramEnabled := d == 0x0A }
  | .mbc5Romb0 _ d => s.regs.setRomBank 4 (putRomLow (s.regs.romBank 4) d)
  | .mbc5Romb1 _ d => s.regs.setRomBank 4 (putRomBit8 (s.regs.romBank 4) d)
  | .mbc5Ramb _ d => s.regs.setRamBank 0 (putRamLowNibble (s.regs.ramBank 0) d)
  | .wRomkind i d => (s.regs.latch d).putRomBank i putRomKind d
  | .wRommid i d => (s.regs.latch d).putRomBank i putRomMid d
  | .wRomlo i d => (s.regs.latch d).putRomBank i putRomLow d
  | .wRamkind j d => (s.regs.latch d).putRamBank j putRamKind d
  | .wRammid j d => (s.regs.latch d).putRamBank j putRamMid d
  | .wRamlo j d => (s.regs.latch d).putRamBank j putRamLow d
  | .wMode d => putMode (s.regs.latch d) d
  | .wBoot d => putBoot (s.regs.latch d) d
  | .wCurhi d => { s.regs.latch d with fpgaRamAutoRwAddress := putCursorHigh s.regs.fpgaRamAutoRwAddress d }
  | .wCurlo d => { s.regs.latch d with fpgaRamAutoRwAddress := putCursorLow s.regs.fpgaRamAutoRwAddress d }
  | .wCurinc d => { s.regs.latch d with fpgaRamAutoRwIncrement := d }
  | .wFpgadata d => { s.regs.latch d with
      fpgaRamAutoRwAddress := s.regs.fpgaRamAutoRwAddress + s.regs.fpgaRamAutoRwIncrement.setWidth 16 }
  | .wEspcfg d => putEspCfg (s.regs.latch d) d
  | .wEspack d => { s.regs.latch d with
      espHasReceivedMessage := !s.regs.espEnable && s.regs.espHasReceivedMessage }
  | .wEsptx d => { s.regs.latch d with espMessageSent := s.regs.espEnable || s.regs.espMessageSent }
  | .wEsprxaddr d => { s.regs.latch d with espRxAddress := d.extractLsb' 0 3 }
  | .wEsptxaddr d => { s.regs.latch d with espTxAddress := d.extractLsb' 0 3 }
  | .rFpgadata => { s.regs with
      fpgaRamAutoRwAddress := s.regs.fpgaRamAutoRwAddress + s.regs.fpgaRamAutoRwIncrement.setWidth 16 }
  | .rEsprx => { s.regs with espHasReceivedMessage :=
      s.regs.espHasReceivedMessage || (s.regs.espEnable && s.peer.dataReady) }
  | .init c => if c.wf && c.resetState.fits then Regs.ofImage c.resetState else s.regs
  | .restore m => if m.fits then Regs.ofImage m else s.regs
  | .wFall _ _ | .wMem _ _ | .rVersion | .rEspcfg | .rEsptx | .rFall _ | .rMem _ | .refuseNotDecoded _ _ _
  | .refuseIllFormedWord _ | .recompute | .save | .host _ | .peer _ _ => s.regs

/-- After a register write S is what the register's own rule makes of the latched S (41 R133). -/
theorem registerWrite_regs {a : Addr} (ha : a.toNat < 0x2000) (d : Byte) (rule : State → State) (s : State) :
    (registerWrite a d rule s).regs = (rule (s.withRegs (·.latch d))).regs := by
  rw [registerWrite_eq a d rule s ha]
  rfl

theorem unlessCompat_setRomBank_regs (i : BitVec 3) (put : BitVec 17 → Byte → BitVec 17) (d : Byte) (s : State) :
    (unlessCompat (fun r => r.setRomBank i (put (r.romBank i) d)) s).regs = s.regs.putRomBank i put d := by
  unfold unlessCompat Regs.putRomBank
  split <;> rfl

theorem unlessCompat_setRamBank_regs (j : BitVec 1) (put : BitVec 18 → Byte → BitVec 18) (d : Byte) (s : State) :
    (unlessCompat (fun r => r.setRamBank j (put (r.ramBank j) d)) s).regs = s.regs.putRamBank j put d := by
  unfold unlessCompat Regs.putRamBank
  split <;> rfl

/-- A transmission leaves S but for the flag, which it sets (44 R193). -/
theorem transmit_regs (s : State) : (transmit s).regs = { s.regs with espMessageSent := true } := by
  simp only [transmit, setSent, State.withRegs_regs, pushMany_eq, State.push_regs]

/-- The function says what `exec` does to S. -/
theorem exec_regs {i : Instr} {s t : State} (h : exec i s = .next t) : t.regs = regsAfter s i := by
  cases i with
  | wRomkind i d | wRommid i d | wRomlo i d =>
    cases h
    exact (registerWrite_regs (romSlotAddr_low _ i (by decide)) d _ s).trans (unlessCompat_setRomBank_regs i _ d _)
  | wRamkind j d | wRammid j d | wRamlo j d =>
    cases h
    exact (registerWrite_regs (ramSlotAddr_low _ j (by decide)) d _ s).trans (unlessCompat_setRamBank_regs j _ d _)
  | wMode d | wBoot d | wCurhi d | wCurlo d | wCurinc d | wFpgadata d | wEspcfg d | wEsprxaddr d | wEsptxaddr d =>
    cases h
    exact registerWrite_regs (by decide) d _ s
  | wEspack d =>
    cases h
    rw [registerWrite_regs (by decide)]
    cases he : s.regs.espEnable <;> simp [regsAfter, Regs.latch, he]
  | wEsptx d =>
    cases h
    rw [registerWrite_regs (by decide)]
    cases he : s.regs.espEnable <;> simp [regsAfter, Regs.latch, he, transmit_regs]
  | wFall a d =>
    obtain ⟨u, hu, rfl⟩ := execWFall_next h
    obtain rfl | ⟨o, -, rfl⟩ | ⟨r, rfl⟩ := mappedWrite_next hu <;> rfl
  | wMem a d => obtain rfl | ⟨o, -, rfl⟩ | ⟨r, rfl⟩ := mappedWrite_next h <;> rfl
  | rFall a | rMem a => obtain ⟨b, rfl⟩ | ⟨r, rfl⟩ := mappedRead_next h <;> rfl
  | rEsprx => cases h; exact (poll_regs s).2.2
  | init c =>
    obtain ⟨hc, r, rfl⟩ | ⟨hc, rfl⟩ := execInit_next h
    · exact (if_neg (by simp [hc])).symm
    · exact (if_pos hc).symm
  | restore m =>
    obtain ⟨hm, rfl⟩ | ⟨hm, rfl⟩ := execRestore_next h
    · exact (if_neg (by simp [hm])).symm
    · exact (if_pos hm).symm
  | _ => cases h; rfl

end Sys2Proof.Machine
end

section
/-! PROOFS. 10_state, the whole-machine statements: the invariant, what only grows, what has no other writer, and reset. -/

namespace Sys2Proof.Machine

open Sys2Proof Sys2Proof.Claims

/-! ### The invariant -/

/-- A step that keeps the launch and ends with a current mapping keeps the invariant. -/
theorem State.Inv.of_launchFrame {s t : State} (hs : s.Inv) (hf : LaunchFrame s t) (hm : t.mappingCurrent) : t.Inv := by
  obtain ⟨hwf, -, ⟨hrom, hromSize, hcram⟩, hnodup⟩ := hs
  refine ⟨hf.cfg ▸ hwf, hm, ⟨hf.rom ▸ hrom, ?_, hf.cram hcram⟩, hf.nodup hnodup⟩
  rw [hf.rom, hf.cfg]
  exact hromSize

/-- A launch with an admitted configuration meets the invariant, whatever the state before it (70 R290). -/
theorem launch_inv {c : Config} (hc : c.wf = true) (s : State) : (launch c s).Inv where
  admitted := hc
  current := State.remap_mappingCurrent _
  storage :=
    have ⟨hrom, hromSize⟩ := Memory.ofCells_wf c.romInit c.romSize
    ⟨hrom, hromSize, Memory.ofCells_wf c.cramInit c.cramSize⟩
  marks := List.nodup_nil

/-- Every instruction keeps the invariant. -/
theorem exec_inv {i : Instr} {s t : State} (h : exec i s = .next t) (hs : s.Inv) : t.Inv := by
  cases hi : isInit i with
  | false => exact hs.of_launchFrame (exec_launchFrame h hi) (exec_mappingCurrent h hs.current)
  | true =>
    cases i with
    | init c =>
      obtain ⟨-, r, rfl⟩ | ⟨hc, rfl⟩ := execInit_next h
      · exact hs.of_launchFrame (.mark s _) hs.current
      · exact launch_inv (Bool.and_eq_true_iff.1 hc).1 s
    | _ => cases hi

/-- Taking a step off the list of those waiting keeps the invariant, which does not speak of the list. -/
theorem State.Inv.setPending {s : State} (hs : s.Inv) (xs : List Input) : State.Inv { s with pending := xs } :=
  ⟨hs.admitted, hs.current, hs.storage, hs.marks⟩

/-! ### Fields with one writer -/

/-- W.MODE alone writes compat mode, but for INIT and RESTORE (10_state R22). -/
theorem regsAfter_compat {i : Instr} (s : State) (hl : loadsState i = false) (hm : ∀ d, i ≠ .wMode d) :
    (regsAfter s i).mbc5CompatibilityMode = s.regs.mbc5CompatibilityMode := by
  cases i with
  | wMode d => exact absurd rfl (hm d)
  | init _ | restore _ => cases hl
  | _ => rfl

/-- W.BOOT alone writes boot ROM mode, but for INIT and RESTORE (10_state R21). -/
theorem regsAfter_bootRomMode {i : Instr} (s : State) (hl : loadsState i = false) (hb : ∀ d, i ≠ .wBoot d) :
    (regsAfter s i).bootRomMode = s.regs.bootRomMode := by
  cases i with
  | wBoot d => exact absurd rfl (hb d)
  | init _ | restore _ => cases hl
  | _ => rfl

/-- W.ESPTX alone writes `espMessageSent`, and leaves it 1 when it was 1 (10_state R33, 44 R193). -/
theorem regsAfter_espMessageSent {i : Instr} (s : State) (hl : loadsState i = false)
    (hs : s.regs.espMessageSent = true) : (regsAfter s i).espMessageSent = true := by
  cases i with
  | wEsptx d => simp [regsAfter, hs]
  | init _ | restore _ => cases hl
  | _ => exact hs

/-! ### Bits 15:10 of a RAM bank register -/

/-- Two values of a RAM bank register agree in bits 15:10 (10_state R27). -/
def SameHighIndex (v w : BitVec 18) : Prop := ∀ b, 10 ≤ b → b ≤ 15 → w.getLsbD b = v.getLsbD b

/-- A bit past the lower part of a concatenation stands in the upper part. -/
theorem getLsbD_append_of_le {n m b : Nat} (x : BitVec n) (y : BitVec m) (hm : m ≤ b) :
    (x ++ y).getLsbD b = x.getLsbD (b - m) := by
  rw [BitVec.getLsbD_append, if_neg (Nat.not_lt.2 hm)]

/-- A bit of the upper part, where that is a field of `v`. -/
theorem getLsbD_extractLsb'_append {n m b : Nat} (v : BitVec n) (lo len : Nat) (y : BitVec m) (hm : m ≤ b)
    (hb : b < m + len) : (v.extractLsb' lo len ++ y).getLsbD b = v.getLsbD (lo + (b - m)) := by
  rw [getLsbD_append_of_le _ y hm, BitVec.getLsbD_extractLsb', decide_eq_true (by omega), Bool.true_and]

/-- A bit of the lower part, where that is a field of `v`. -/
theorem getLsbD_append_extractLsb' {n m b : Nat} (v : BitVec n) (lo len : Nat) (x : BitVec m) (hb : b < len) :
    (x ++ v.extractLsb' lo len).getLsbD b = v.getLsbD (lo + b) := by
  rw [BitVec.getLsbD_append, if_pos hb, BitVec.getLsbD_extractLsb', decide_eq_true hb, Bool.true_and]

theorem putRamKind_sameHighIndex (v : BitVec 18) (d : Byte) : SameHighIndex v (putRamKind v d) := fun b _ hhi =>
  (getLsbD_append_extractLsb' v 0 16 _ (by omega)).trans (congrArg v.getLsbD (Nat.zero_add b))

theorem putRamMid_sameHighIndex (v : BitVec 18) (d : Byte) : SameHighIndex v (putRamMid v d) := fun b hlo hhi =>
  calc (putRamMid v d).getLsbD b
    _ = (v.extractLsb' 10 8 ++ d.extractLsb' 0 2).getLsbD (b - 8) := getLsbD_append_of_le _ _ (by omega)
    _ = v.getLsbD (10 + (b - 8 - 2)) := getLsbD_extractLsb'_append v 10 8 _ (by omega) (by omega)
    _ = v.getLsbD b := congrArg v.getLsbD (by omega)

theorem putRamLow_sameHighIndex (v : BitVec 18) (d : Byte) : SameHighIndex v (putRamLow v d) := fun b hlo hhi =>
  (getLsbD_extractLsb'_append v 8 10 d (by omega) (by omega)).trans (congrArg v.getLsbD (by omega))

theorem putRamLowNibble_sameHighIndex (v : BitVec 18) (d : Byte) : SameHighIndex v (putRamLowNibble v d) :=
  fun b hlo hhi =>
  calc (putRamLowNibble v d).getLsbD b
    _ = (v.extractLsb' 8 10 ++ (0 : BitVec 4)).getLsbD (b - 4) := getLsbD_append_of_le _ _ (by omega)
    _ = v.getLsbD (8 + (b - 4 - 4)) := getLsbD_extractLsb'_append v 8 10 _ (by omega) (by omega)
    _ = v.getLsbD b := congrArg v.getLsbD (by omega)

theorem setRamBank_sameHighIndex {r : Regs} {j : BitVec 1} {v : BitVec 18} (h : SameHighIndex (r.ramBank j) v)
    (k : BitVec 1) : SameHighIndex (r.ramBank k) ((r.setRamBank j v).ramBank k) := by
  rw [Regs.ramBank_setRamBank]
  split
  · subst k; exact h
  · exact fun _ _ _ => rfl

theorem putRamBank_sameHighIndex {r : Regs} {j : BitVec 1} {put : BitVec 18 → Byte → BitVec 18} {d : Byte}
    (h : SameHighIndex (r.ramBank j) (put (r.ramBank j) d)) (k : BitVec 1) :
    SameHighIndex (r.ramBank k) ((r.putRamBank j put d).ramBank k) := by
  unfold Regs.putRamBank
  split
  · exact fun _ _ _ => rfl
  · exact setRamBank_sameHighIndex h k

/-- Only INIT and RESTORE write bits 15:10 of a RAM bank register (10_state R27). -/
theorem regsAfter_sameHighIndex {i : Instr} (s : State) (hl : loadsState i = false) (k : BitVec 1) :
    SameHighIndex (s.regs.ramBank k) ((regsAfter s i).ramBank k) := by
  cases i with
  | mbc5Ramb _ d => exact setRamBank_sameHighIndex (putRamLowNibble_sameHighIndex _ d) k
  | wRamkind j d => exact putRamBank_sameHighIndex (r := s.regs.latch d) (putRamKind_sameHighIndex _ d) k
  | wRammid j d => exact putRamBank_sameHighIndex (r := s.regs.latch d) (putRamMid_sameHighIndex _ d) k
  | wRamlo j d => exact putRamBank_sameHighIndex (r := s.regs.latch d) (putRamLow_sameHighIndex _ d) k
  | init _ | restore _ => cases hl
  | _ => exact fun _ _ _ => rfl

/-! ### The RAM-enable latch -/

/-- A word is ill formed, or the word of a write, or that of a read with a data byte (30 R80). -/
theorem word_cases (t : Nat) :
    0x2000000 ≤ t ∨ (∃ a d, t = writeWord a d) ∨ ∃ (a : Addr) (d : Byte), t = readWord a + d.toNat := by
  by_cases hill : 0x2000000 ≤ t
  · exact .inl hill
  · right
    by_cases hw : 0x1000000 ≤ t
    · refine .inl ⟨wordAddr t, wordData t, ?_⟩
      simp only [writeWord, wordAddr, wordData, BitVec.toNat_ofNat]
      omega
    · refine .inr ⟨wordAddr t, wordData t, ?_⟩
      simp only [readWord, wordAddr, wordData, BitVec.toNat_ofNat]
      omega

/-- An extended register stands below 0x0100 (30 R89). -/
theorem extendedRow_addr {a : Addr} {d : Byte} {i : Instr} (h : extendedRow a d = some i) : a.toNat ≤ 0x00FF := by
  cases he : a.isExtended with
  | false => rw [extendedRow_none a d he] at h; cases h
  | true =>
    simp only [Addr.isExtended, Bool.or_eq_true, decide_eq_true_eq] at he
    omega

/-- A property of the value of a conditional chain of options, one link at a time. -/
theorem forall_mem_ite_some {α : Type} {c : Prop} [Decidable c] {x : α} {o : Option α} {P : α → Prop} (hx : P x)
    (ho : ∀ i ∈ o, P i) : ∀ i ∈ (if c then some x else o), P i := by
  split
  · simpa using hx
  · exact ho

/-- On every row of the extended map the latch fires with the byte written (70 R299). -/
theorem regsAfter_extendedRow_ramEnabled (a : Addr) (d : Byte) (s : State) :
    ∀ i ∈ extendedRow a d, (regsAfter s i).ramEnabled = (s.regs.latch d).ramEnabled := by
  unfold extendedRow
  dsimp only
  repeat refine forall_mem_ite_some rfl ?_
  simp

/-- The legacy rows but MBC5.RAMG leave `ramEnabled` (42 R151 to R154). -/
theorem regsAfter_legacyRow_ramEnabled (a : Addr) (d : Byte) (s : State) :
    (regsAfter s (legacyRow a d)).ramEnabled = if a.toNat < 0x2000 then d == 0x0A else s.regs.ramEnabled := by
  unfold legacyRow
  dsimp only
  split
  · rw [if_pos (by omega)]; rfl
  · simp only [show ¬ a.toNat < 0x2000 by omega, if_false]
    split_ifs <;> rfl

/-- A write fires the latch below 0x2000 in compat mode, and nothing else of a write moves `ramEnabled` (10_state R23). -/
theorem regsAfter_decodeWrite_ramEnabled (s : State) (a : Addr) (d : Byte) :
    (regsAfter s (decodeWrite s.decodeCtx a d)).ramEnabled =
      if s.regs.mbc5CompatibilityMode = true ∧ a.toNat < 0x2000 then d == 0x0A else s.regs.ramEnabled := by
  unfold decodeWrite
  dsimp only
  split
  · split
    · have := extendedRow_addr ‹_›
      rw [regsAfter_extendedRow_ramEnabled a d s _ ‹_›]
      simp [Regs.latch, show a.toNat < 0x2000 by omega]
    · cases hc : s.regs.mbc5CompatibilityMode with
      | true => simpa [State.decodeCtx, hc] using regsAfter_legacyRow_ramEnabled a d s
      | false => simp [State.decodeCtx, hc, regsAfter]
  · simp only [show ¬ a.toNat < 0x2000 by omega, and_false, if_false]
    split <;> rfl

/-- A read moves no `ramEnabled` (20 R60). -/
theorem regsAfter_decodeRead_ramEnabled {ctx : DecodeCtx} {a : Addr} {d : Byte} {i : Instr}
    (h : decodeRead ctx a d = .ok i) (s : State) : (regsAfter s i).ramEnabled = s.regs.ramEnabled := by
  have hrow : (regsAfter s (readRow a)).ramEnabled = s.regs.ramEnabled := by
    unfold readRow
    dsimp only
    split_ifs <;> rfl
  unfold decodeRead at h
  dsimp only at h
  split_ifs at h <;> cases h
  · exact hrow
  · rfl
  · rfl

/-- If the step on a presented word answers a next state, the word was decoded and executed. -/
theorem step_present_next {s t : State} {w : Nat} (h : step (s.present w) = .next t) :
    ∃ i, decode s.decodeCtx w = .ok i ∧ exec i s = .next t := by
  obtain ⟨-, ⟨hp, -⟩ | ⟨x, xs, i, hp, hd, hx⟩⟩ := step_next_cases _ _ h
  · cases hp
  · cases hp
    exact ⟨i, hd, hx⟩

end Sys2Proof.Machine

namespace Sys2Proof.StateProofs

open Sys2Proof Sys2Proof.Machine Sys2Proof.Claims

/-- Settles O9: a step is an instruction on the state without the step taken, and every instruction keeps the invariant. -/
theorem stepKeepsInvariant : Obligations.StepKeepsInvariant := by
  intro s t hs h
  obtain ⟨-, ⟨-, rfl⟩ | ⟨x, xs, i, -, -, hx⟩⟩ := step_next_cases s t h
  · exact hs
  · exact exec_inv hx (hs.setPending xs)

/-- Settles O13: the parts of `LaunchFrame` about Log and Fault. -/
theorem marksStayAndLogGrows : Obligations.MarksStayAndLogGrows := by
  intro i s t h hi
  have hf := exec_launchFrame h hi
  obtain ⟨new, hnew⟩ := hf.log
  exact ⟨⟨new, hnew.symm⟩, hf.marks⟩

/-- Settles O14: the parts of `LaunchFrame` about the configuration and ROM. -/
theorem romAndConfigurationAreFixed : Obligations.RomAndConfigurationAreFixed := by
  intro i s t h hi
  have hf := exec_launchFrame h hi
  exact ⟨hf.cfg, fun o => by simp only [State.romByte, hf.rom, hf.cfg]⟩

/-- Settles O15: on every other instruction `regsAfter_compat` gives the old value. -/
theorem onlyModeWriteChangesCompat : Obligations.OnlyModeWriteChangesCompat := by
  intro i s t h hne
  by_contra! hno
  exact hne (exec_regs h ▸ regsAfter_compat s (by simpa using hno.2) hno.1)

/-- Settles O16: on every other instruction `regsAfter_bootRomMode` gives the old value. -/
theorem onlyBootWriteChangesBootMode : Obligations.OnlyBootWriteChangesBootMode := by
  intro i s t h hne
  by_contra! hno
  exact hne (exec_regs h ▸ regsAfter_bootRomMode s (by simpa using hno.2) hno.1)

/-- Settles O17: of the three kinds of word only a write's moves `ramEnabled`, as `regsAfter_decodeWrite_ramEnabled` says. -/
theorem ramEnableChangesInCompatOnly : Obligations.RamEnableChangesInCompatOnly := by
  intro s t w h hne
  obtain ⟨i, hd, hx⟩ := step_present_next h
  rw [exec_regs hx] at hne ⊢
  obtain hill | ⟨a, d, rfl⟩ | ⟨a, d, rfl⟩ := word_cases w
  · rw [decode, if_pos hill] at hd
    cases hd
    exact absurd rfl hne
  · rw [decode_write] at hd
    cases hd
    rw [regsAfter_decodeWrite_ramEnabled] at hne ⊢
    split at hne
    · obtain ⟨hc, ha⟩ := ‹_ ∧ _›
      exact ⟨hc, a, d, rfl, ha, if_pos ⟨hc, ha⟩⟩
    · exact absurd rfl hne
  · rw [decode_readData] at hd
    exact absurd (regsAfter_decodeRead_ramEnabled hd s) hne

/-- Settles O18: every writer of a RAM bank register leaves bits 15:10. -/
theorem ramBankHighBitsHaveNoWriter : Obligations.RamBankHighBitsHaveNoWriter := by
  intro i s t h hl k
  rw [exec_regs h]
  exact regsAfter_sameHighIndex s hl k

/-- Settles O19: the only writer of the flag leaves it 1. -/
theorem messageSentStaysSet : Obligations.MessageSentStaysSet := by
  intro i s t h hl hs
  rw [exec_regs h]
  exact regsAfter_espMessageSent s hl hs

/-- Settles O12: the values stand in the definition of the reset state, and its M is the layout in ROM mode 0. -/
theorem resetHoldsDefaults : Obligations.ResetHoldsDefaults := by
  refine ⟨⟨rfl, rfl, rfl, rfl, rfl, fun k => ?_, fun k => ?_, rfl, rfl, rfl, rfl, rfl, rfl, rfl, rfl⟩,
    rfl, ?_, fun o => ⟨rfl, rfl⟩, rfl, rfl, ?_, rfl, rfl, rfl⟩
  · simp [State.reset, Regs.reset, Regs.romBank]
  · simp [State.reset, Regs.reset, Regs.ramBank]
  · decide
  · decide

end Sys2Proof.StateProofs
end

section
/-! PROOFS. 20_memory, the layer below: a mapped access by the target of the covering window, which accesses
complete, and what a read can change. -/

namespace Sys2Proof.Machine

open Sys2Proof Sys2Proof.Claims

/-! ### Storage and marks -/

/-- A store is read back at its own offset and leaves every other (00_scope R10). -/
theorem State.cramByte_cramSet {s : State} (hwf : Memory.wf s.cram) (o o' : Nat) (d : Byte) :
    (s.cramSet o d).cramByte o' = if o' = o then d else s.cramByte o' := by
  split
  · subst o'; exact Memory.read_write_same _ hwf o d
  · exact Memory.read_write_of_ne _ _ _ _ ‹_›

/-- Recording a mark adds that mark to the set and no other (60 R261). -/
theorem mem_insertRecord_iff (x y : FaultRecord) (xs : List FaultRecord) :
    x ∈ insertRecord y xs ↔ x ∈ xs ∨ x = y := by
  unfold insertRecord
  split
  · exact ⟨.inl, fun h => h.elim id fun e => e ▸ ‹_›⟩
  · simp

/-! ### A mapped access by the target of the covering window (20 R57, R58) -/

section

variable {s : State} {a : Addr} {w : Win} {b : Nat}

theorem mappedRead_of_rom (hw : s.winOf a = some w) (ht : w.target = .rom b) :
    mappedRead a s = .next (s.ret (s.romByte (b + (a.toNat - w.start)))) := by
  simp only [mappedRead, hw, ht]

theorem mappedRead_of_cram (hw : s.winOf a = some w) (ht : w.target = .cram b)
    (hb : b + (a.toNat - w.start) < s.cfg.cramSize) :
    mappedRead a s = .next (s.ret (s.cramByte (b + (a.toNat - w.start)))) := by
  simp only [mappedRead, hw, ht, if_pos hb]

theorem mappedRead_of_unmapped (hw : s.winOf a = some w) (ht : w.target = .unmapped) :
    mappedRead a s = .next (s.ret 0xFF) := by
  simp only [mappedRead, hw, ht]

theorem mappedRead_of_undef {r : ModelFault} (hw : s.winOf a = some w) (ht : w.target = .undef r) :
    mappedRead a s = .next (s.raiseFault r (.read a)) := by
  simp only [mappedRead, hw, ht]

theorem mappedWrite_of_rom (d : Byte) (hw : s.winOf a = some w) (ht : w.target = .rom b) :
    mappedWrite a d s = .next s.silent := by
  simp only [mappedWrite, hw, ht]

theorem mappedWrite_of_cram (d : Byte) (hw : s.winOf a = some w) (ht : w.target = .cram b)
    (hb : b + (a.toNat - w.start) < s.cfg.cramSize) :
    mappedWrite a d s = .next (s.cramSet (b + (a.toNat - w.start)) d).silent := by
  simp only [mappedWrite, hw, ht, if_pos hb]

theorem mappedWrite_of_unmapped (d : Byte) (hw : s.winOf a = some w) (ht : w.target = .unmapped) :
    mappedWrite a d s = .next s.silent := by
  simp only [mappedWrite, hw, ht]

theorem mappedWrite_of_undef (d : Byte) {r : ModelFault} (hw : s.winOf a = some w) (ht : w.target = .undef r) :
    mappedWrite a d s = .next (s.raiseFault r (.write a d)) := by
  simp only [mappedWrite, hw, ht]

/-- A fall-through write whose mapped write completes runs the engine after it (41 R136). -/
theorem execWFall_of_next {d : Byte} {t : State} (h : mappedWrite a d s = .next t) :
    execWFall a d s = .next t.remap := by
  simp only [execWFall, h]

/-- Where M is current the window that covers an address shows nothing past the allocation (40 R107, R110). -/
theorem State.mappingCurrent.cram_inside (hs : s.mappingCurrent) (hw : s.winOf a = some w) (ht : w.target = .cram b) :
    b + (a.toNat - w.start) < s.cfg.cramSize := by
  obtain ⟨hmem, hlo, hhi⟩ := s.winOf_some a w hw
  rw [hs] at hmem
  have := layout_cram_inside _ _ _ w hmem b ht
  omega

/-- Where M is current a mapped read of a decoded address completes (20 R57, R69). -/
theorem State.mappingCurrent.mappedRead_completes (hs : s.mappingCurrent) (ha : Decoded a) :
    ∃ t, mappedRead a s = .next t := by
  obtain ⟨w, hw, hin⟩ := winOf_inside hs a ha
  cases ht : w.target with
  | rom b => exact ⟨_, mappedRead_of_rom hw ht⟩
  | cram b => exact ⟨_, mappedRead_of_cram hw ht (hin b ht)⟩
  | unmapped => exact ⟨_, mappedRead_of_unmapped hw ht⟩
  | undef r => exact ⟨_, mappedRead_of_undef hw ht⟩

/-- Where M is current a mapped write of a decoded address completes (20 R58, R69). -/
theorem State.mappingCurrent.mappedWrite_completes (hs : s.mappingCurrent) (ha : Decoded a) (d : Byte) :
    ∃ t, mappedWrite a d s = .next t := by
  obtain ⟨w, hw, hin⟩ := winOf_inside hs a ha
  cases ht : w.target with
  | rom b => exact ⟨_, mappedWrite_of_rom d hw ht⟩
  | cram b => exact ⟨_, mappedWrite_of_cram d hw ht (hin b ht)⟩
  | unmapped => exact ⟨_, mappedWrite_of_unmapped d hw ht⟩
  | undef r => exact ⟨_, mappedWrite_of_undef d hw ht⟩

end

/-! ### What a read can change -/

/-- A poll logs nothing: it pulls, and only a transmission pushes (44 R192). -/
theorem poll_log (s : State) : (poll s).log = s.log := by
  unfold poll
  split
  · rw [pullMany_eq]; rfl
  · rfl

/-- A read of no register with a side effect returns a byte or records a fault (20 R60, 60 R266). -/
theorem exec_read_next {i : Instr} {s t : State} (hi : isRead i = true) (hf : i ≠ .rFpgadata) (he : i ≠ .rEsprx)
    (h : exec i s = .next t) : (∃ b, t = s.ret b) ∨ ∃ r x, t = s.raiseFault r x := by
  cases i with
  | rFpgadata => exact absurd rfl hf
  | rEsprx => exact absurd rfl he
  | rVersion | rEspcfg | rEsptx => cases h; exact .inl ⟨_, rfl⟩
  | rFall a | rMem a => exact (mappedRead_next h).imp_right fun ⟨r, e⟩ => ⟨r, _, e⟩
  | _ => cases hi

end Sys2Proof.Machine
end

section
/-! PROOFS. 20_memory, routing: the decoder and `exec` together are the spec's read and write dispatch. -/

namespace Sys2Proof.Machine

open Sys2Proof Sys2Proof.Claims

/-! ### The bits of an operand, as the spec's pseudocode writes them -/

/-- The cursor's FPGA-RAM index is the cursor modulo 0x2000 (43 R171). -/
theorem cursorIndex_eq_mod (r : Regs) : cursorIndex r = r.fpgaRamAutoRwAddress.toNat % 0x2000 :=
  BitVec.extractLsb'_toNat 0 13 _

/-- The low bits of a word are the word modulo a power of two. -/
theorem ofNat_toNat_mod {n : Nat} (v : BitVec n) (k m : Nat) (hm : m = 2 ^ k) :
    BitVec.ofNat k (v.toNat % m) = v.setWidth k :=
  BitVec.eq_of_toNat_eq (by simp [hm])

/-- The address with a given number. -/
theorem addr_eq_ofNat {a : Addr} {n : Nat} (h : a.toNat = n) : a = BitVec.ofNat 16 n := by
  rw [← h, BitVec.ofNat_toNat, BitVec.setWidth_eq]

/-- A ROM bank slot `i = A[2:0]` of an aligned group names the address it was read from (30 R81). -/
theorem romSlotAddr_setWidth {base : Nat} {a : Addr} (hb : base % 8 = 0) (h : base ≤ a.toNat ∧ a.toNat ≤ base + 7) :
    romSlotAddr base (a.setWidth 3) = a := by
  apply BitVec.eq_of_toNat_eq
  simp only [romSlotAddr, BitVec.toNat_ofNat, BitVec.toNat_setWidth]
  omega

/-- A RAM bank slot `j = A[0]` of an aligned pair names the address it was read from (30 R81). -/
theorem ramSlotAddr_setWidth {base : Nat} {a : Addr} (hb : base % 2 = 0) (h : base ≤ a.toNat ∧ a.toNat ≤ base + 1) :
    ramSlotAddr base (a.setWidth 1) = a := by
  apply BitVec.eq_of_toNat_eq
  simp only [ramSlotAddr, BitVec.toNat_ofNat, BitVec.toNat_setWidth]
  omega

/-! ### Reads -/

/-- The register read map, executed, is the register read dispatch (41 R130). -/
theorem exec_readRow (a : Addr) (s : State) : exec (readRow a) s = regRead a s := by
  unfold regRead readRow
  dsimp only
  rw [← cursorIndex_eq_mod]
  symm
  split
  case h_6 =>
    repeat rw [if_neg ‹_›]
    rfl
  all_goals
    obtain rfl := addr_eq_ofNat ‹a.toNat = _›
    rfl

/-- An open read window takes a read of a decoded address to the register read dispatch (20 R55). -/
theorem busRead_of_decoded {a : Addr} (ha : Decoded a) (s : State) :
    busRead a s = if s.decodeCtx.readWindowOpen a then regRead a s else mappedRead a s := by
  unfold busRead
  rw [if_pos (c := _ ∨ _) ha, ← ite_or]
  exact if_congr (by simp [DecodeCtx.readWindowOpen, State.decodeCtx, and_comm]) rfl rfl

/-- The word of a read decodes, and executes as 20 R55 routes it. -/
theorem exec_decodeRead (a : Addr) (s : State) :
    ∃ i, decodeRead s.decodeCtx a 0 = .ok i ∧ exec i s = busRead a s := by
  by_cases ha : Decoded a
  · refine ⟨_, (if_pos ha).trans (if_pos rfl), ?_⟩
    rw [busRead_of_decoded ha]
    split
    · exact exec_readRow a s
    · rfl
  · refine ⟨_, if_neg ha, ?_⟩
    unfold Decoded at ha
    unfold busRead
    rw [if_neg (by omega), if_neg (by omega), if_neg ha]
    rfl

/-! ### Writes -/

/-- The rule of a ROM bank field (42 R155). -/
def romField (put : BitVec 17 → Byte → BitVec 17) (d : Byte) (i : BitVec 3) : State → State :=
  unlessCompat fun r => r.setRomBank i (put (r.romBank i) d)

/-- The rule of a RAM bank field (42 R155). -/
def ramField (put : BitVec 18 → Byte → BitVec 18) (d : Byte) (j : BitVec 1) : State → State :=
  unlessCompat fun r => r.setRamBank j (put (r.ramBank j) d)

/-- A write to an address of a ROM bank group, its slot read from the address (30 R81). -/
theorem registerWrite_romField {base : Nat} {a : Addr} (hb : base % 8 = 0) (h : base ≤ a.toNat ∧ a.toNat ≤ base + 7)
    (put : BitVec 17 → Byte → BitVec 17) (d : Byte) (s : State) :
    registerWrite (romSlotAddr base (a.setWidth 3)) d (romField put d (a.setWidth 3)) s =
      endWrite (romField put d (BitVec.ofNat 3 (a.toNat % 8)) (coFire a d s)) := by
  rw [romSlotAddr_setWidth hb h, ofNat_toNat_mod a 3 8 rfl, registerWrite]

/-- A write to an address of a RAM bank pair, its slot read from the address (30 R81). -/
theorem registerWrite_ramField {base : Nat} {a : Addr} (hb : base % 2 = 0) (h : base ≤ a.toNat ∧ a.toNat ≤ base + 1)
    (put : BitVec 18 → Byte → BitVec 18) (d : Byte) (s : State) :
    registerWrite (ramSlotAddr base (a.setWidth 1)) d (ramField put d (a.setWidth 1)) s =
      endWrite (ramField put d (BitVec.ofNat 1 (a.toNat % 2)) (coFire a d s)) := by
  rw [ramSlotAddr_setWidth hb h, ofNat_toNat_mod a 1 2 rfl, registerWrite]

/-- One link of two conditional chains that agree, as options of what the row and the rule answer. -/
theorem map_ite_some_congr {α β γ : Type} {c c' : Prop} [Decidable c] [Decidable c'] {x : α} {y : β} {o : Option α}
    {p : Option β} {f : α → γ} {g : β → γ} (hc : c ↔ c') (hx : c → f x = g y) (ho : o.map f = p.map g) :
    (if c then some x else o).map f = (if c' then some y else p).map g := by
  by_cases h : c
  · rw [if_pos h, if_pos (hc.1 h)]
    exact congrArg some (hx h)
  · rwa [if_neg h, if_neg (mt hc.2 h)]

/-- The extended map, executed, is the legacy matcher, then the rule of the exact address, then the engine (41 R133). -/
theorem exec_extendedRow (a : Addr) (d : Byte) (s : State) :
    (extendedRow a d).map (exec · s) = (extendedRule a d (coFire a d s)).map fun t => .next (endWrite t) := by
  unfold extendedRow extendedRule
  dsimp only
  -- The six groups of bank fields, then the eleven registers with one address each.
  refine map_ite_some_congr Iff.rfl
    (fun h => congrArg Host.Outcome.next (registerWrite_romField rfl h putRomKind d s)) ?_
  refine map_ite_some_congr (by omega)
    (fun h => congrArg Host.Outcome.next (registerWrite_ramField rfl h putRamKind d s)) ?_
  refine map_ite_some_congr Iff.rfl
    (fun h => congrArg Host.Outcome.next (registerWrite_romField rfl h putRomMid d s)) ?_
  refine map_ite_some_congr (by omega)
    (fun h => congrArg Host.Outcome.next (registerWrite_ramField rfl h putRamMid d s)) ?_
  refine map_ite_some_congr Iff.rfl
    (fun h => congrArg Host.Outcome.next (registerWrite_romField rfl h putRomLow d s)) ?_
  refine map_ite_some_congr (by omega)
    (fun h => congrArg Host.Outcome.next (registerWrite_ramField rfl h putRamLow d s)) ?_
  rw [← cursorIndex_eq_mod, ofNat_toNat_mod d 3 8 rfl, BitVec.setWidth_eq_extractLsb' (x := d) (w := 3) (by decide)]
  symm
  split
  case h_12 =>
    repeat rw [if_neg ‹_›]
    rfl
  all_goals
    obtain rfl := addr_eq_ofNat ‹a.toNat = _›
    rfl

/-- The legacy row of an address up to 0x5FFF, executed, is the legacy matcher by address bits 14:12 and the engine
(42 R150). -/
theorem exec_legacyRow {a : Addr} (ha : a.toNat ≤ 0x5FFF) (d : Byte) (s : State) :
    exec (legacyRow a d) s = .next (endWrite (legacyWrite a d s)) := by
  have hbits : (a.extractLsb' 12 3).toNat = a.toNat / 0x1000 % 8 := by
    rw [BitVec.extractLsb'_toNat, Nat.shiftRight_eq_div_pow]
  unfold legacyRow legacyWrite
  dsimp only
  symm
  split
  case h_1 | h_2 => rw [if_pos (by omega)]; rfl
  case h_3 => rw [if_neg (by omega), if_pos (by omega)]; rfl
  case h_4 => rw [if_neg (by omega), if_neg (by omega), if_pos (by omega)]; rfl
  case h_5 h₀ h₁ h₂ h₃ =>
    simp only [imp_false] at h₀ h₁ h₂ h₃
    rw [if_neg (by omega), if_neg (by omega), if_neg (by omega)]; rfl

/-- Both matchers and the fall-through, decoded and executed, are the register write dispatch (41 R133). -/
theorem exec_decodeWrite_register {a : Addr} (ha : a.toNat ≤ 0x5FFF) (d : Byte) (s : State) :
    exec (decodeWrite s.decodeCtx a d) s = regWrite a d s := by
  have hrow := exec_extendedRow a d s
  unfold decodeWrite regWrite
  dsimp only
  rw [if_pos ha, ← coFire]
  cases hi : extendedRow a d <;> cases ht : extendedRule a d (coFire a d s) <;> rw [hi, ht] at hrow
  case some.some => exact Option.some.inj hrow
  case none.none =>
    cases hc : s.regs.mbc5CompatibilityMode with
    | true => simpa [State.decodeCtx, coFire, hc, endWrite] using exec_legacyRow ha d s
    | false => simp only [State.decodeCtx, coFire, hc, Bool.false_eq_true, if_false]; rfl
  all_goals cases hrow

/-- The word of a write, decoded and executed, is the routing of 20 R54. -/
theorem exec_decodeWrite (a : Addr) (d : Byte) (s : State) :
    exec (decodeWrite s.decodeCtx a d) s = busWrite a d s := by
  unfold busWrite
  split
  · exact exec_decodeWrite_register ‹_› d s
  · unfold decodeWrite
    dsimp only
    rw [if_neg ‹_›]
    split <;> rfl

end Sys2Proof.Machine
end

section
/-! PROOFS. 20_memory, the statements: reads, routing and the accesses through the installed mapping. -/

namespace Sys2Proof.MemoryProofs

open Sys2Proof Sys2Proof.Machine Sys2Proof.Claims

/-- Settles O20: the two reads with a side effect keep M and Log, and every other read answers or records. -/
theorem readsKeepTheMapping : Obligations.ReadsKeepTheMapping := by
  intro i s t hi h
  by_cases hf : i = .rFpgadata
  · subst hf; cases h
    exact ⟨rfl, rfl, fun hne => absurd rfl hne⟩
  by_cases he : i = .rEsprx
  · subst he; cases h
    exact ⟨(poll_regs s).1, poll_log s, fun _ hne => absurd rfl hne⟩
  obtain ⟨b, rfl⟩ | ⟨r, x, rfl⟩ := exec_read_next hi hf he h <;>
    exact ⟨rfl, rfl, fun _ _ => ⟨rfl, fun _ => ⟨rfl, rfl⟩⟩⟩

/-- Settles O21: the word decodes by its address and data, and the decoded row is the routing. -/
theorem writeStepFollowsDispatch : Obligations.WriteStepFollowsDispatch := by
  intro s a d hc
  rw [step_present s _ _ hc (decode_write _ a d), exec_decodeWrite]

/-- Settles O22: the word decodes by its address and the open windows, and the decoded row is the routing. -/
theorem readStepFollowsDispatch : Obligations.ReadStepFollowsDispatch := by
  intro s a hc
  obtain ⟨i, hd, hx⟩ := exec_decodeRead a s
  rw [step_present s _ i hc ((decode_read _ a).trans hd), hx]

/-- Settles O35: both rows are the mapped read, taken by the target of the window; the bound is the layout's. -/
theorem mappedReadResult : Obligations.MappedReadResult := by
  intro s a w i hw hi
  have hx : exec i s = mappedRead a s := by rcases hi with rfl | rfl <;> rfl
  rw [hx]
  exact ⟨fun b ht => mappedRead_of_rom hw ht, fun b ht hb => mappedRead_of_cram hw ht hb,
    mappedRead_of_unmapped hw,
    fun r ht => ⟨_, mappedRead_of_undef hw ht, rfl, fun x => mem_insertRecord_iff x _ _⟩,
    fun hs b ht => hs.cram_inside hw ht⟩

/-- Settles O36: the mapped write by the target of the window, its one byte read back. -/
theorem mappedWriteResult : Obligations.MappedWriteResult := by
  intro s a d w hwf hw
  exact ⟨fun b ht => mappedWrite_of_rom d hw ht, mappedWrite_of_unmapped d hw,
    fun b ht hb => ⟨_, mappedWrite_of_cram d hw ht hb, rfl, fun o => State.cramByte_cramSet hwf _ o d⟩,
    fun r ht => ⟨_, mappedWrite_of_undef d hw ht, rfl, fun x => mem_insertRecord_iff x _ _⟩⟩

/-- Settles O38: a current M covers every decoded address and never leaves the allocation. -/
theorem mappedAccessesComplete : Obligations.MappedAccessesComplete := by
  intro s a d hs ha
  obtain ⟨t, ht⟩ := hs.mappedRead_completes ha
  obtain ⟨u, hu⟩ := hs.mappedWrite_completes ha d
  exact ⟨⟨t, ht⟩, ⟨t, ht⟩, ⟨u, hu⟩, ⟨u.remap, execWFall_of_next hu⟩⟩

/-- Settles O39: the write stores at the offset the second window reads, and M stays as it was. -/
theorem storedByteIsReadThroughEveryWindow : Obligations.StoredByteIsReadThroughEveryWindow := by
  intro s a a' d w w' b b' hwf hw ht hw' ht' ho hb
  refine ⟨_, _, mappedWrite_of_cram d hw ht hb, mappedRead_of_cram hw' ht' (ho ▸ hb), ?_, rfl⟩
  rw [← ho]
  exact congrArg Answer.byte (Memory.read_write_same _ hwf _ d)

end Sys2Proof.MemoryProofs
end

section
/-! PROOFS. 30_encoding, the layer below the statements: the decoder region by region of the address space, and what the
row of each region encodes to. -/

namespace Sys2Proof

open Sys2Proof.Machine Sys2Proof.Claims

/-! ### Regions of the address space -/

/-- The model's two area tests are the decoded addresses (20 R53). -/
theorem Addr.inArea_iff (a : Addr) : (a.inRomArea || a.inRamArea) = true ↔ Decoded a := by
  simp [Addr.inRomArea, Addr.inRamArea, Decoded]

/-- No extended register stands from 0x0100 on (30 R89). -/
theorem Addr.isExtended_eq_false {a : Addr} (h : 0x0100 ≤ a.toNat) : a.isExtended = false := by
  simp only [Addr.isExtended, Bool.or_eq_false_iff, decide_eq_false_iff_not]
  omega

/-- No readable register stands from 0x0100 on (30 R88). -/
theorem Addr.isReadRegister_eq_false {a : Addr} (h : 0x0100 ≤ a.toNat) : a.isReadRegister = false := by
  simp only [Addr.isReadRegister, Bool.or_eq_false_iff, decide_eq_false_iff_not]
  omega

/-- Below 0x0100 the low window alone decides (20 R55). -/
theorem DecodeCtx.readWindowOpen_low (ctx : DecodeCtx) {a : Addr} (h : a.toNat ≤ 0x00FF) :
    ctx.readWindowOpen a = ctx.regReadLow := by
  simp [DecodeCtx.readWindowOpen, h, show ¬ 0xA000 ≤ a.toNat by omega]

/-- An open read window covers the low 0x100 addresses or the RAM area (20 R55). -/
theorem DecodeCtx.bounds_of_readWindowOpen {ctx : DecodeCtx} {a : Addr} (h : ctx.readWindowOpen a = true) :
    a.toNat ≤ 0x00FF ∨ 0xA000 ≤ a.toNat ∧ a.toNat ≤ 0xBFFF := by
  simp only [DecodeCtx.readWindowOpen, Bool.or_eq_true, Bool.and_eq_true, decide_eq_true_eq] at h
  exact h.imp And.right And.right

/-! ### The decoder in each region -/

section
variable {a : Addr} {d : Byte} (ctx : DecodeCtx)

/-- The extended map takes its addresses in every mode (30 R89). -/
theorem decodeWrite_of_extendedRow {i : Instr} (h : extendedRow a d = some i) : decodeWrite ctx a d = i := by
  have := extendedRow_addr h
  simp [decodeWrite, h, show a.toNat ≤ 0x5FFF by omega]

/-- Outside the extended map the mode chooses between the legacy matcher and the fall-through (30 R89). -/
theorem decodeWrite_of_unclaimed (ha : a.toNat ≤ 0x5FFF) (he : a.isExtended = false) :
    decodeWrite ctx a d = if ctx.compat then legacyRow a d else .wFall a d := by
  simp [decodeWrite, ha, extendedRow_none a d he]

/-- From 0x6000 on a write of a decoded address is a mapped write (20 R54). -/
theorem decodeWrite_of_mapped (ha : 0x6000 ≤ a.toNat) (hd : Decoded a) : decodeWrite ctx a d = .wMem a d := by
  unfold decodeWrite
  dsimp only
  rw [if_neg (by omega)]
  exact if_pos hd

/-- A write outside both areas is refused (60 R262). -/
theorem decodeWrite_of_not_decoded (hd : ¬ Decoded a) : decodeWrite ctx a d = .refuseNotDecoded 1 a d := by
  unfold decodeWrite
  dsimp only
  rw [if_neg fun h => hd (.inl (by omega))]
  exact if_neg hd

/-- A read of a decoded address carries no data and is taken by an open read window (20 R55). -/
theorem decodeRead_of_decoded (hd : Decoded a) :
    decodeRead ctx a 0 = .ok (if ctx.readWindowOpen a then readRow a else .rMem a) :=
  (if_pos hd).trans (if_pos rfl)

/-- A read of a decoded address with data encodes nothing (30 R80; log entry 6). -/
theorem decodeRead_of_data (hd : Decoded a) (hne : d ≠ 0) : decodeRead ctx a d = .error .readCarriesData :=
  (if_pos hd).trans (if_neg hne)

/-- A read outside both areas is refused, whatever its data byte (60 R262). -/
theorem decodeRead_of_not_decoded (hd : ¬ Decoded a) : decodeRead ctx a d = .ok (.refuseNotDecoded 0 a d) :=
  if_neg hd

/-- A word with a bit above bit 24 is one row in every mode (30 R80). -/
theorem decode_of_illFormed {t : Nat} (h : 0x2000000 ≤ t) : decode ctx t = .ok (.refuseIllFormedWord t) :=
  if_pos h

end

/-! ### The row of each region, encoded -/

/-- The instruction is well formed, the mode selects its row, and it encodes to the word. -/
def Instr.EncodesIn (ctx : DecodeCtx) (t : Nat) (i : Instr) : Prop :=
  i.wf = true ∧ i.selected ctx = true ∧ encode i = .word t

/-- A property of the value of a conditional chain of options, with the condition of the link at hand. -/
theorem forall_mem_ite_some_of {α : Type} {c : Prop} [Decidable c] {x : α} {o : Option α} {P : α → Prop}
    (hx : c → P x) (ho : ∀ i ∈ o, P i) : ∀ i ∈ (if c then some x else o), P i := by
  split
  · simpa using hx ‹c›
  · exact ho

/-- A register at a fixed address encodes to that address. -/
theorem word_writeWord_of_eq {a : Addr} {n : Nat} (d : Byte) (h : a.toNat = n) :
    Input.word (writeWord (BitVec.ofNat 16 n) d) = .word (writeWord a d) := by
  rw [← addr_eq_ofNat h]

/-- Every row of the extended map encodes to the write it was read from, its slot to the address it came from
(30 R81, R89). -/
theorem extendedRow_encodesIn (ctx : DecodeCtx) (a : Addr) (d : Byte) :
    ∀ i ∈ extendedRow a d, i.EncodesIn ctx (writeWord a d) := by
  have romSlot {base : Nat} (hb : base % 8 = 0) (h : base ≤ a.toNat ∧ a.toNat ≤ base + 7) :=
    congrArg (fun b => Input.word (writeWord b d)) (romSlotAddr_setWidth hb h)
  have ramSlot {base : Nat} (hb : base % 2 = 0) (h : base ≤ a.toNat ∧ a.toNat ≤ base + 1) :=
    congrArg (fun b => Input.word (writeWord b d)) (ramSlotAddr_setWidth hb h)
  unfold extendedRow
  dsimp only
  iterate 3
    refine forall_mem_ite_some_of (fun h => ⟨rfl, rfl, romSlot rfl h⟩) ?_
    refine forall_mem_ite_some_of (fun h => ⟨rfl, rfl, ramSlot rfl h⟩) ?_
  iterate 11
    refine forall_mem_ite_some_of (fun h => ⟨rfl, rfl, word_writeWord_of_eq d h⟩) ?_
  simp

/-- The legacy row of an unclaimed address encodes to the write, in compat mode (42 R150). -/
theorem legacyRow_encodesIn {ctx : DecodeCtx} {a : Addr} (hc : ctx.compat = true) (ha : a.toNat ≤ 0x5FFF)
    (he : a.isExtended = false) (d : Byte) : (legacyRow a d).EncodesIn ctx (writeWord a d) := by
  unfold legacyRow
  dsimp only
  split_ifs
  · exact ⟨by simp [Instr.wf, *], hc, rfl⟩
  all_goals exact ⟨decide_eq_true (by omega), hc, rfl⟩

/-- A write's row encodes to the write (20 R54, 30 R89). -/
theorem decodeWrite_encodesIn (ctx : DecodeCtx) (a : Addr) (d : Byte) :
    (decodeWrite ctx a d).EncodesIn ctx (writeWord a d) := by
  by_cases hd : Decoded a
  case neg =>
    rw [decodeWrite_of_not_decoded ctx hd]
    exact ⟨by simpa [Instr.wf] using mt a.inArea_iff.1 hd, rfl, rfl⟩
  by_cases ha : 0x6000 ≤ a.toNat
  case pos =>
    rw [decodeWrite_of_mapped ctx ha hd]
    refine ⟨?_, rfl, rfl⟩
    simp only [Instr.wf, Addr.inRamArea, Bool.or_eq_true, decide_eq_true_eq]
    exact hd.imp_left (And.intro ha)
  cases he : a.isExtended with
  | true =>
    obtain ⟨i, hi⟩ := extendedRow_some a d he
    rw [decodeWrite_of_extendedRow ctx hi]
    exact extendedRow_encodesIn ctx a d i hi
  | false =>
    rw [decodeWrite_of_unclaimed ctx (by omega) he]
    cases hc : ctx.compat with
    | true => exact legacyRow_encodesIn hc (by omega) he d
    | false => exact ⟨by simp [Instr.wf, he, show a.toNat ≤ 0x5FFF by omega], by simp [Instr.selected, hc], rfl⟩

/-- The register read map under an open window encodes to the read (30 R88). -/
theorem readRow_encodesIn {ctx : DecodeCtx} {a : Addr} (ho : ctx.readWindowOpen a = true) :
    (readRow a).EncodesIn ctx (readWord a) := by
  have hrow {n : Nat} (hn : n ≤ 0x00FF) (h : a.toNat = n) :
      ctx.regReadLow = true ∧ Input.word (readWord (BitVec.ofNat 16 n)) = .word (readWord a) := by
    rw [← ctx.readWindowOpen_low (h.trans_le hn), ← addr_eq_ofNat h]
    exact ⟨ho, rfl⟩
  unfold readRow
  dsimp only
  split_ifs
  case neg =>
    refine ⟨?_, ho, rfl⟩
    simp only [Instr.wf, Addr.isReadRegister, Addr.inRamArea, Bool.or_eq_true, Bool.and_eq_true, Bool.not_eq_true',
      Bool.or_eq_false_iff, decide_eq_true_eq, decide_eq_false_iff_not]
    have := DecodeCtx.bounds_of_readWindowOpen ho
    omega
  all_goals exact ⟨rfl, hrow (by decide) ‹a.toNat = _›⟩

/-- What a read decodes to encodes to the read with its data byte, which is 0 at a decoded address (20 R55, 30 R80). -/
theorem decodeRead_encodesIn {ctx : DecodeCtx} {a : Addr} {d : Byte} {i : Instr} (h : decodeRead ctx a d = .ok i) :
    i.EncodesIn ctx (readWord a + d.toNat) := by
  by_cases hd : Decoded a
  case neg =>
    cases (decodeRead_of_not_decoded ctx hd).symm.trans h
    exact ⟨by simpa [Instr.wf] using mt a.inArea_iff.1 hd, rfl, rfl⟩
  by_cases hz : d = 0
  case neg => cases (decodeRead_of_data ctx hd hz).symm.trans h
  subst hz
  rw [show readWord a + (0 : Byte).toNat = readWord a by simp]
  cases (decodeRead_of_decoded ctx hd).symm.trans h
  cases ho : ctx.readWindowOpen a with
  | true => exact readRow_encodesIn ho
  | false => exact ⟨a.inArea_iff.2 hd, by simp [Instr.selected, ho], rfl⟩

/-- What a word decodes to encodes to the word. -/
theorem decode_encodesIn {ctx : DecodeCtx} {t : Nat} {i : Instr} (h : decode ctx t = .ok i) : i.EncodesIn ctx t := by
  obtain hill | ⟨a, d, rfl⟩ | ⟨a, d, rfl⟩ := word_cases t
  · cases (decode_of_illFormed ctx hill).symm.trans h
    exact ⟨by simpa [Instr.wf] using hill, rfl, rfl⟩
  · cases (decode_write ctx a d).symm.trans h
    exact decodeWrite_encodesIn ctx a d
  · exact decodeRead_encodesIn ((decode_readData ctx a d).symm.trans h)

end Sys2Proof
end

section
/-! PROOFS. 30_encoding, the other direction: the encoding of each row, decoded; then the word as fields, and the words
that are refused. -/

namespace Sys2Proof

open Sys2Proof.Machine Sys2Proof.Claims

/-! ### Bank slots and their addresses -/

section
variable {base : Nat}

/-- The number of a ROM bank slot's address (30 R81). -/
theorem romSlotAddr_toNat (hb : base ≤ 0xFFF8) (i : BitVec 3) :
    (romSlotAddr base i).toNat = base + i.toNat := by
  simp only [romSlotAddr, BitVec.toNat_ofNat]
  omega

/-- The number of a RAM bank slot's address (30 R81). -/
theorem ramSlotAddr_toNat (hb : base ≤ 0xFFFE) (j : BitVec 1) :
    (ramSlotAddr base j).toNat = base + j.toNat := by
  simp only [ramSlotAddr, BitVec.toNat_ofNat]
  omega

/-- The slot of a group that starts at a multiple of 8 stands in address bits 2:0 (30 R81). -/
theorem setWidth_romSlotAddr (hb : base % 8 = 0) (i : BitVec 3) : (romSlotAddr base i).setWidth 3 = i := by
  apply BitVec.eq_of_toNat_eq
  simp only [romSlotAddr, BitVec.toNat_ofNat, BitVec.toNat_setWidth]
  omega

/-- The slot of a pair that starts at an even address stands in address bit 0 (30 R81). -/
theorem setWidth_ramSlotAddr (hb : base % 2 = 0) (j : BitVec 1) : (ramSlotAddr base j).setWidth 1 = j := by
  apply BitVec.eq_of_toNat_eq
  simp only [ramSlotAddr, BitVec.toNat_ofNat, BitVec.toNat_setWidth]
  omega

end

/-- The ROM bank rows are read from the addresses their slots name (30 R81, R89). -/
theorem extendedRow_romSlotAddr (i : BitVec 3) (d : Byte) :
    extendedRow (romSlotAddr 0x0070 i) d = some (.wRomkind i d) ∧
    extendedRow (romSlotAddr 0x0080 i) d = some (.wRommid i d) ∧
    extendedRow (romSlotAddr 0x0090 i) d = some (.wRomlo i d) := by
  have := i.isLt
  simp only [extendedRow, romSlotAddr_toNat, setWidth_romSlotAddr, Nat.reduceLeDiff, Nat.reduceMod]
  refine ⟨if_pos (by omega), ?_, ?_⟩
  all_goals
    repeat rw [if_neg (by omega)]
    exact if_pos (by omega)

/-- The RAM bank rows are read from the addresses their slots name (30 R81, R89). -/
theorem extendedRow_ramSlotAddr (j : BitVec 1) (d : Byte) :
    extendedRow (ramSlotAddr 0x007A j) d = some (.wRamkind j d) ∧
    extendedRow (ramSlotAddr 0x008A j) d = some (.wRammid j d) ∧
    extendedRow (ramSlotAddr 0x009A j) d = some (.wRamlo j d) := by
  have := j.isLt
  simp only [extendedRow, ramSlotAddr_toNat, setWidth_ramSlotAddr, Nat.reduceLeDiff, Nat.reduceMod]
  refine ⟨?_, ?_, ?_⟩
  all_goals
    repeat rw [if_neg (by omega)]
    exact if_pos (by omega)

/-! ### The encoding of each row, decoded -/

/-- In compat mode the word of an unclaimed address reads as its legacy row (42 R150). -/
theorem decode_legacy {ctx : DecodeCtx} {a : Addr} {d : Byte} {i : Instr} (hc : ctx.compat = true)
    (ha : a.toNat ≤ 0x5FFF) (he : a.isExtended = false) (hi : legacyRow a d = i) : decode ctx (writeWord a d) = .ok i := by
  rw [decode_write, decodeWrite_of_unclaimed ctx ha he, if_pos hc, hi]

/-- The word of an extended register reads as its row in every mode (30 R89). -/
theorem decode_extended (ctx : DecodeCtx) {a : Addr} {d : Byte} {i : Instr} (h : extendedRow a d = some i) :
    decode ctx (writeWord a d) = .ok i := by
  rw [decode_write, decodeWrite_of_extendedRow ctx h]

/-- Under an open read window the word of a read reads as its row of the register read map (30 R88). -/
theorem decode_readRow {ctx : DecodeCtx} {a : Addr} {i : Instr} (ho : ctx.readWindowOpen a = true)
    (hi : readRow a = i) : decode ctx (readWord a) = .ok i := by
  have hd : Decoded a := (DecodeCtx.bounds_of_readWindowOpen ho).imp_left (by omega)
  rw [decode_read, decodeRead_of_decoded ctx hd, if_pos ho, hi]

/-- An address no register read claims is a fall-through read (41 R132). -/
theorem readRow_of_unclaimed {a : Addr} (h : a.isReadRegister = false) : readRow a = .rFall a := by
  simp only [Addr.isReadRegister, Bool.or_eq_false_iff, decide_eq_false_iff_not] at h
  unfold readRow
  dsimp only
  repeat rw [if_neg (by omega)]

/-- The encoding of a well-formed instruction reads as the instruction, in every mode that selects its row. -/
theorem decode_encode {ctx : DecodeCtx} (i : Instr) (hwf : i.wf = true) (hsel : i.selected ctx = true) :
    decodeInput ctx (encode i) = .ok i := by
  cases i with
  | mbc5Ramg a d =>
    obtain ⟨ha, he⟩ : a.toNat ≤ 0x1FFF ∧ a.isExtended = false := by simpa [Instr.wf] using hwf
    exact decode_legacy hsel (by omega) he (if_pos ha)
  | mbc5Romb0 a d =>
    have ha := of_decide_eq_true hwf
    exact decode_legacy hsel (by omega) (a.isExtended_eq_false (by omega))
      ((if_neg (by omega)).trans (if_pos ha.2))
  | mbc5Romb1 a d =>
    have ha := of_decide_eq_true hwf
    exact decode_legacy hsel (by omega) (a.isExtended_eq_false (by omega))
      ((if_neg (by omega)).trans ((if_neg (by omega)).trans (if_pos ha.2)))
  | mbc5Ramb a d =>
    have ha := of_decide_eq_true hwf
    exact decode_legacy hsel (by omega) (a.isExtended_eq_false (by omega))
      ((if_neg (by omega)).trans ((if_neg (by omega)).trans (if_neg (by omega))))
  | wRomkind i d => exact decode_extended ctx (extendedRow_romSlotAddr i d).1
  | wRommid i d => exact decode_extended ctx (extendedRow_romSlotAddr i d).2.1
  | wRomlo i d => exact decode_extended ctx (extendedRow_romSlotAddr i d).2.2
  | wRamkind j d => exact decode_extended ctx (extendedRow_ramSlotAddr j d).1
  | wRammid j d => exact decode_extended ctx (extendedRow_ramSlotAddr j d).2.1
  | wRamlo j d => exact decode_extended ctx (extendedRow_ramSlotAddr j d).2.2
  | wMode d | wCurhi d | wCurlo d | wCurinc d | wFpgadata d | wEspcfg d | wEspack d | wEsptx d | wEsprxaddr d
  | wEsptxaddr d | wBoot d => exact decode_extended ctx rfl
  | wFall a d =>
    obtain ⟨ha, he⟩ : a.toNat ≤ 0x5FFF ∧ a.isExtended = false := by simpa [Instr.wf] using hwf
    have hc : ctx.compat = false := by simpa [Instr.selected] using hsel
    simp [encode, decodeInput, decode_write, decodeWrite_of_unclaimed ctx ha he, hc]
  | wMem a d =>
    have ha : (0x6000 ≤ a.toNat ∧ a.toNat ≤ 0x7FFF) ∨ (0xA000 ≤ a.toNat ∧ a.toNat ≤ 0xBFFF) := by
      simpa [Instr.wf, Addr.inRamArea] using hwf
    have hd : Decoded a := ha.imp_left And.right
    simp [encode, decodeInput, decode_write, decodeWrite_of_mapped ctx (show 0x6000 ≤ a.toNat by omega) hd]
  | rFpgadata | rVersion | rEspcfg | rEsprx | rEsptx =>
    exact decode_readRow ((ctx.readWindowOpen_low (by decide)).trans hsel) rfl
  | rFall a =>
    refine decode_readRow hsel (readRow_of_unclaimed ?_)
    simp only [Instr.wf, Addr.inRamArea, Bool.or_eq_true, Bool.and_eq_true, decide_eq_true_eq, Bool.not_eq_true'] at hwf
    exact hwf.elim And.right fun h => Addr.isReadRegister_eq_false (by omega)
  | rMem a =>
    have hc : ctx.readWindowOpen a = false := by simpa [Instr.selected] using hsel
    rw [encode, decodeInput, decode_read, decodeRead_of_decoded ctx (a.inArea_iff.1 hwf), hc]
    rfl
  | refuseNotDecoded w a d =>
    have hd : ¬ Decoded a := mt a.inArea_iff.2 (by simpa [Instr.wf] using hwf)
    obtain rfl | rfl := BitVec.eq_zero_or_eq_one w
    · exact (decode_readData ctx a d).trans (decodeRead_of_not_decoded ctx hd)
    · exact (decode_write ctx a d).trans (congrArg _ (decodeWrite_of_not_decoded ctx hd))
  | refuseIllFormedWord t => exact decode_of_illFormed ctx (by simpa [Instr.wf] using hwf)
  | init _ | recompute | save | restore _ | host _ | peer _ _ => rfl

/-! ### The word as fields, and its refusals -/

/-- An address and a data byte below it are two disjoint fields of a word (30 R80). -/
theorem addr_data_or (a : Addr) (d : Byte) : a.toNat * 0x100 + d.toNat = a.toNat <<< 8 ||| d.toNat := by
  rw [← Nat.shiftLeft_add_eq_or_of_lt d.isLt, Nat.shiftLeft_eq]

/-- The word of a write as the three fields of 30 R80. -/
theorem writeWord_eq_or (a : Addr) (d : Byte) : writeWord a d = 0x1000000 ||| (a.toNat <<< 8) ||| d.toNat := by
  have hlow : a.toNat * 0x100 + d.toNat < 2 ^ 24 := by
    have := a.isLt
    have := d.isLt
    omega
  calc writeWord a d
    _ = 2 ^ 24 * 1 + (a.toNat * 0x100 + d.toNat) := Nat.add_assoc ..
    _ = 0x1000000 ||| (a.toNat <<< 8 ||| d.toNat) := by rw [Nat.two_pow_add_eq_or_of_lt hlow, addr_data_or]
    _ = _ := (Nat.or_assoc ..).symm

/-- The word of a read as the one field of 30 R80. -/
theorem readWord_eq_shiftLeft (a : Addr) : readWord a = a.toNat <<< 8 := (Nat.shiftLeft_eq a.toNat 8).symm

/-- The 25 bits of a write's word. -/
theorem ofNat_writeWord (a : Addr) (d : Byte) : BitVec.ofNat 25 (writeWord a d) = (1 : BitVec 1) ++ a ++ d := by
  apply BitVec.eq_of_toNat_eq
  rw [BitVec.toNat_ofNat, Nat.mod_eq_of_lt (Nat.not_le.1 (writeWord_lt a d)), writeWord_eq_or]
  symm
  calc ((1 : BitVec 1) ++ a ++ d).toNat
    _ = (1 <<< 16 ||| a.toNat) <<< 8 ||| d.toNat := by rw [BitVec.toNat_append, BitVec.toNat_append]; rfl
    _ = _ := by rw [Nat.shiftLeft_or_distrib]; rfl

/-- The 25 bits of a read's word. -/
theorem ofNat_readWord (a : Addr) : BitVec.ofNat 25 (readWord a) = (0 : BitVec 1) ++ a ++ (0 : BitVec 8) := by
  apply BitVec.eq_of_toNat_eq
  have hlt : readWord a < 2 ^ 25 := by simpa using readWord_lt a 0
  rw [BitVec.toNat_ofNat, Nat.mod_eq_of_lt hlt, readWord_eq_shiftLeft]
  symm
  calc ((0 : BitVec 1) ++ a ++ (0 : BitVec 8)).toNat
    _ = (0 <<< 16 ||| a.toNat) <<< 8 ||| 0 := by rw [BitVec.toNat_append, BitVec.toNat_append]; rfl
    _ = _ := by simp

/-- A presented word that encodes nothing is refused by name (log entry 6). -/
theorem Machine.step_present_of_error {s : State} {t : Nat} (hc : s.cfg.wf = true)
    (hd : decode s.decodeCtx t = .error .readCarriesData) : step (s.present t) = .refused .notATransaction := by
  have hp : fetch (s.present t) = some (.word t, s) := rfl
  have hc' : (s.present t).cfg.wf = true := hc
  simp [step, hc', hp, decodeInput, hd]

end Sys2Proof
end

section
/-! PROOFS. 30_encoding, the statements. -/

namespace Sys2Proof.EncodingProofs

open Sys2Proof Sys2Proof.Machine Sys2Proof.Claims

/-- Settles O1: `decode_encode`, the case of each row being its region of the decoder. -/
theorem decodeInvertsEncode : Obligations.DecodeInvertsEncode :=
  fun _ i => decode_encode i

/-- Settles O2: `decode_encodesIn`, from the three kinds of word. -/
theorem encodeInvertsDecode : Obligations.EncodeInvertsDecode :=
  fun _ _ _ => decode_encodesIn

/-- Settles O3: each word is the encoding of its instruction, a selected row. -/
theorem specWordsDecode : Obligations.SpecWordsDecode :=
  ⟨decode_encode (.wMode 0x83) rfl rfl, decode_encode .rFpgadata rfl rfl, decode_encode (.mbc5Romb0 0x2FFF 0x05) rfl rfl,
    decode_encode (.wRamkind 1 0x06) rfl rfl, decode_encode (.wRomlo 3 0x7F) rfl rfl, decode_encode (.wEsptx 0x00) rfl rfl,
    decode_encode (.wMem 0xA000 0x12) rfl rfl, decode_encode (.rMem 0x4567) rfl rfl, decode_encode (.rFall 0x0040) rfl rfl,
    decode_encode (.refuseNotDecoded 0 0x8000 0) rfl rfl, decode_encode (.refuseIllFormedWord 0x2000000) rfl rfl⟩

/-- Settles O4: the three fields of the word, and the row of a word that is too long, executed. -/
theorem transactionWordLayout : Obligations.TransactionWordLayout := by
  refine ⟨fun a d => ⟨writeWord_eq_or a d, readWord_eq_shiftLeft a, ofNat_writeWord a d, ofNat_readWord a⟩, ?_⟩
  rintro s t hc ⟨k, hk, hbit⟩
  have hlong : 2 ^ 25 ≤ t := (Nat.pow_le_pow_right (by decide) hk).trans (Nat.ge_two_pow_of_testBit hbit)
  exact step_present s t _ hc (decode_of_illFormed _ hlong)

/-- Settles O8: the decoder refuses the word, and so does the step. -/
theorem stepRefusesReadWordWithData : Obligations.StepRefusesReadWordWithData := by
  intro s a d hc ha hd
  exact step_present_of_error hc ((decode_readData _ a d).trans (decodeRead_of_data _ ha hd))

end Sys2Proof.EncodingProofs
end

section
/-! PROOFS. 40_recompute, the layer below the statements: the bank registers as numbers, the targets of windows, the windows of
each layout, the mask of a cartridge-RAM window, and the accesses through an undefined window. -/

namespace Sys2Proof

/-- On an admitted configuration a power of two up to the cartridge RAM's size divides that size, a power of two times (00_scope
R8). -/
theorem Config.cartRamSize_eq_mul {c : Config} (hc : c.wf = true) {j : Nat} (h : 2 ^ j ≤ c.cartRamSize) :
    ∃ k, c.cartRamSize = 2 ^ k * 2 ^ j := by
  obtain ⟨-, -, h0 | ⟨n, hn⟩⟩ := c.wf_iff.1 hc
  · have := Nat.two_pow_pos j
    omega
  · have hjn : j ≤ n := (Nat.pow_le_pow_iff_right (by decide)).1 (hn ▸ h)
    exact ⟨n - j, by rw [hn, Nat.pow_sub_mul_pow 2 hjn]⟩

namespace Machine

open Sys2Proof.Claims

/-! ### The bank registers as numbers (10_state R26, R27) -/

theorem romIndex_eq_mod (v : BitVec 17) : romIndex v = v.toNat % 0x10000 := by
  simp [romIndex]

theorem ramIndex_eq_mod (v : BitVec 18) : ramIndex v = v.toNat % 0x10000 := by
  simp [ramIndex]

theorem romKind_eq_decide (v : BitVec 17) : romKind v = decide (0x10000 ≤ v.toNat) :=
  BitVec.msb_eq_decide v

theorem toNat_ramKind (v : BitVec 18) : (ramKind v).toNat = v.toNat / 0x10000 := by
  have := v.isLt
  simp only [ramKind, BitVec.extractLsb'_toNat, Nat.shiftRight_eq_div_pow]
  omega

/-! ### The target of a window by its register -/

/-- Kind 0 shows ROM at the unmasked index, kind 1 masked cartridge RAM (40 R106). -/
theorem romWinTarget_eq (c : Config) (v : BitVec 17) (ws : Nat) :
    romWinTarget c v ws =
      if v.toNat < 0x10000 then .rom (v.toNat * ws) else ramTarget c (v.toNat % 0x10000) ws := by
  rw [romWinTarget, romKind_eq_decide, romIndex_eq_mod]
  by_cases h : v.toNat < 0x10000
  · simp [h, Nat.mod_eq_of_lt h]
  · simp [h, Nat.not_lt.1 h]

section

variable {c : Config} {v : BitVec 18} {ws : Nat} {m : Bool}

/-- Kind 0 of a RAM-area window is program ROM (40 R109). -/
theorem ramWinTarget_of_rom (h : v.toNat / 0x10000 = 0) :
    ramWinTarget c v ws m = .rom (v.toNat % 0x10000 * ws) := by
  have hk : ramKind v = 0 := BitVec.eq_of_toNat_eq ((toNat_ramKind v).trans h)
  rw [ramWinTarget, if_pos hk, ramIndex_eq_mod]

/-- Kind 1 of a RAM-area window is masked cartridge RAM (40 R109). -/
theorem ramWinTarget_of_cram (h : v.toNat / 0x10000 = 1) :
    ramWinTarget c v ws m = ramTarget c (v.toNat % 0x10000) ws := by
  have hk : ramKind v = 1 := BitVec.eq_of_toNat_eq ((toNat_ramKind v).trans h)
  rw [ramWinTarget, hk, if_neg (by decide), if_pos rfl, ramIndex_eq_mod]

/-- Kinds 2 and 3 of a RAM-area window are FPGA RAM (40 R109, R110). -/
theorem ramWinTarget_of_fpga (h0 : v.toNat / 0x10000 ≠ 0) (h1 : v.toNat / 0x10000 ≠ 1) :
    ramWinTarget c v ws m = fpgaTarget c (v.toNat % 0x10000) m := by
  rw [← toNat_ramKind] at h0 h1
  have hk0 : ramKind v ≠ 0 := fun e => h0 (by rw [e]; rfl)
  have hk1 : ramKind v ≠ 1 := fun e => h1 (by rw [e]; rfl)
  rw [ramWinTarget, if_neg hk0, if_neg hk1, ramIndex_eq_mod]

end

/-! ### The mask of a cartridge-RAM window (40 R107) -/

theorem ramTarget_of_lt {c : Config} {ws : Nat} (idx : Nat) (h : c.cartRamSize < ws) :
    ramTarget c idx ws = .undef .ramMaskUndefined :=
  if_pos h

theorem ramTarget_of_le {c : Config} {ws : Nat} (idx : Nat) (h : ws ≤ c.cartRamSize) :
    ramTarget c idx ws = .cram ((idx &&& (c.cartRamSize / ws - 1)) * ws) :=
  if_neg (Nat.not_lt.2 h)

/-- The size of a window of any layout is a power of two. -/
theorem windowSize_eq_two_pow {ws : Nat} (h : ws ∈ [0x1000, 0x2000, 0x4000, 0x8000]) : ∃ j, ws = 2 ^ j := by
  simp only [List.mem_cons, List.not_mem_nil, or_false] at h
  obtain rfl | rfl | rfl | rfl := h
  · exact ⟨12, rfl⟩
  · exact ⟨13, rfl⟩
  · exact ⟨14, rfl⟩
  · exact ⟨15, rfl⟩

/-- A window of the layouts' sizes divides the cartridge RAM exactly, and its mask is the remainder. -/
theorem ramMask_eq_mod {c : Config} (hc : c.wf = true) {ws : Nat} (hws : ws ∈ [0x1000, 0x2000, 0x4000, 0x8000])
    (h : ws ≤ c.cartRamSize) (idx : Nat) :
    idx &&& (c.cartRamSize / ws - 1) = idx % (c.cartRamSize / ws) ∧ c.cartRamSize / ws * ws = c.cartRamSize := by
  obtain ⟨j, rfl⟩ := windowSize_eq_two_pow hws
  obtain ⟨k, hk⟩ := c.cartRamSize_eq_mul hc h
  have hdiv : c.cartRamSize / 2 ^ j = 2 ^ k := by rw [hk, Nat.mul_div_cancel _ (Nat.two_pow_pos j)]
  rw [hdiv]
  exact ⟨Nat.and_two_pow_sub_one_eq_mod idx k, hk.symm⟩

/-! ### The two layouts (40 R101) -/

section

variable {c : Config} {r q : Regs} {b : Bool} {w : Win}

theorem compatLayout_iff : compatLayout r = true ↔ r.bootRomMode = true ∨ r.mbc5CompatibilityMode = true :=
  Bool.or_eq_true_iff

theorem compatLayout_eq_false (hb : r.bootRomMode = false) (hc : r.mbc5CompatibilityMode = false) :
    compatLayout r = false := by
  rw [compatLayout, hb, hc]; rfl

/-- The compat layout, its registers as numbers (40 R102, R103, R111). -/
theorem layout_of_compat (h : compatLayout r = true) :
    layout c r b =
      { win := [⟨0x0000, 0x3FFF, .rom 0⟩, ⟨0x4000, 0x7FFF, .rom ((r.romBank 4).toNat % 0x10000 * 0x4000)⟩,
          ⟨0xA000, 0xBFFF,
            if r.ramEnabled then ramTarget c ((r.ramBank 0).toNat % 0x10000) 0x2000 else .unmapped⟩]
        regReadLow := b
        regReadHigh := !r.ramEnabled } := by
  rw [layout, if_pos h, compatRomWindows, compatRamWindow, romIndex_eq_mod, ramIndex_eq_mod]
  cases r.ramEnabled <;> rfl

/-- The extended layout: the ROM area, then the RAM area, the high read window closed (40 R104, R108, R111). -/
theorem layout_of_extended (h : compatLayout r = false) :
    layout c r b = { win := extRomWindows c r ++ extRamWindows c r, regReadLow := b, regReadHigh := false } :=
  if_neg (by rw [h]; decide)

/-- The host's answer reaches the low read window and nothing else of a layout (40 R111). -/
theorem layout_eq_setLow (c : Config) (r : Regs) (b b' : Bool) :
    layout c r b = { layout c r b' with regReadLow := b } := by
  cases h : compatLayout r
  · rw [layout_of_extended h, layout_of_extended h]
  · rw [layout_of_compat h, layout_of_compat h]

/-! ### The windows of the extended layout -/

/-- Every part of a partition of the ROM area has a size (40 R104). -/
theorem romPartition_size_pos : ∀ m : BitVec 3, ∀ p ∈ romPartition m, 0 < p.2 := by decide

/-- The slots a mode consults are those of its partition's start addresses (40 R105). -/
theorem consultedSlots_eq_map : ∀ m : BitVec 3, consultedSlots m = (romPartition m).map fun p => slotOf p.1 := by decide

/-- The target of a window of the ROM area is that of its own slot and size (40 R105, R106). -/
theorem extRomWindows_target (hm : r.romMode.toNat ≤ 4) (hw : w ∈ extRomWindows c r) :
    w.target = romWinTarget c (r.romBank (slotOf w.start)) (w.stop - w.start + 1) := by
  rw [extRomWindows, if_pos hm] at hw
  obtain ⟨p, hp, rfl⟩ := List.mem_map.1 hw
  have hpos := romPartition_size_pos _ p hp
  have hsize : p.1 + p.2 - 1 - p.1 + 1 = p.2 := by omega
  simp only [hsize]

/-- A reserved mode installs one undefined window (40 R112). -/
theorem extRomWindows_of_reserved (hm : 5 ≤ r.romMode.toNat) :
    extRomWindows c r = [⟨0x0000, 0x7FFF, .undef .romModeReserved⟩] :=
  if_neg (by omega)

/-- The windows of the RAM area lie above the ROM area; the target of each is that of its own slot and size (40 R108, R109). -/
theorem extRamWindows_mem (hw : w ∈ extRamWindows c r) :
    0xA000 ≤ w.start ∧ w.start ≤ w.stop ∧
      w.target =
        ramWinTarget c (if w.start = 0xB000 then r.ramBank 1 else r.ramBank 0) (w.stop - w.start + 1) r.ramMode := by
  unfold extRamWindows at hw
  cases hm : r.ramMode
  · rw [hm] at hw
    obtain rfl := List.mem_singleton.1 hw
    exact ⟨le_rfl, by norm_num, by norm_num⟩
  · simp only [hm, if_true, List.mem_cons, List.not_mem_nil, or_false] at hw
    obtain rfl | rfl := hw
    · exact ⟨le_rfl, by norm_num, by norm_num⟩
    · exact ⟨by norm_num, by norm_num, by norm_num⟩

/-- A window of the extended layout that begins below the RAM area is one of the ROM area. -/
theorem mem_extRomWindows_of_start (h : compatLayout r = false) (hw : w ∈ (layout c r b).win) (hlo : w.start < 0xA000) :
    w ∈ extRomWindows c r := by
  rw [layout_of_extended h] at hw
  refine (List.mem_append.1 hw).resolve_right fun hram => ?_
  have := (extRamWindows_mem hram).1
  omega

/-- A window of the extended layout that ends in the ROM area is one of that area. -/
theorem mem_extRomWindows_of_stop (h : compatLayout r = false) (hw : w ∈ (layout c r b).win) (hhi : w.stop ≤ 0x7FFF) :
    w ∈ extRomWindows c r := by
  rw [layout_of_extended h] at hw
  refine (List.mem_append.1 hw).resolve_right fun hram => ?_
  obtain ⟨hlo, hle, -⟩ := extRamWindows_mem hram
  omega

/-- A window of the extended layout that begins in the RAM area is one of that area. -/
theorem mem_extRamWindows_of_start (h : compatLayout r = false) (hw : w ∈ (layout c r b).win) (hlo : 0xA000 ≤ w.start) :
    w ∈ extRamWindows c r := by
  rw [layout_of_extended h] at hw
  refine (List.mem_append.1 hw).resolve_left fun hrom => ?_
  obtain ⟨hle, hhi, -⟩ := extRomWindows_mem c r w hrom
  omega

/-- The ROM area depends on the mode and on the slots the mode consults (40 R105). -/
theorem extRomWindows_congr (c : Config) (hm : r.romMode = q.romMode)
    (hs : ∀ k ∈ consultedSlots r.romMode, r.romBank k = q.romBank k) : extRomWindows c r = extRomWindows c q := by
  rw [extRomWindows, extRomWindows, ← hm]
  congr 1
  refine List.map_congr_left fun p hp => ?_
  have hslot : slotOf p.1 ∈ consultedSlots r.romMode := by
    rw [consultedSlots_eq_map]
    exact List.mem_map_of_mem hp
  rw [hs _ hslot]

/-- The RAM area depends on the mode, slot 0, and slot 1 in RAM mode 1 (40 R108). -/
theorem extRamWindows_congr (c : Config) (hm : r.ramMode = q.ramMode) (h0 : r.ramBank 0 = q.ramBank 0)
    (h1 : r.ramMode = true → r.ramBank 1 = q.ramBank 1) : extRamWindows c r = extRamWindows c q := by
  rw [extRamWindows, extRamWindows, ← hm, ← h0]
  cases hr : r.ramMode
  · rfl
  · rw [← h1 hr]

end

/-! ### The accesses through an undefined window (60 R261) -/

/-- Every mapped access through an undefined window records the fault, and the engine of a fall-through write still runs. -/
theorem exec_mapped_of_undef {s : State} {a : Addr} {w : Win} {f : ModelFault} (d : Byte) (hw : s.winOf a = some w)
    (ht : w.target = .undef f) :
    exec (.rMem a) s = .next (s.raiseFault f (.read a)) ∧
    exec (.rFall a) s = .next (s.raiseFault f (.read a)) ∧
    exec (.wMem a d) s = .next (s.raiseFault f (.write a d)) ∧
    exec (.wFall a d) s =
      .next { s.raiseFault f (.write a d) with mapping := layout s.cfg s.regs s.hostBootRomDisabled } :=
  ⟨mappedRead_of_undef hw ht, mappedRead_of_undef hw ht, mappedWrite_of_undef d hw ht,
    execWFall_of_next (mappedWrite_of_undef d hw ht)⟩

/-- With a reserved mode in force the undefined window is the one that holds an address of the ROM area (40 R112). -/
theorem State.mappingCurrent.winOf_of_reserved {s : State} (hs : s.mappingCurrent) (hc : compatLayout s.regs = false)
    (hm : 5 ≤ s.regs.romMode.toNat) {a : Addr} (ha : a.toNat ≤ 0x7FFF) :
    s.winOf a = some ⟨0x0000, 0x7FFF, .undef .romModeReserved⟩ := by
  obtain ⟨w, hw, -⟩ := winOf_inside hs a (.inl ha)
  obtain ⟨hmem, hlo, -⟩ := s.winOf_some a w hw
  rw [hs] at hmem
  have hrom := mem_extRomWindows_of_start hc hmem (by omega)
  rw [extRomWindows_of_reserved hm] at hrom
  rw [hw, List.mem_singleton.1 hrom]

/-! ### The boot register (41 R135) -/

/-- With compat mode off a write of 0x00FF changes `bootRomMode`, then the engine runs. -/
theorem exec_wBoot_of_not_compat {s : State} (d : Byte) (h : s.regs.mbc5CompatibilityMode = false) :
    exec (.wBoot d) s = .next (s.withRegs fun r => { r with bootRomMode := d.getLsbD 0 }).silent.remap := by
  have hco : coFire 0x00FF d s = s := if_neg (by rw [h]; decide)
  have hx : exec (.wBoot d) s = .next (registerWrite 0x00FF d (fun s => s.withRegs fun r => putBoot r d) s) := rfl
  rw [hx, registerWrite, hco]
  rfl

end Machine

end Sys2Proof
end

section
/-! PROOFS. 40_recompute, the bounds of the windows: ranges that tile an area cover each of its addresses once, and those of a
layout tile its two areas (R116). -/

namespace Sys2Proof.Machine

open Sys2Proof Sys2Proof.Claims

/-! ### Ranges that tile an area -/

/-- The ranges fill `lo` to `hi - 1` one after the other. -/
def rangesTile : List (Nat × Nat) → Nat → Nat → Bool
  | [], lo, hi => lo == hi
  | p :: ps, lo, hi => p.1 == lo && decide (p.1 ≤ p.2) && rangesTile ps (p.2 + 1) hi

theorem rangesTile_cons {p : Nat × Nat} {ps : List (Nat × Nat)} {lo hi : Nat} :
    rangesTile (p :: ps) lo hi = true ↔ p.1 = lo ∧ p.1 ≤ p.2 ∧ rangesTile ps (p.2 + 1) hi = true := by
  simp [rangesTile, and_assoc]

theorem rangesTile_le {ps : List (Nat × Nat)} {lo hi : Nat} (h : rangesTile ps lo hi = true) : lo ≤ hi := by
  induction ps generalizing lo with
  | nil => exact (beq_iff_eq.1 h).le
  | cons p ps ih =>
    obtain ⟨rfl, hle, hps⟩ := rangesTile_cons.1 h
    have := ih hps
    omega

/-- Ranges that tile an area lie inside it. -/
theorem rangesTile_inside {ps : List (Nat × Nat)} {lo hi : Nat} (h : rangesTile ps lo hi = true) :
    ∀ p ∈ ps, lo ≤ p.1 ∧ p.1 ≤ p.2 ∧ p.2 < hi := by
  induction ps generalizing lo with
  | nil => exact fun _ hp => nomatch hp
  | cons p ps ih =>
    obtain ⟨rfl, hle, hps⟩ := rangesTile_cons.1 h
    refine List.forall_mem_cons.2 ⟨⟨le_rfl, hle, rangesTile_le hps⟩, fun x hx => ?_⟩
    obtain ⟨hlo, hx⟩ := ih hps x hx
    exact ⟨by omega, hx⟩

/-- Of ranges that tile an area one covers each address of it, and none any other address. -/
theorem countP_of_rangesTile {ps : List (Nat × Nat)} {lo hi : Nat} (h : rangesTile ps lo hi = true) (n : Nat) :
    ps.countP (fun p => decide (p.1 ≤ n ∧ n ≤ p.2)) = if lo ≤ n ∧ n < hi then 1 else 0 := by
  induction ps generalizing lo with
  | nil =>
    obtain rfl := beq_iff_eq.1 h
    exact (if_neg (by omega)).symm
  | cons p ps ih =>
    obtain ⟨rfl, hle, hps⟩ := rangesTile_cons.1 h
    have := rangesTile_le hps
    rw [List.countP_cons, ih hps]
    simp only [decide_eq_true_eq]
    split_ifs <;> omega

/-! ### The bounds of the windows of a mapping -/

/-- The (start, end) of every window, in the order of the mapping. -/
def Mapping.bounds (m : Mapping) : List (Nat × Nat) := m.win.map fun w => (w.start, w.stop)

theorem coverCount_eq_countP (m : Mapping) (n : Nat) :
    coverCount m n = m.bounds.countP fun p => decide (p.1 ≤ n ∧ n ≤ p.2) := by
  rw [Mapping.bounds, List.countP_map, List.countP_eq_length_filter]
  rfl

theorem romBounds_eq_filter (m : Mapping) : romBounds m = m.bounds.filter fun p => decide (p.2 ≤ 0x7FFF) := by
  rw [Mapping.bounds, List.filter_map]
  rfl

theorem ramBounds_eq_filter (m : Mapping) : ramBounds m = m.bounds.filter fun p => decide (0xA000 ≤ p.1) := by
  rw [Mapping.bounds, List.filter_map]
  rfl

/-! ### The bounds of a layout -/

/-- The bounds of the extended layout's ROM area (40 R104, R112). -/
def extRomBounds (romMode : BitVec 3) : List (Nat × Nat) :=
  if romMode.toNat ≤ 4 then (romPartition romMode).map fun p => (p.1, p.1 + p.2 - 1) else [(0x0000, 0x7FFF)]

/-- The bounds of a layout's ROM area (40 R102, R104, R112). -/
def romAreaBounds (r : Regs) : List (Nat × Nat) :=
  if compatLayout r then [(0x0000, 0x3FFF), (0x4000, 0x7FFF)] else extRomBounds r.romMode

/-- The bounds of a layout's RAM area (40 R103, R108). -/
def ramAreaBounds (r : Regs) : List (Nat × Nat) :=
  if !compatLayout r && r.ramMode then [(0xA000, 0xAFFF), (0xB000, 0xBFFF)] else [(0xA000, 0xBFFF)]

theorem extRomBounds_tile : ∀ m : BitVec 3, rangesTile (extRomBounds m) 0x0000 0x8000 = true := by decide

theorem extRomWindows_bounds (c : Config) (r : Regs) :
    ((extRomWindows c r).map fun w => (w.start, w.stop)) = extRomBounds r.romMode := by
  unfold extRomWindows extRomBounds
  split
  · exact List.map_map
  · rfl

theorem extRamWindows_bounds (c : Config) (r : Regs) :
    ((extRamWindows c r).map fun w => (w.start, w.stop)) =
      if r.ramMode then [(0xA000, 0xAFFF), (0xB000, 0xBFFF)] else [(0xA000, 0xBFFF)] := by
  unfold extRamWindows
  split <;> rfl

section

variable (c : Config) (r : Regs) (b : Bool)

theorem layout_bounds : (layout c r b).bounds = romAreaBounds r ++ ramAreaBounds r := by
  unfold Mapping.bounds romAreaBounds ramAreaBounds
  cases h : compatLayout r
  · rw [layout_of_extended h, List.map_append, extRomWindows_bounds, extRamWindows_bounds]
    rfl
  · rw [layout_of_compat h]
    rfl

theorem romAreaBounds_tile : rangesTile (romAreaBounds r) 0x0000 0x8000 = true := by
  unfold romAreaBounds
  split
  · rfl
  · exact extRomBounds_tile r.romMode

theorem ramAreaBounds_tile : rangesTile (ramAreaBounds r) 0xA000 0xC000 = true := by
  unfold ramAreaBounds
  split <;> rfl

/-- How many windows of a layout cover an address: one in the two areas, none elsewhere (40 R116). -/
theorem coverCount_layout (n : Nat) :
    coverCount (layout c r b) n = if n ≤ 0x7FFF ∨ (0xA000 ≤ n ∧ n ≤ 0xBFFF) then 1 else 0 := by
  rw [coverCount_eq_countP, layout_bounds, List.countP_append, countP_of_rangesTile (romAreaBounds_tile r),
    countP_of_rangesTile (ramAreaBounds_tile r)]
  split_ifs <;> omega

theorem romBounds_layout : romBounds (layout c r b) = romAreaBounds r := by
  have hrom : ∀ p ∈ romAreaBounds r, decide (p.2 ≤ 0x7FFF) = true := fun p hp => by
    have := rangesTile_inside (romAreaBounds_tile r) p hp
    exact decide_eq_true (by omega)
  have hram : ∀ p ∈ ramAreaBounds r, ¬ decide (p.2 ≤ 0x7FFF) = true := fun p hp => by
    have := rangesTile_inside (ramAreaBounds_tile r) p hp
    exact mt of_decide_eq_true (by omega)
  rw [romBounds_eq_filter, layout_bounds, List.filter_append, List.filter_eq_self.2 hrom, List.filter_eq_nil_iff.2 hram,
    List.append_nil]

theorem ramBounds_layout : ramBounds (layout c r b) = ramAreaBounds r := by
  have hrom : ∀ p ∈ romAreaBounds r, ¬ decide (0xA000 ≤ p.1) = true := fun p hp => by
    have := rangesTile_inside (romAreaBounds_tile r) p hp
    exact mt of_decide_eq_true (by omega)
  have hram : ∀ p ∈ ramAreaBounds r, decide (0xA000 ≤ p.1) = true := fun p hp =>
    decide_eq_true (rangesTile_inside (ramAreaBounds_tile r) p hp).1
  rw [ramBounds_eq_filter, layout_bounds, List.filter_append, List.filter_eq_nil_iff.2 hrom, List.filter_eq_self.2 hram,
    List.nil_append]

end

end Sys2Proof.Machine
end

section
/-! PROOFS. 40_recompute, the statements. -/

namespace Sys2Proof.RecomputeProofs

open Sys2Proof Sys2Proof.Machine Sys2Proof.Claims

/-- Settles O25: the bounds of each area tile it, and they are those of the table, mode by mode. -/
theorem layoutTilesBothAreas : Obligations.LayoutTilesBothAreas := by
  intro c r b
  refine ⟨fun n hn => ?_, fun n hn => ?_, fun h => ?_, fun h => ?_⟩
  · rw [coverCount_layout, if_pos hn]
  · rw [coverCount_layout, if_neg hn]
  · rw [romBounds_layout, ramBounds_layout, romAreaBounds, ramAreaBounds, h]
    exact ⟨rfl, rfl⟩
  · rw [romBounds_layout, ramBounds_layout, romAreaBounds, ramAreaBounds, h]
    refine ⟨?_, rfl⟩
    generalize r.romMode = m
    revert m
    decide

/-- Settles O26: the RAM's size and the window's are powers of two, so that the mask is the remainder. -/
theorem cartRamTargetWrapsInside : Obligations.CartRamTargetWrapsInside := by
  refine ⟨fun c idx ws hc hws => ⟨ramTarget_of_lt idx, fun hle => ?_⟩, ?_, rfl, rfl, rfl, rfl⟩
  · obtain ⟨hmod, hdiv⟩ := ramMask_eq_mod hc hws hle idx
    obtain ⟨j, hj⟩ := windowSize_eq_two_pow hws
    exact ⟨ramTarget_of_le idx hle, hmod, hdiv,
      ramTarget_inside c idx ws _ (hj ▸ Nat.two_pow_pos j) (ramTarget_of_le idx hle)⟩
  · intro s a d w c idx ws hw ht hlt
    exact exec_mapped_of_undef d hw (ht.trans (ramTarget_of_lt idx hlt))

/-- Settles O28: the slot, kind and size of each window of the ROM area; the reserved modes have one window. -/
theorem extendedRomWindows : Obligations.ExtendedRomWindows := by
  intro c r b hb hcm
  have hc := compatLayout_eq_false hb hcm
  refine ⟨layout_regReadLow c r b, by rw [layout_of_extended hc], fun w hw hhi hm => ?_, fun hm w hw hhi => ?_⟩
  · rw [extRomWindows_target hm (mem_extRomWindows_of_stop hc hw hhi)]
    exact romWinTarget_eq ..
  · have hrom := mem_extRomWindows_of_stop hc hw hhi
    rw [extRomWindows_of_reserved hm] at hrom
    exact List.mem_singleton.1 hrom

/-- Settles O29: the slot and size of each window of the RAM area, then its target kind by kind. -/
theorem extendedRamWindows : Obligations.ExtendedRamWindows := by
  intro c r b hb hcm w hw hlo v idx
  obtain ⟨-, -, ht⟩ := extRamWindows_mem (mem_extRamWindows_of_start (compatLayout_eq_false hb hcm) hw hlo)
  have htarget : w.target = ramWinTarget c v (w.stop - w.start + 1) r.ramMode := ht
  rw [htarget]
  clear_value v
  split
  case h_1 hk => exact ramWinTarget_of_rom hk
  case h_2 hk => exact ramWinTarget_of_cram hk
  case h_3 h0 h1 => exact ramWinTarget_of_fpga h0 h1

/-- Settles O31: the compat layout written out reads three numbers; the extended one is its two areas. -/
theorem unconsultedRegistersDoNotMatter : Obligations.UnconsultedRegistersDoNotMatter := by
  intro c r q b
  refine ⟨fun hr hq hen hrom hram => ?_, fun hr hq hrm ham hslots h0 h1 => ?_⟩
  · rw [layout_of_compat hr, layout_of_compat hq, hen, hrom, hram]
  · rw [layout_of_extended hr, layout_of_extended hq, extRomWindows_congr c hrm hslots, extRamWindows_congr c ham h0 h1]

/-- Settles O32: the window that holds the address is the undefined one of the reserved modes. -/
theorem reservedRomModeFaultsOnAccess : Obligations.ReservedRomModeFaultsOnAccess := by
  intro s a d hs hb hcm hm ha
  exact exec_mapped_of_undef d (hs.winOf_of_reserved (compatLayout_eq_false hb hcm) hm ha) rfl

/-- Settles O34: both writes change `bootRomMode` alone and install the layout of the register state they leave. -/
theorem bootModeOverridesAndReverts : Obligations.BootModeOverridesAndReverts := by
  intro s d e hd he hcm
  refine ⟨_, _, exec_wBoot_of_not_compat d hcm, exec_wBoot_of_not_compat e hcm, ?_, ?_, ?_, ?_⟩
  · rw [hd, State.remap_mapping, romBounds_layout]
    rfl
  · rw [hd]; rfl
  · rw [he]; rfl
  · rw [he]; rfl

/-- Settles O27: the compat layout, forced by either flag. -/
theorem compatLayoutIsForced : Obligations.CompatLayoutIsForced :=
  fun _ _ _ h => layout_of_compat (compatLayout_iff.2 h)

/-- Settles O33: the engine reads nothing that it writes; against a current M it differs in the host's answer alone. -/
theorem recomputeIsIdempotent : Obligations.RecomputeIsIdempotent := by
  intro s
  refine ⟨s.silent.remap, rfl, rfl, fun _ => ⟨rfl, rfl⟩, rfl, fun hs => ?_⟩
  calc layout s.cfg s.regs s.hostBootRomDisabled
    _ = { layout s.cfg s.regs s.mapping.regReadLow with regReadLow := s.hostBootRomDisabled } := layout_eq_setLow ..
    _ = _ := by rw [← hs]

end Sys2Proof.RecomputeProofs
end

section
/-! PROOFS. 41_register_decoder, the layer below the statements: how the words of the register map read, and what a register
write that touches no storage leaves. -/

namespace Sys2Proof

open Sys2Proof.Machine Sys2Proof.Claims

/-! ### How the words read -/

/-- The word of an extended register encodes its row (30 R89). -/
theorem encodes_extended {a : Addr} {d : Byte} {i : Instr} (h : extendedRow a d = some i) : Encodes (writeWord a d) i :=
  fun ctx => decode_extended ctx h

/-- The word of a read below 0x0100 encodes its row of the register read map (30 R88). -/
theorem encodesRead_readRow {a : Addr} (ha : a.toNat ≤ 0x00FF) : EncodesRead (readWord a) a (readRow a) := by
  intro ctx
  rw [decode_read, decodeRead_of_decoded ctx (.inl (by omega)), ctx.readWindowOpen_low ha]

/-- The legacy matcher has no fall-through row (42 R150). -/
theorem legacyRow_ne_wFall (a : Addr) (d : Byte) : legacyRow a d ≠ .wFall a d := by
  unfold legacyRow
  dsimp only
  repeat' split
  all_goals exact Instr.noConfusion

/-- The word of a write that no extended register claims falls through exactly while compat mode is off (41 R136). -/
theorem decode_eq_wFall_iff {ctx : DecodeCtx} {a : Addr} (d : Byte) (ha : a.toNat ≤ 0x5FFF) (he : a.isExtended = false) :
    decode ctx (writeWord a d) = .ok (.wFall a d) ↔ ctx.compat = false := by
  rw [decode_write, decodeWrite_of_unclaimed ctx ha he]
  cases ctx.compat <;> simp [legacyRow_ne_wFall]

namespace Machine

/-! ### Register writes that touch no storage -/

/-- A register write whose rule changes S alone: the latch, the rule, the engine (41 R133). -/
theorem registerWrite_withRegs {a : Addr} (ha : a.toNat < 0x2000) (d : Byte) (f : Regs → Regs) (s : State) :
    registerWrite a d (·.withRegs f) s = (s.withRegs fun r => f (r.latch d)).silent.remap :=
  registerWrite_eq a d _ s ha

/-- Such a write has the frame of a register write, whatever it makes of S (41 R138). -/
theorem registerWriteFrame_withRegs (s : State) (f : Regs → Regs) : RegisterWriteFrame s (s.withRegs f).silent.remap :=
  ⟨rfl, fun _ => ⟨rfl, rfl⟩⟩

/-- W.MODE (41 R134), not ignored in compat mode. -/
theorem exec_wMode (d : Byte) (s : State) :
    exec (.wMode d) s = .next (s.withRegs fun r => putMode (r.latch d) d).silent.remap :=
  congrArg Host.Outcome.next (registerWrite_withRegs (by decide) d (putMode · d) s)

/-- W.BOOT in every mode (41 R135). -/
theorem exec_wBoot (d : Byte) (s : State) :
    exec (.wBoot d) s = .next (s.withRegs fun r => putBoot (r.latch d) d).silent.remap :=
  congrArg Host.Outcome.next (registerWrite_withRegs (by decide) d (putBoot · d) s)

/-- The fields of the mode byte as numbers (30 R83). -/
theorem putMode_eq (r : Regs) (d : Byte) :
    putMode r d =
      { r with
        ramMode := decide (0x80 ≤ d.toNat)
        mbc5CompatibilityMode := decide (d.toNat / 8 % 2 = 1)
        romMode := BitVec.ofNat 3 (d.toNat % 8) } := by
  have h7 : d.getLsbD 7 = decide (0x80 ≤ d.toNat) := d.msb_eq_decide
  have h3 : d.getLsbD 3 = decide (d.toNat / 8 % 2 = 1) := Nat.testBit_eq_decide_div_mod_eq
  rw [putMode, h7, h3, ofNat_toNat_mod d 3 8 rfl, BitVec.setWidth_eq_extractLsb' (by decide)]

/-- The boot flag is the parity of the data byte (41 R135). -/
theorem putBoot_eq (r : Regs) (d : Byte) : putBoot r d = { r with bootRomMode := decide (d.toNat % 2 = 1) } :=
  congrArg (fun b => { r with bootRomMode := b }) (Nat.testBit_zero d.toNat)

end Machine

end Sys2Proof
end

section
/-! PROOFS. 41_register_decoder, the statements. -/

namespace Sys2Proof.RegisterDecoderProofs

open Sys2Proof Sys2Proof.Machine Sys2Proof.Claims

/-- Settles O37: the mapped write by the target of the window, then the engine on what it left. -/
theorem fallThroughWriteResult : Obligations.FallThroughWriteResult := by
  intro s a d w hwf hw
  refine ⟨fun ctx => decode_eq_wFall_iff d, fun b ht => ?_, fun b ht hb => ?_, fun r ht => ?_⟩
  · have hdrop : mappedWrite a d s = .next s.silent := ht.elim (mappedWrite_of_rom d hw) (mappedWrite_of_unmapped d hw)
    exact execWFall_of_next hdrop
  · exact ⟨_, execWFall_of_next (mappedWrite_of_cram d hw ht hb), rfl, fun o => State.cramByte_cramSet hwf _ o d⟩
  · exact ⟨_, execWFall_of_next (mappedWrite_of_undef d hw ht), rfl, fun x => mem_insertRecord_iff x _ _⟩

/-- Settles O44: the mode byte's fields written into the latched S. -/
theorem modeWriteSetsThreeFields : Obligations.ModeWriteSetsThreeFields := by
  intro s d
  exact ⟨encodes_extended (a := 0x00A0) rfl, _, exec_wMode d s, registerWriteFrame_withRegs s _,
    putMode_eq (s.regs.latch d) d⟩

/-- Settles O45: the boot flag written into the latched S; the layout takes its low read window from the host. -/
theorem bootWriteSetsBootMode : Obligations.BootWriteSetsBootMode := by
  intro s d
  exact ⟨encodes_extended (a := 0x00FF) rfl, _, exec_wBoot d s, registerWriteFrame_withRegs s _,
    putBoot_eq (s.regs.latch d) d, layout_regReadLow ..⟩

/-- Settles O55: the word's two readings, and the step on it under the open window. -/
theorem versionRead : Obligations.VersionRead := by
  intro s
  have hread : EncodesRead 0x000CA00 0x00CA .rVersion := encodesRead_readRow (a := 0x00CA) (by decide)
  refine ⟨hread, rfl, fun hc hlow => step_present s _ .rVersion hc ?_⟩
  have hopen : s.decodeCtx.regReadLow = true := hlow
  rw [hread, if_pos hopen]

end Sys2Proof.RegisterDecoderProofs
end

section
/-! PROOFS. 42_bank_select, the layer below the statements: each operand form bit by bit, a field written into a bank register
bit by bit, and what every bank-select write answers. -/

namespace Sys2Proof.Machine

open Sys2Proof Sys2Proof.Claims

/-! ### A field written into a register -/

section
variable {n m k b : Nat}

/-- The field is the low part. -/
theorem getLsbD_replaceLow (v : BitVec n) (x : BitVec k) (hb : b < k + m) :
    (v.extractLsb' k m ++ x).getLsbD b = if b < k then x.getLsbD b else v.getLsbD b := by
  split
  · rw [BitVec.getLsbD_append, if_pos ‹_›]
  · rw [getLsbD_extractLsb'_append v k m x (by omega) hb, Nat.add_sub_cancel' (by omega)]

/-- The field is the high part. -/
theorem getLsbD_replaceHigh (v : BitVec n) (x : BitVec m) :
    (x ++ v.extractLsb' 0 k).getLsbD b = if k ≤ b then x.getLsbD (b - k) else v.getLsbD b := by
  split
  · exact getLsbD_append_of_le x _ ‹_›
  · rw [getLsbD_append_extractLsb' v 0 k x (by omega), Nat.zero_add]

/-- The field stands between two parts that are kept. -/
theorem getLsbD_replaceMiddle {lo : Nat} (v : BitVec n) (x : BitVec k) (hb : b < lo + k + m) :
    (v.extractLsb' (lo + k) m ++ x ++ v.extractLsb' 0 lo).getLsbD b =
      if lo ≤ b ∧ b < lo + k then x.getLsbD (b - lo) else v.getLsbD b := by
  rw [getLsbD_replaceHigh]
  by_cases hlo : lo ≤ b
  · rw [if_pos hlo]
    split
    · rw [BitVec.getLsbD_append, if_pos (by omega)]
    · rw [getLsbD_extractLsb'_append v _ m x (by omega) (by omega), show lo + k + (b - lo - k) = b by omega]
  · rw [if_neg hlo, if_neg (by omega)]

end

/-! ### The operand forms -/

section
variable {b : Nat}

/-- A bit of the low bits of the data byte. -/
theorem getLsbD_lowBits (d : Byte) (k : Nat) (hb : b < k) : (d.extractLsb' 0 k).getLsbD b = d.getLsbD b := by
  rw [BitVec.getLsbD_extractLsb', decide_eq_true hb, Bool.true_and, Nat.zero_add]

/-- `v[16] <- d[0]` (42 R156). -/
theorem getLsbD_putRomKind (v : BitVec 17) (d : Byte) (hb : b < 17) :
    (putRomKind v d).getLsbD b = if b = 16 then d.getLsbD 0 else v.getLsbD b :=
  (getLsbD_replaceHigh v _).trans <| if_ctx_congr (by omega)
    (fun _ => (getLsbD_lowBits d 1 (by omega)).trans (congrArg d.getLsbD (by omega))) fun _ => rfl

/-- `v[15:8] <- d` (42 R158). -/
theorem getLsbD_putRomMid (v : BitVec 17) (d : Byte) (hb : b < 17) :
    (putRomMid v d).getLsbD b = if 8 ≤ b ∧ b ≤ 15 then d.getLsbD (b - 8) else v.getLsbD b :=
  (getLsbD_replaceMiddle (lo := 8) v d hb).trans (if_congr (by omega) rfl rfl)

/-- `v[7:0] <- d` (42 R160, R152). -/
theorem getLsbD_putRomLow (v : BitVec 17) (d : Byte) (hb : b < 17) :
    (putRomLow v d).getLsbD b = if b < 8 then d.getLsbD b else v.getLsbD b :=
  getLsbD_replaceLow v d hb

/-- `v[8] <- d[0]` (42 R153). -/
theorem getLsbD_putRomBit8 (v : BitVec 17) (d : Byte) (hb : b < 17) :
    (putRomBit8 v d).getLsbD b = if b = 8 then d.getLsbD 0 else v.getLsbD b :=
  (getLsbD_replaceMiddle (lo := 8) v _ hb).trans <| if_ctx_congr (by omega)
    (fun _ => (getLsbD_lowBits d 1 (by omega)).trans (congrArg d.getLsbD (by omega))) fun _ => rfl

/-- `v[17:16] <- d[1:0]` (42 R157). -/
theorem getLsbD_putRamKind (v : BitVec 18) (d : Byte) (hb : b < 18) :
    (putRamKind v d).getLsbD b = if 16 ≤ b ∧ b ≤ 17 then d.getLsbD (b - 16) else v.getLsbD b :=
  (getLsbD_replaceHigh v _).trans <| if_ctx_congr (by omega)
    (fun _ => getLsbD_lowBits d 2 (by omega)) fun _ => rfl

/-- `v[9:8] <- d[1:0]` (42 R159): bits 15:10 are kept. -/
theorem getLsbD_putRamMid (v : BitVec 18) (d : Byte) (hb : b < 18) :
    (putRamMid v d).getLsbD b = if 8 ≤ b ∧ b ≤ 9 then d.getLsbD (b - 8) else v.getLsbD b :=
  (getLsbD_replaceMiddle (lo := 8) v _ hb).trans <| if_ctx_congr (by omega)
    (fun _ => getLsbD_lowBits d 2 (by omega)) fun _ => rfl

/-- `v[7:0] <- d` (42 R161). -/
theorem getLsbD_putRamLow (v : BitVec 18) (d : Byte) (hb : b < 18) :
    (putRamLow v d).getLsbD b = if b < 8 then d.getLsbD b else v.getLsbD b :=
  getLsbD_replaceLow v d hb

/-- `v[7:0] <- zext_8(d[3:0])` (42 R154): bits 7:4 become 0. -/
theorem getLsbD_putRamLowNibble (v : BitVec 18) (d : Byte) (hb : b < 18) :
    (putRamLowNibble v d).getLsbD b = if b < 8 then decide (b < 4) && d.getLsbD b else v.getLsbD b := by
  unfold putRamLowNibble
  by_cases h4 : b < 4
  · rw [getLsbD_append_extractLsb' d 0 4 _ h4, Nat.zero_add, if_pos (by omega), decide_eq_true h4, Bool.true_and]
  · rw [getLsbD_append_of_le _ _ (by omega), decide_eq_false h4, Bool.false_and]
    split
    · rw [BitVec.getLsbD_append, if_pos (by omega)]
      exact BitVec.getLsbD_zero
    · rw [getLsbD_extractLsb'_append v 8 10 _ (by omega) (by omega), show 8 + (b - 4 - 4) = b by omega]

end

/-! ### A bank register written through an operand form, bit by bit -/

/-- While compat mode is on the whole register is kept (42 R155). -/
theorem Regs.putRomBank_eq (r : Regs) (i : BitVec 3) (put : BitVec 17 → Byte → BitVec 17) (d : Byte) :
    r.putRomBank i put d = if r.mbc5CompatibilityMode then r else r.setRomBank i (put (r.romBank i) d) := by
  unfold Regs.putRomBank
  split <;> rfl

/-- While compat mode is on the whole register is kept (42 R155). -/
theorem Regs.putRamBank_eq (r : Regs) (j : BitVec 1) (put : BitVec 18 → Byte → BitVec 18) (d : Byte) :
    r.putRamBank j put d = if r.mbc5CompatibilityMode then r else r.setRamBank j (put (r.ramBank j) d) := by
  unfold Regs.putRamBank
  split <;> rfl

/-! In the four lemmas below bit `b` is `x` where `P` says that the operand form writes it, and is kept elsewhere. -/

section
variable {r : Regs} {d : Byte} {b : Nat} {P : Prop} [Decidable P] {x : Bool}

theorem getLsbD_setRomBank {i : BitVec 3} {put : BitVec 17 → Byte → BitVec 17}
    (hput : ∀ v, (put v d).getLsbD b = if P then x else v.getLsbD b) (k : BitVec 3) :
    ((r.setRomBank i (put (r.romBank i) d)).romBank k).getLsbD b =
      if k = i ∧ P then x else (r.romBank k).getLsbD b := by
  rw [Regs.romBank_setRomBank]
  by_cases hk : k = i
  · subst hk
    simp [hput]
  · simp [hk, Ne.symm hk]

theorem getLsbD_putRomBank {i : BitVec 3} {put : BitVec 17 → Byte → BitVec 17}
    (hput : ∀ v, (put v d).getLsbD b = if P then x else v.getLsbD b) (k : BitVec 3) :
    ((r.putRomBank i put d).romBank k).getLsbD b =
      if r.mbc5CompatibilityMode = false ∧ k = i ∧ P then x else (r.romBank k).getLsbD b := by
  rw [Regs.putRomBank_eq]
  cases hc : r.mbc5CompatibilityMode with
  | true => simp
  | false => simpa using getLsbD_setRomBank hput k

theorem getLsbD_setRamBank {j : BitVec 1} {put : BitVec 18 → Byte → BitVec 18}
    (hput : ∀ v, (put v d).getLsbD b = if P then x else v.getLsbD b) (k : BitVec 1) :
    ((r.setRamBank j (put (r.ramBank j) d)).ramBank k).getLsbD b =
      if k = j ∧ P then x else (r.ramBank k).getLsbD b := by
  rw [Regs.ramBank_setRamBank]
  by_cases hk : k = j
  · subst hk
    simp [hput]
  · simp [hk, Ne.symm hk]

theorem getLsbD_putRamBank {j : BitVec 1} {put : BitVec 18 → Byte → BitVec 18}
    (hput : ∀ v, (put v d).getLsbD b = if P then x else v.getLsbD b) (k : BitVec 1) :
    ((r.putRamBank j put d).ramBank k).getLsbD b =
      if r.mbc5CompatibilityMode = false ∧ k = j ∧ P then x else (r.ramBank k).getLsbD b := by
  rw [Regs.putRamBank_eq]
  cases hc : r.mbc5CompatibilityMode with
  | true => simp
  | false => simpa using getLsbD_setRamBank hput k

end

/-! ### What every bank-select write answers -/

/-- The ten rows of 42_bank_select: the four legacy writes and the six bank-field writes (`exec_bankWrite`). -/
def isBankWrite : Instr → Bool
  | .mbc5Ramg _ _ | .mbc5Romb0 _ _ | .mbc5Romb1 _ _ | .mbc5Ramb _ _ => true
  | .wRomkind _ _ | .wRommid _ _ | .wRomlo _ _ | .wRamkind _ _ | .wRammid _ _ | .wRamlo _ _ => true
  | _ => false

/-- A bank-field rule changes S alone (42 R155). -/
theorem unlessCompat_eq_withRegs (f : Regs → Regs) :
    unlessCompat f = (·.withRegs fun r => if r.mbc5CompatibilityMode then r else f r) := by
  funext s
  cases hc : s.regs.mbc5CompatibilityMode <;> simp [unlessCompat, State.withRegs, hc]

/-- The write of a bank field: the latch, the rule unless compat mode is on, the engine (41 R133). -/
theorem registerWrite_unlessCompat {a : Addr} (ha : a.toNat < 0x2000) (d : Byte) (f : Regs → Regs) (s : State) :
    registerWrite a d (unlessCompat f) s =
      (s.withRegs fun r => if (r.latch d).mbc5CompatibilityMode then r.latch d else f (r.latch d)).silent.remap := by
  rw [unlessCompat_eq_withRegs, registerWrite_withRegs ha]

/-- A bank-select write always completes, touches S alone and runs the engine. -/
theorem exec_bankWrite {x : Instr} (hx : isBankWrite x = true) (s : State) :
    ∃ t, exec x s = .next t ∧ RegisterWriteFrame s t ∧ t.regs = regsAfter s x := by
  have hexec : ∃ f, exec x s = .next (s.withRegs f).silent.remap := by
    cases x with
    | mbc5Ramg a d | mbc5Romb0 a d | mbc5Romb1 a d | mbc5Ramb a d => exact ⟨_, rfl⟩
    | wRomkind i d | wRommid i d | wRomlo i d =>
      exact ⟨_, congrArg Host.Outcome.next (registerWrite_unlessCompat (romSlotAddr_low _ i (by decide)) d _ s)⟩
    | wRamkind j d | wRammid j d | wRamlo j d =>
      exact ⟨_, congrArg Host.Outcome.next (registerWrite_unlessCompat (ramSlotAddr_low _ j (by decide)) d _ s)⟩
    | _ => cases hx
  obtain ⟨f, hf⟩ := hexec
  exact ⟨_, hf, registerWriteFrame_withRegs s f, exec_regs hf⟩

section
variable {x : Instr} {s : State} {e : Bool}

/-- A bank-select write that writes ROM bank registers, and `ramEnabled` at most. -/
theorem exec_romBankWrite {f : BitVec 3 → Nat → Bool} (hx : isBankWrite x = true)
    (hregs : regsAfter s x = { s.regs with romBanks := (regsAfter s x).romBanks, ramEnabled := e })
    (hbits : ∀ k b, b < 17 → ((regsAfter s x).romBank k).getLsbD b = f k b) :
    ∃ t, exec x s = .next t ∧ RegisterWriteFrame s t ∧ RomBanksBecome s t f e := by
  obtain ⟨t, ht, hframe, hr⟩ := exec_bankWrite hx s
  refine ⟨t, ht, hframe, ?_⟩
  unfold RomBanksBecome
  rw [hr]
  exact ⟨hregs, hbits⟩

/-- A bank-select write that writes RAM bank registers, and `ramEnabled` at most. -/
theorem exec_ramBankWrite {f : BitVec 1 → Nat → Bool} (hx : isBankWrite x = true)
    (hregs : regsAfter s x = { s.regs with ramBanks := (regsAfter s x).ramBanks, ramEnabled := e })
    (hbits : ∀ k b, b < 18 → ((regsAfter s x).ramBank k).getLsbD b = f k b) :
    ∃ t, exec x s = .next t ∧ RegisterWriteFrame s t ∧ RamBanksBecome s t f e := by
  obtain ⟨t, ht, hframe, hr⟩ := exec_bankWrite hx s
  refine ⟨t, ht, hframe, ?_⟩
  unfold RamBanksBecome
  rw [hr]
  exact ⟨hregs, hbits⟩

end

/-- In compat mode S after any of the six bank-field writes is the latched S (42 R155). -/
theorem regsAfter_bankField_of_compat {s : State} (hc : s.regs.mbc5CompatibilityMode = true) (i : BitVec 3)
    (j : BitVec 1) (d : Byte) :
    ∀ x ∈ [Instr.wRomkind i d, .wRommid i d, .wRomlo i d, .wRamkind j d, .wRammid j d, .wRamlo j d],
      isBankWrite x = true ∧ regsAfter s x = s.regs.latch d := by
  have hrom := fun put => ((s.regs.latch d).putRomBank_eq i put d).trans (if_pos hc)
  have hram := fun put => ((s.regs.latch d).putRamBank_eq j put d).trans (if_pos hc)
  simp [isBankWrite, regsAfter, hrom, hram]

/-! ### The words of the bank registers -/

/-- The word of a write to slot `i` of a ROM bank group: the slot's number goes to word bits 10:8 (30 R81). -/
theorem encodes_romSlot {base w : Nat} {i : BitVec 3} {d : Byte} {x : Instr} (hb : base ≤ 0xFFF8)
    (hw : w = 0x1000000 + base * 0x100) (hx : extendedRow (romSlotAddr base i) d = some x) :
    Encodes (w + 0x100 * i.toNat + d.toNat) x := by
  have hword : w + 0x100 * i.toNat + d.toNat = writeWord (romSlotAddr base i) d := by
    rw [writeWord, romSlotAddr_toNat hb]
    omega
  exact hword ▸ encodes_extended hx

/-- The word of a write to slot `j` of a RAM bank pair: the slot's number goes to word bit 8 (30 R81). -/
theorem encodes_ramSlot {base w : Nat} {j : BitVec 1} {d : Byte} {x : Instr} (hb : base ≤ 0xFFFE)
    (hw : w = 0x1000000 + base * 0x100) (hx : extendedRow (ramSlotAddr base j) d = some x) :
    Encodes (w + 0x100 * j.toNat + d.toNat) x := by
  have hword : w + 0x100 * j.toNat + d.toNat = writeWord (ramSlotAddr base j) d := by
    rw [writeWord, ramSlotAddr_toNat hb]
    omega
  exact hword ▸ encodes_extended hx

end Sys2Proof.Machine
end

section
/-! PROOFS. 42_bank_select, the statements. -/

namespace Sys2Proof.BankSelectProofs

open Sys2Proof Sys2Proof.Machine Sys2Proof.Claims

/-- Settles O40: each legacy row is read from its window, and writes its own bits of S. -/
theorem legacyWrites : Obligations.LegacyWrites := by
  intro s a d
  refine ⟨fun ctx hc => ⟨fun ha he => ?_, fun ha => ?_, fun ha => ?_, fun ha => ?_⟩, exec_bankWrite rfl s, ?_, ?_, ?_⟩
  · exact decode_encode (.mbc5Ramg a d) (by simp [Instr.wf, ha, he]) hc
  · exact decode_encode (.mbc5Romb0 a d) (decide_eq_true ha) hc
  · exact decode_encode (.mbc5Romb1 a d) (decide_eq_true ha) hc
  · exact decode_encode (.mbc5Ramb a d) (decide_eq_true ha) hc
  · exact exec_romBankWrite rfl rfl fun k b hb => getLsbD_setRomBank (fun v => getLsbD_putRomLow v d hb) k
  · exact exec_romBankWrite rfl rfl fun k b hb => getLsbD_setRomBank (fun v => getLsbD_putRomBit8 v d hb) k
  · exact exec_ramBankWrite rfl rfl fun k b hb => getLsbD_setRamBank (fun v => getLsbD_putRamLowNibble v d hb) k

/-- Settles O41: the rows of the three groups, and their fields written into the latched S unless compat mode is on. -/
theorem romBankFieldWrites : Obligations.RomBankFieldWrites := by
  intro s i d
  obtain ⟨hkind, hmid, hlow⟩ := extendedRow_romSlotAddr i d
  refine ⟨encodes_romSlot (by decide) rfl hkind, encodes_romSlot (by decide) rfl hmid,
    encodes_romSlot (by decide) rfl hlow, ?_, ?_, ?_⟩
  · exact exec_romBankWrite rfl rfl fun k b hb => getLsbD_putRomBank (fun v => getLsbD_putRomKind v d hb) k
  · exact exec_romBankWrite rfl rfl fun k b hb => getLsbD_putRomBank (fun v => getLsbD_putRomMid v d hb) k
  · exact exec_romBankWrite rfl rfl fun k b hb => getLsbD_putRomBank (fun v => getLsbD_putRomLow v d hb) k

/-- Settles O42: the rows of the three pairs, and their fields written into the latched S unless compat mode is on. -/
theorem ramBankFieldWrites : Obligations.RamBankFieldWrites := by
  intro s j d
  obtain ⟨hkind, hmid, hlow⟩ := extendedRow_ramSlotAddr j d
  refine ⟨encodes_ramSlot (by decide) rfl hkind, encodes_ramSlot (by decide) rfl hmid,
    encodes_ramSlot (by decide) rfl hlow, ?_, ?_, ?_⟩
  · exact exec_ramBankWrite rfl rfl fun k b hb => getLsbD_putRamBank (fun v => getLsbD_putRamKind v d hb) k
  · exact exec_ramBankWrite rfl rfl fun k b hb => getLsbD_putRamBank (fun v => getLsbD_putRamMid v d hb) k
  · exact exec_ramBankWrite rfl rfl fun k b hb => getLsbD_putRamBank (fun v => getLsbD_putRamLow v d hb) k

/-- Settles O43: in compat mode the latch is all that is left of a bank-field write. -/
theorem bankWritesIgnoredInCompat : Obligations.BankWritesIgnoredInCompat := by
  intro s i j d x hc hx
  obtain ⟨hbank, hregs⟩ := regsAfter_bankField_of_compat hc i j d x hx
  obtain ⟨t, ht, hframe, hr⟩ := exec_bankWrite hbank s
  refine ⟨t, ht, hframe, ?_⟩
  rw [hr, hregs, Regs.latch, if_pos hc, beq_eq_decide]

end Sys2Proof.BankSelectProofs
end

section
/-! PROOFS. 43_fpga_ram, the layer below the statements: the cursor as a number, what the rows at the cursor do, and what a
series of writes and a series of reads do. -/

namespace Sys2Proof.Machine

open Sys2Proof Sys2Proof.Claims

/-! ### The cursor as a number (43 R170, R172, R173) -/

/-- A concatenation as a number. -/
theorem append_eq_ofNat {m n : Nat} (x : BitVec m) (y : BitVec n) :
    x ++ y = BitVec.ofNat (m + n) (x.toNat * 2 ^ n + y.toNat) := by
  rw [← Nat.shiftLeft_eq, Nat.shiftLeft_add_eq_or_of_lt y.isLt, ← BitVec.toNat_append, BitVec.ofNat_toNat,
    BitVec.setWidth_eq]

theorem putCursorHigh_eq (c : BitVec 16) (d : Byte) :
    putCursorHigh c d = BitVec.ofNat 16 (d.toNat * 0x100 + c.toNat % 0x100) :=
  (append_eq_ofNat d _).trans (by rw [BitVec.extractLsb'_toNat]; rfl)

theorem putCursorLow_eq (c : BitVec 16) (d : Byte) :
    putCursorLow c d = BitVec.ofNat 16 (c.toNat / 0x100 * 0x100 + d.toNat) := by
  have hhigh : (c.extractLsb' 8 8).toNat = c.toNat / 0x100 := by
    have := c.isLt
    rw [BitVec.extractLsb'_toNat, Nat.shiftRight_eq_div_pow]
    omega
  exact (append_eq_ofNat _ d).trans (by rw [hhigh]; rfl)

/-- Both bytes written one after the other are the whole cursor. -/
theorem putCursorLow_putCursorHigh (c v : BitVec 16) :
    putCursorLow (putCursorHigh c (v.extractLsb' 8 8)) (v.extractLsb' 0 8) = v :=
  calc putCursorLow (putCursorHigh c (v.extractLsb' 8 8)) (v.extractLsb' 0 8)
    _ = v.extractLsb' 8 8 ++ v.extractLsb' 0 8 := congrArg (· ++ v.extractLsb' 0 8) BitVec.extractLsb'_append_eq_left
    _ = v.extractLsb' 0 16 := BitVec.extractLsb'_append_extractLsb'_eq_extractLsb' rfl
    _ = v := BitVec.extractLsb'_eq_self

/-- The advanced cursor (43 R170). -/
theorem cursor_add_increment (c : BitVec 16) (inc : Byte) : c + inc.setWidth 16 = BitVec.ofNat 16 (c.toNat + inc.toNat) := by
  rw [BitVec.ofNat_add, BitVec.ofNat_toNat, BitVec.ofNat_toNat, BitVec.setWidth_eq]

/-- The FPGA index counted from the advanced cursor: a wrap of the cursor at 65536 does not show in it (43 R170, R171). -/
theorem index_from_advanced (c : BitVec 16) (inc : Byte) (k : Nat) :
    ((c + inc.setWidth 16).toNat + k) % 0x2000 = (c.toNat + (inc.toNat + k)) % 0x2000 := by
  rw [cursor_add_increment, BitVec.toNat_ofNat]
  omega

/-! ### The registers -/

/-- W.CURHI in every mode (43 R172). -/
theorem exec_wCurhi (d : Byte) (s : State) :
    exec (.wCurhi d) s = .next (s.withRegs fun r =>
      { r.latch d with fpgaRamAutoRwAddress := putCursorHigh r.fpgaRamAutoRwAddress d }).silent.remap :=
  congrArg Host.Outcome.next (registerWrite_withRegs (by decide) d _ s)

/-- W.CURLO in every mode (43 R173). -/
theorem exec_wCurlo (d : Byte) (s : State) :
    exec (.wCurlo d) s = .next (s.withRegs fun r =>
      { r.latch d with fpgaRamAutoRwAddress := putCursorLow r.fpgaRamAutoRwAddress d }).silent.remap :=
  congrArg Host.Outcome.next (registerWrite_withRegs (by decide) d _ s)

/-- W.CURINC in every mode (43 R174). -/
theorem exec_wCurinc (d : Byte) (s : State) :
    exec (.wCurinc d) s =
      .next (s.withRegs fun r => { r.latch d with fpgaRamAutoRwIncrement := d }).silent.remap :=
  congrArg Host.Outcome.next (registerWrite_withRegs (by decide) d _ s)

/-- W.FPGADATA in every mode, whatever M is: the latch, the store, the advance, the engine (43 R175). -/
theorem exec_wFpgadata (d : Byte) (s : State) :
    exec (.wFpgadata d) s =
      .next (advance ((s.withRegs (·.latch d)).fpgaWrite (cursorIndex s.regs) d)).silent.remap :=
  congrArg Host.Outcome.next (registerWrite_eq 0x00B3 d _ s (by decide))

/-- R.FPGADATA: the byte at the cursor, then the advance, and no engine run (43 R176). -/
theorem exec_rFpgadata (s : State) :
    exec .rFpgadata s = .next (advance (s.ret (s.fpgaRead (cursorIndex s.regs)))) := rfl

/-- A byte stored in FPGA RAM is read back at its index, and every other index reads as before (10_state R38). -/
theorem State.fpgaRead_fpgaWrite {s : State} (hwf : Memory.wf s.cram) (i k : Nat) (d : Byte) :
    (s.fpgaWrite i d).fpgaRead k = if k = i then d else s.fpgaRead k :=
  (State.cramByte_cramSet hwf _ _ d).trans (if_congr Nat.add_left_cancel_iff rfl rfl)

/-! ### Series of accesses at the cursor -/

/-- The cursor set through its two registers: no storage and no increment changes (43 R172, R173). -/
theorem execAll_setCursor (v : BitVec 16) (s : State) :
    ∃ t, execAll [.wCurhi (v.extractLsb' 8 8), .wCurlo (v.extractLsb' 0 8)] s = .next t ∧
      t.regs.fpgaRamAutoRwAddress = v ∧ t.regs.fpgaRamAutoRwIncrement = s.regs.fpgaRamAutoRwIncrement ∧
      ∀ i, t.fpgaRead i = s.fpgaRead i := by
  simp only [execAll, exec_wCurhi, exec_wCurlo]
  exact ⟨_, rfl, putCursorLow_putCursorHigh _ v, rfl, fun _ => rfl⟩

/-- One write of a series: what the next write and the reads after it depend on (43 R175). -/
theorem exec_wFpgadata_next {s : State} (d : Byte) (hwf : Memory.wf s.cram) :
    ∃ t, exec (.wFpgadata d) s = .next t ∧ Memory.wf t.cram ∧
      t.regs.fpgaRamAutoRwIncrement = s.regs.fpgaRamAutoRwIncrement ∧
      t.regs.fpgaRamAutoRwAddress = s.regs.fpgaRamAutoRwAddress + s.regs.fpgaRamAutoRwIncrement.setWidth 16 ∧
      ∀ i, t.fpgaRead i = if i = s.regs.fpgaRamAutoRwAddress.toNat % 0x2000 then d else s.fpgaRead i := by
  refine ⟨_, exec_wFpgadata d s, Memory.write_wf _ hwf _ _, rfl, rfl, fun i => ?_⟩
  rw [← cursorIndex_eq_mod]
  exact State.fpgaRead_fpgaWrite hwf _ i d

/-- A series of writes with increment 1 keeps the increment and puts its bytes, in order, at the indices from the cursor on;
the other bytes of FPGA RAM read as before. -/
theorem execAll_wFpgadata (bs : List Byte) (s : State) (hwf : Memory.wf s.cram)
    (hinc : s.regs.fpgaRamAutoRwIncrement = 1) (hlen : bs.length ≤ 0x2000) :
    ∃ t, execAll (bs.map .wFpgadata) s = .next t ∧ t.regs.fpgaRamAutoRwIncrement = 1 ∧
      ∀ k < 0x2000, t.fpgaRead ((s.regs.fpgaRamAutoRwAddress.toNat + k) % 0x2000) =
        bs.getD k (s.fpgaRead ((s.regs.fpgaRamAutoRwAddress.toNat + k) % 0x2000)) := by
  induction bs generalizing s with
  | nil => exact ⟨s, rfl, hinc, fun _ _ => rfl⟩
  | cons b bs ih =>
    obtain ⟨u, hu, huwf, huinc, hucur, huread⟩ := exec_wFpgadata_next b hwf
    rw [hinc] at huinc hucur
    have hlen' : bs.length < 0x2000 := hlen
    obtain ⟨t, ht, htinc, htread⟩ := ih u huwf huinc hlen'.le
    have hindex (k : Nat) : (u.regs.fpgaRamAutoRwAddress.toNat + k) % 0x2000 =
        (s.regs.fpgaRamAutoRwAddress.toNat + (k + 1)) % 0x2000 := by
      rw [hucur, index_from_advanced, Nat.add_comm k]
      rfl
    simp only [hindex] at htread
    refine ⟨t, by simp only [List.map_cons, execAll, hu, ht], htinc, fun k hk => ?_⟩
    cases k with
    | zero =>
      -- The first byte is the one the rest of the series would reach last.
      have hlast := htread 0x1FFF (by decide)
      rw [List.getD_eq_default _ _ (by omega), huread, Nat.add_mod_right] at hlast
      simpa using hlast
    | succ k =>
      rw [htread k (by omega), huread, if_neg (by omega), List.getD_cons_succ]

/-- A series of reads returns the byte at the cursor, then what the series from the advanced cursor returns. -/
theorem readSeries_succ (n : Nat) (s : State) :
    readSeries (n + 1) s =
      (readSeries n (advance (s.ret (s.fpgaRead (cursorIndex s.regs))))).map (s.fpgaRead (cursorIndex s.regs) :: ·) := rfl

/-- A series of reads returns the bytes at the indices the cursor takes, for any increment. -/
theorem readSeries_eq (n : Nat) (s : State) :
    readSeries n s = some ((List.range n).map fun k =>
      s.fpgaRead ((s.regs.fpgaRamAutoRwAddress.toNat + k * s.regs.fpgaRamAutoRwIncrement.toNat) % 0x2000)) := by
  induction n generalizing s with
  | zero => rfl
  | succ n ih =>
    have hindex (c : BitVec 16) (inc : Byte) (k : Nat) :
        ((c + inc.setWidth 16).toNat + k * inc.toNat) % 0x2000 = (c.toNat + (k + 1) * inc.toNat) % 0x2000 := by
      rw [index_from_advanced, Nat.succ_mul, Nat.add_comm (k * _)]
    rw [readSeries_succ, ih, List.range_succ_eq_map, List.map_cons, List.map_map, cursorIndex_eq_mod, Nat.zero_mul]
    refine congrArg (fun l => some (_ :: l)) (List.map_congr_left fun k _ => ?_)
    exact congrArg s.fpgaRead (hindex _ _ k)

end Sys2Proof.Machine
end

section
/-! PROOFS. 43_fpga_ram, the statements. -/

namespace Sys2Proof.FpgaRamProofs

open Sys2Proof Sys2Proof.Machine Sys2Proof.Claims

/-- Settles O30: a window of the ROM area shows masked cartridge RAM, where it shows the allocation at all. -/
theorem romAreaNeverShowsFpgaRam : Obligations.RomAreaNeverShowsFpgaRam := by
  intro c r b w o hw hhi ht
  cases hc : compatLayout r with
  | true =>
    rw [layout_of_compat hc] at hw
    simp only [List.mem_cons, List.not_mem_nil, or_false] at hw
    obtain rfl | rfl | rfl := hw
    · cases ht
    · cases ht
    · exact absurd hhi (by norm_num)
  | false =>
    obtain ⟨-, -, hundef | ⟨v, hv⟩⟩ := extRomWindows_mem c r w (mem_extRomWindows_of_stop hc hw hhi)
    · rw [ht] at hundef; cases hundef
    · have := romWinTarget_inside c v _ o (Nat.succ_pos _) (hv.symm.trans ht)
      omega

/-- Settles O47: the store at the index of the old cursor, which the latch does not move. -/
theorem fpgaDataWriteStoresThenAdvances : Obligations.FpgaDataWriteStoresThenAdvances := by
  intro s d hwf
  refine ⟨encodes_extended (a := 0x00B3) rfl, _, exec_wFpgadata d s, rfl, ?_, fun o => ?_⟩
  · rw [← cursor_add_increment]; rfl
  · rw [← cursorIndex_eq_mod]
    exact State.cramByte_cramSet (s := s.withRegs (·.latch d)) hwf _ o d

/-- Settles O49: the reads return the bytes at the indices from the start on, where the writes put theirs. -/
theorem sequentialWritesReadBack : Obligations.SequentialWritesReadBack := by
  intro s bs hwf hinc hlen
  obtain ⟨t, ht, htinc, htread⟩ := execAll_wFpgadata bs s hwf hinc hlen
  obtain ⟨u, hu, hucur, huinc, huread⟩ := execAll_setCursor s.regs.fpgaRamAutoRwAddress t
  refine ⟨t, u, ht, hu, ?_⟩
  rw [readSeries_eq, hucur, huinc, htinc]
  refine congrArg some (List.ext_getElem (by simp) fun k _ hk => ?_)
  have hbyte := htread k (by omega)
  rw [List.getD_eq_getElem _ _ hk] at hbyte
  simpa [huread] using hbyte

/-- Settles O46: each register's own field written into the latched S. -/
theorem cursorWrites : Obligations.CursorWrites := by
  intro s d
  refine ⟨encodes_extended (a := 0x00B0) rfl, encodes_extended (a := 0x00B1) rfl, encodes_extended (a := 0x00B2) rfl,
    ⟨_, exec_wCurhi d s, registerWriteFrame_withRegs s _, ?_⟩,
    ⟨_, exec_wCurlo d s, registerWriteFrame_withRegs s _, ?_⟩,
    ⟨_, exec_wCurinc d s, registerWriteFrame_withRegs s _, rfl⟩⟩
  · rw [← putCursorHigh_eq]; rfl
  · rw [← putCursorLow_eq]; rfl

/-- Settles O48: the word's two readings; the read returns the byte at the old cursor. -/
theorem fpgaDataReadReturnsThenAdvances : Obligations.FpgaDataReadReturnsThenAdvances := by
  intro s
  refine ⟨encodesRead_readRow (a := 0x00B3) (by decide), _, exec_rFpgadata s, ?_, fun _ => ⟨rfl, rfl⟩⟩
  rw [← cursor_add_increment, ← cursorIndex_eq_mod]
  rfl

end Sys2Proof.FpgaRamProofs
end

section
/-! PROOFS. 44_bridge, the layer below the statements: the status bytes and the enable bits, what each row of the bridge
answers, what a transmission and a poll do, and the bridge's named state. -/

namespace Sys2Proof.Machine

open Sys2Proof Sys2Proof.Claims

/-! ### The status bytes and the fields of a data byte (30 R82, R86) -/

/-- A status byte is the flag at its bit, and 0 elsewhere (44 R196, R199). -/
theorem flagByte_eq_statusByte : ∀ (flag : Bool) (bit : Fin 8), flagByte flag bit = statusByte flag bit := by decide

/-- The byte read at 0x00F0 as a number (44 R195). -/
theorem espCfgByte_eq (r : Regs) : espCfgByte r = BitVec.ofNat 8 (2 * r.espIrqEnable.toNat + r.espEnable.toNat) := by
  have hbits : ∀ irq en : Bool, (0 : BitVec 6) ++ BitVec.ofBool irq ++ BitVec.ofBool en =
      BitVec.ofNat 8 (2 * irq.toNat + en.toNat) := by decide
  exact hbits r.espIrqEnable r.espEnable

/-- The enable bits as numbers (44 R194). -/
theorem putEspCfg_eq (r : Regs) (d : Byte) :
    putEspCfg r d =
      { r with espEnable := decide (d.toNat % 2 = 1), espIrqEnable := decide (d.toNat / 2 % 2 = 1) } := by
  have h0 : d.getLsbD 0 = decide (d.toNat % 2 = 1) := Nat.testBit_zero d.toNat
  have h1 : d.getLsbD 1 = decide (d.toNat / 2 % 2 = 1) := Nat.testBit_eq_decide_div_mod_eq
  rw [putEspCfg, h0, h1]

/-- The slot number of a data byte (44 R200, R201). -/
theorem slotBits_eq_mod (d : Byte) : d.extractLsb' 0 3 = BitVec.ofNat 3 (d.toNat % 8) := by
  rw [ofNat_toNat_mod d 3 8 rfl, BitVec.setWidth_eq_extractLsb' (by decide)]

/-! ### The register writes of the bridge -/

/-- W.ESPCFG in every mode (44 R194). -/
theorem exec_wEspcfg (d : Byte) (s : State) :
    exec (.wEspcfg d) s = .next (s.withRegs fun r => putEspCfg (r.latch d) d).silent.remap :=
  congrArg Host.Outcome.next (registerWrite_withRegs (by decide) d (putEspCfg · d) s)

/-- W.ESPRXADDR, with the bridge disabled too (44 R200). -/
theorem exec_wEsprxaddr (d : Byte) (s : State) :
    exec (.wEsprxaddr d) s =
      .next (s.withRegs fun r => { r.latch d with espRxAddress := d.extractLsb' 0 3 }).silent.remap :=
  congrArg Host.Outcome.next (registerWrite_withRegs (by decide) d _ s)

/-- W.ESPTXADDR, with the bridge disabled too (44 R201). -/
theorem exec_wEsptxaddr (d : Byte) (s : State) :
    exec (.wEsptxaddr d) s =
      .next (s.withRegs fun r => { r.latch d with espTxAddress := d.extractLsb' 0 3 }).silent.remap :=
  congrArg Host.Outcome.next (registerWrite_withRegs (by decide) d _ s)

section
variable {a : Addr} {s : State}

/-- A write that only warns while the bridge is disabled follows its rule while it is enabled (44 R197, R198). -/
theorem registerWrite_of_enabled (ha : a.toNat < 0x2000) (he : s.regs.espEnable = true) (d : Byte) (rule : State → State)
    (w : Warning) :
    registerWrite a d (fun u => if u.regs.espEnable then rule u else u.warn w) s =
      (rule (s.withRegs (·.latch d))).silent.remap := by
  rw [registerWrite_eq a d _ s ha]
  exact congrArg (State.remap <| State.silent ·) (if_pos he)

/-- The same write while the bridge is disabled: the latch, the warning, the engine (44 R197, R198). -/
theorem registerWrite_of_disabled (ha : a.toNat < 0x2000) (he : s.regs.espEnable = false) (d : Byte)
    (rule : State → State) (w : Warning) :
    registerWrite a d (fun u => if u.regs.espEnable then rule u else u.warn w) s =
      ((s.withRegs (·.latch d)).warn w).silent.remap := by
  rw [registerWrite_eq a d _ s ha]
  exact congrArg (State.remap <| State.silent ·) (if_neg (Bool.eq_false_iff.mp he))

/-- W.ESPACK with the bridge enabled (44 R197). -/
theorem exec_wEspack_of_enabled (he : s.regs.espEnable = true) (d : Byte) :
    exec (.wEspack d) s =
      .next (s.withRegs fun r => { r.latch d with espHasReceivedMessage := false }).silent.remap :=
  congrArg Host.Outcome.next (registerWrite_of_enabled (by decide) he d _ _)

/-- W.ESPACK with the bridge disabled (44 R197, 60 R263). -/
theorem exec_wEspack_of_disabled (he : s.regs.espEnable = false) (d : Byte) :
    exec (.wEspack d) s = .next ((s.withRegs (·.latch d)).warn .espDisabledAck).silent.remap :=
  congrArg Host.Outcome.next (registerWrite_of_disabled (by decide) he d _ _)

/-- W.ESPTX with the bridge enabled (44 R198). -/
theorem exec_wEsptx_of_enabled (he : s.regs.espEnable = true) (d : Byte) :
    exec (.wEsptx d) s = .next (transmit (s.withRegs (·.latch d))).silent.remap :=
  congrArg Host.Outcome.next (registerWrite_of_enabled (by decide) he d transmit _)

/-- W.ESPTX with the bridge disabled (44 R198, 60 R263). -/
theorem exec_wEsptx_of_disabled (he : s.regs.espEnable = false) (d : Byte) :
    exec (.wEsptx d) s = .next ((s.withRegs (·.latch d)).warn .espDisabledTx).silent.remap :=
  congrArg Host.Outcome.next (registerWrite_of_disabled (by decide) he d transmit _)

end

/-- A transmission sets the flag and pushes byte 0 of the outbound slot and as many bytes after it as byte 0 says: one series of
pushes (44 R193, 45 R242). -/
theorem transmit_eq (s : State) :
    transmit s =
      { s with
        regs := { s.regs with espMessageSent := true }
        log := s.log ++ (List.range ((s.fpgaRead (txBase s.regs)).toNat + 1)).map fun k =>
          LogEntry.push (s.fpgaRead (txBase s.regs + k)) } := by
  have hseries : transmit s =
      setSent true (pushMany ((s.fpgaRead (txBase s.regs)).toNat + 1) (txBase s.regs) (setSent false s)) := rfl
  rw [hseries, pushMany_eq]
  rfl

/-! ### The bridge's named state (44 R190, R203) -/

section
variable {s t : State} {r : Regs}

/-- A latched message decides the named state alone. -/
theorem linkState_of_latched (h : s.regs.espHasReceivedMessage = true) : linkState s = .inboundLatched := if_pos h

/-- Without a latched message the enable bit and the peer decide it. -/
theorem linkState_of_not_latched (h : s.regs.espHasReceivedMessage = false) :
    linkState s = if s.regs.espEnable && s.peer.dataReady then .inboundPending else .idle :=
  if_neg (Bool.eq_false_iff.mp h)

theorem linkState_eq_inboundLatched_iff : linkState s = .inboundLatched ↔ s.regs.espHasReceivedMessage = true := by
  refine ⟨fun h => ?_, linkState_of_latched⟩
  by_contra hm
  rw [linkState_of_not_latched (Bool.eq_false_iff.mpr hm)] at h
  split at h <;> cases h

/-- The named state reads three things of the state. -/
theorem linkState_congr (hr : t.regs = r) (hm : r.espHasReceivedMessage = s.regs.espHasReceivedMessage)
    (he : r.espEnable = s.regs.espEnable) (hp : t.peer = s.peer) : linkState t = linkState s := by
  unfold linkState
  rw [hr, hm, he, hp]

/-- A step that leaves the latched flag moves the named state between idle and pending at most. -/
theorem linkState_of_flag_kept (hr : t.regs = r) (hm : r.espHasReceivedMessage = s.regs.espHasReceivedMessage) :
    linkState t = if linkState s = .inboundLatched then .inboundLatched
      else if r.espEnable && t.peer.dataReady then .inboundPending else .idle := by
  subst hr
  split
  next hl => exact linkState_of_latched (hm.trans (linkState_eq_inboundLatched_iff.mp hl))
  next hl =>
    rw [linkState_eq_inboundLatched_iff, Bool.not_eq_true] at hl
    exact linkState_of_not_latched (hm.trans hl)

/-- A message is pending when the bridge is enabled, none is latched and the peer is ready: the condition of the poll
(44 R192). -/
theorem linkState_eq_inboundPending_iff :
    linkState s = .inboundPending ↔
      (s.regs.espEnable && !s.regs.espHasReceivedMessage && s.peer.dataReady) = true := by
  cases h : s.regs.espHasReceivedMessage with
  | true => simp [linkState_of_latched h]
  | false => simp [linkState_of_not_latched h]

/-! ### The poll (44 R192, R196) -/

/-- A poll of a pending message is one series of pulls into the inbound slot, the length byte its first. -/
theorem poll_of_pending (h : linkState s = .inboundPending) :
    poll s =
      (pullMany ((s.peer.pulled s.cfg.peerEmptyByte).toNat + 1) (rxBase s.regs) s).withRegs fun r =>
        { r with espHasReceivedMessage := true } :=
  if_pos (linkState_eq_inboundPending_iff.mp h)

theorem poll_of_not_pending (h : linkState s ≠ .inboundPending) : poll s = s :=
  if_neg (mt linkState_eq_inboundPending_iff.mpr h)

/-- R.ESPRX: the poll, then the flag as the poll leaves it (44 R196, 60 R266). -/
theorem exec_rEsprx (s : State) :
    exec .rEsprx s = .next ((poll s).ret (flagByte (poll s).regs.espHasReceivedMessage s.cfg.espRxBit)) := rfl

/-- R.ESPRX with no message pending (44 R196). -/
theorem exec_rEsprx_of_not_pending (h : linkState s ≠ .inboundPending) :
    exec .rEsprx s = .next (s.ret (flagByte s.regs.espHasReceivedMessage s.cfg.espRxBit)) := by
  rw [exec_rEsprx, poll_of_not_pending h]

/-- R.ESPRX with a message pending: the message goes into the slot and off the queue, the flag is set and returned
(44 R196). -/
theorem exec_rEsprx_of_pending {len : Byte} {q : List Byte} (h : linkState s = .inboundPending)
    (hq : s.peer.queue = len :: q) :
    exec .rEsprx s = .next
      { s with
        regs := { s.regs with espHasReceivedMessage := true }
        cram := (pullMany (len.toNat + 1) (rxBase s.regs) s).cram
        peer := { s.peer with queue := q.drop len.toNat }
        answer := .byte (flagByte true s.cfg.espRxBit) } := by
  have hlen : s.peer.pulled s.cfg.peerEmptyByte = len := by rw [Peer.pulled, hq, List.headD_cons]
  rw [exec_rEsprx, poll_of_pending h, hlen, pullMany_eq, hq]
  rfl

/-! ### What becomes of the peer (45 R240) -/

/-- A register write leaves the peer where its own rule does. -/
theorem registerWrite_peer {a : Addr} (ha : a.toNat < 0x2000) (d : Byte) {rule : State → State}
    (hr : ∀ u, (rule u).peer = u.peer) (s : State) : (registerWrite a d rule s).peer = s.peer := by
  rw [registerWrite_eq a d rule s ha]
  exact hr _

/-- The frame of a bank-select write holds the peer. -/
theorem exec_bankWrite_peer {i : Instr} (h : exec i s = .next t) (hi : isBankWrite i = true) : t.peer = s.peer := by
  obtain ⟨u, hu, ⟨hframe, -⟩, -⟩ := exec_bankWrite hi s
  cases h.symm.trans hu
  rw [hframe]

/-- No instruction but a read of 0x00F1 and a peer step touches the peer. -/
theorem exec_peer {i : Instr} (h : exec i s = .next t) (hr : i ≠ .rEsprx) (hp : ∀ r q, i ≠ .peer r q) :
    t.peer = s.peer := by
  cases i with
  | rEsprx => exact absurd rfl hr
  | peer r q => exact absurd rfl (hp r q)
  | mbc5Ramg _ _ | mbc5Romb0 _ _ | mbc5Romb1 _ _ | mbc5Ramb _ _ | wRomkind _ _ | wRommid _ _ | wRomlo _ _
  | wRamkind _ _ | wRammid _ _ | wRamlo _ _ =>
    exact exec_bankWrite_peer h rfl
  | wMode d | wBoot d | wCurhi d | wCurlo d | wCurinc d | wFpgadata d | wEspcfg d | wEsprxaddr d | wEsptxaddr d =>
    cases h
    exact registerWrite_peer (by decide) d (fun _ => rfl) s
  | wEspack d =>
    cases h
    refine registerWrite_peer (by decide) d (fun u => ?_) s
    split <;> rfl
  | wEsptx d =>
    cases h
    refine registerWrite_peer (by decide) d (fun u => ?_) s
    split
    · rw [transmit_eq]
    · rfl
  | wFall a d =>
    obtain ⟨u, hu, rfl⟩ := execWFall_next h
    obtain rfl | ⟨o, -, rfl⟩ | ⟨r, rfl⟩ := mappedWrite_next hu <;> rfl
  | wMem a d => obtain rfl | ⟨o, -, rfl⟩ | ⟨r, rfl⟩ := mappedWrite_next h <;> rfl
  | rFall a | rMem a => obtain ⟨b, rfl⟩ | ⟨r, rfl⟩ := mappedRead_next h <;> rfl
  | init c => obtain ⟨-, r, rfl⟩ | ⟨-, rfl⟩ := execInit_next h <;> rfl
  | restore m => obtain ⟨-, rfl⟩ | ⟨-, rfl⟩ := execRestore_next h <;> rfl
  | _ => cases h; rfl

/-! ### How each row moves the named state -/

/-- A poll latches a pending message and moves no other state (44 R192). -/
theorem linkState_rEsprx (h : exec .rEsprx s = .next t) :
    linkState t = if linkState s = .inboundPending then .inboundLatched else linkState s := by
  split
  next hp =>
    simp only [linkState_eq_inboundPending_iff, Bool.and_eq_true] at hp
    obtain ⟨⟨he, -⟩, hready⟩ := hp
    exact linkState_of_latched (by simp [exec_regs h, regsAfter, he, hready])
  next hp =>
    rw [exec_rEsprx_of_not_pending hp] at h
    cases h
    rfl

/-- An enabled acknowledge releases a latched message (44 R197). -/
theorem linkState_wEspack {d : Byte} (h : exec (.wEspack d) s = .next t) :
    linkState t =
      if linkState s = .inboundLatched ∧ s.regs.espEnable = true then
        (if s.peer.dataReady then .inboundPending else .idle)
      else linkState s := by
  have hregs := exec_regs h
  have hpeer := exec_peer h nofun nofun
  split
  next hl =>
    have hflag : t.regs.espHasReceivedMessage = false := by rw [hregs]; simp [regsAfter, hl.2]
    have henable : t.regs.espEnable = true := by rw [hregs]; exact hl.2
    rw [linkState_of_not_latched hflag, henable, hpeer, Bool.true_and]
  next hl =>
    have hkept : (!s.regs.espEnable && s.regs.espHasReceivedMessage) = s.regs.espHasReceivedMessage := by
      rw [Bool.and_eq_right_iff_imp, Bool.not_eq_true']
      exact fun hm => Bool.eq_false_iff.mpr fun he => hl ⟨linkState_of_latched hm, he⟩
    exact linkState_congr hregs hkept rfl hpeer

end

end Sys2Proof.Machine
end

section
/-! PROOFS. 44_bridge, the statements. -/

namespace Sys2Proof.BridgeProofs

open Sys2Proof Sys2Proof.Machine Sys2Proof.Claims

/-- Settles O52: the transmission's one series of pushes, on the latched S. -/
theorem transmitPushesLengthAndPayload : Obligations.TransmitPushesLengthAndPayload := by
  intro s d base len
  have hread (k : Nat) : s.cramByte (s.cfg.cartRamSize + base + k) = s.fpgaRead (txBase s.regs + k) :=
    congrArg s.cramByte (Nat.add_assoc ..)
  refine ⟨encodes_extended (a := 0x00F2) rfl, fun he => ?_, fun he => ?_⟩
  · rw [exec_wEsptx_of_enabled he, transmit_eq]
    refine ⟨_, rfl, ?_, fun _ => ⟨rfl, rfl⟩⟩
    simp only [hread]
    rfl
  · exact ⟨_, exec_wEsptx_of_disabled he d, rfl, fun _ => ⟨rfl, rfl⟩⟩

/-- Settles O53: the poll's one series of pulls, its first byte the length. -/
theorem pollCopiesOneMessage : Obligations.PollCopiesOneMessage := by
  intro s hwf base
  have hbase (k : Nat) : base + k = s.cfg.cartRamSize + (rxBase s.regs + k) := by
    simp only [base, rxBase, Nat.add_assoc]
  refine ⟨encodesRead_readRow (a := 0x00F1) (by decide), fun len q he hm hr hq => ?_, fun hno => ?_⟩
  · have hpending : linkState s = .inboundPending :=
      linkState_eq_inboundPending_iff.mpr (by simp [he, hm, Peer.dataReady, hr, hq])
    have hpulled (k : Nat) (hk : k < len.toNat + 1) := pullMany_read_inside _ (rxBase s.regs) k s hk hwf
    simp only [hq, ← hbase] at hpulled
    refine ⟨_, exec_rEsprx_of_pending hpending hq, by rw [flagByte_eq_statusByte], ?_, fun k hk => ?_, fun o ho => ?_⟩
    · exact hpulled 0 (by omega)
    · rw [Nat.add_assoc, Nat.add_comm 1]
      exact hpulled (k + 1) (by omega)
    · refine pullMany_read_outside _ _ o s ?_
      have := hbase 0
      omega
  · have hidle : linkState s ≠ .inboundPending := by
      rw [Ne, linkState_eq_inboundPending_iff]
      intro hall
      obtain h | h | h | h := hno <;> simp [Peer.dataReady, h] at hall
    rw [exec_rEsprx_of_not_pending hidle, flagByte_eq_statusByte]
    rfl

/-- Settles O57: the poll and the acknowledge write the latched flag; W.ESPCFG and a peer step leave it; no other instruction
but INIT and RESTORE touches what the named state reads. -/
theorem bridgeStateTransitions : Obligations.BridgeStateTransitions := by
  intro i s t h
  have hregs := exec_regs h
  cases i with
  | rEsprx => exact linkState_rEsprx h
  | wEspack d => exact linkState_wEspack h
  | wEspcfg d =>
    have hlink := linkState_of_flag_kept (s := s) hregs rfl
    rwa [exec_peer h nofun nofun] at hlink
  | peer r q =>
    have hpeer : t.peer = ⟨r, q⟩ := by cases h; rfl
    have hlink := linkState_of_flag_kept (s := s) hregs rfl
    rwa [hpeer, Peer.dataReady, ← Bool.and_assoc] at hlink
  | init _ | restore _ => trivial
  | _ => exact linkState_congr hregs rfl rfl (exec_peer h nofun nofun)

/-- Settles O50: the enable bits written into the latched S, and the byte of the read. -/
theorem espConfigWriteAndRead : Obligations.EspConfigWriteAndRead := by
  intro s d
  refine ⟨encodes_extended (a := 0x00F0) rfl, encodesRead_readRow (a := 0x00F0) (by decide),
    ⟨_, exec_wEspcfg d s, registerWriteFrame_withRegs s _, putEspCfg_eq (s.regs.latch d) d⟩,
    ⟨_, rfl, ?_, fun _ => ⟨rfl, rfl⟩⟩⟩
  rw [← espCfgByte_eq]
  rfl

/-- Settles O51: the flag cleared in the latched S, or the warning after the latch. -/
theorem acknowledgeClearsOrWarns : Obligations.AcknowledgeClearsOrWarns := by
  intro s d
  exact ⟨encodes_extended (a := 0x00F1) rfl,
    fun he => ⟨_, exec_wEspack_of_enabled he d, registerWriteFrame_withRegs s _, rfl⟩,
    fun he => ⟨_, exec_wEspack_of_disabled he d, rfl, fun _ => ⟨rfl, rfl⟩⟩⟩

/-- Settles O54: the word's two readings, and the byte of the read. -/
theorem messageSentRead : Obligations.MessageSentRead := by
  intro s
  refine ⟨encodesRead_readRow (a := 0x00F2) (by decide), ?_⟩
  rw [← flagByte_eq_statusByte]
  rfl

/-- Settles O56: the slot number written into the latched S; no register read claims either address. -/
theorem mailboxIndexWrites : Obligations.MailboxIndexWrites := by
  intro s d
  rw [← slotBits_eq_mod]
  exact ⟨encodes_extended (a := 0x00F3) rfl, encodes_extended (a := 0x00F4) rfl,
    encodesRead_readRow (a := 0x00F3) (by decide), encodesRead_readRow (a := 0x00F4) (by decide),
    ⟨_, exec_wEsprxaddr d s, registerWriteFrame_withRegs s _, rfl⟩,
    ⟨_, exec_wEsptxaddr d s, registerWriteFrame_withRegs s _, rfl⟩⟩

end Sys2Proof.BridgeProofs
end

section
/-! PROOFS. 45_memory_and_host, the layer below the statements: a register state and the tuple that SAVE and RESTORE speak of
determine each other, what RESTORE answers, and when the test peer has data. -/

namespace Sys2Proof

/-- Every field of a tuple within its width, field by field (10_state R44, 45 R233). -/
structure Image.Fits (m : Image) : Prop where
  bootRomMode : m.bootRomMode < 2
  mbc5CompatibilityMode : m.mbc5CompatibilityMode < 2
  ramEnabled : m.ramEnabled < 2
  romMode : m.romMode < 2 ^ 3
  ramMode : m.ramMode < 2
  romBanks : ∀ b ∈ m.romBanks.toList, b < 2 ^ 17
  ramBanks : ∀ b ∈ m.ramBanks.toList, b < 2 ^ 18
  fpgaRamAutoRwAddress : m.fpgaRamAutoRwAddress < 2 ^ 16
  fpgaRamAutoRwIncrement : m.fpgaRamAutoRwIncrement < 2 ^ 8
  espEnable : m.espEnable < 2
  espIrqEnable : m.espIrqEnable < 2
  espHasReceivedMessage : m.espHasReceivedMessage < 2
  espMessageSent : m.espMessageSent < 2
  espRxAddress : m.espRxAddress < 2 ^ 3
  espTxAddress : m.espTxAddress < 2 ^ 3

/-- The model's check of a tuple is the check of every field. -/
theorem Image.fits_iff {m : Image} : m.fits = true ↔ m.Fits := by
  simp only [Image.fits, Bool.and_eq_true, decide_eq_true_eq, List.all_eq_true, and_assoc]
  constructor
  · rintro ⟨hboot, hcompat, hram, hromMode, hramMode, hroms, hrams, haddr, hinc, hen, hirq, hrx, htx, hrxA, htxA⟩
    exact ⟨hboot, hcompat, hram, hromMode, hramMode, hroms, hrams, haddr, hinc, hen, hirq, hrx, htx, hrxA, htxA⟩
  · intro h
    exact ⟨h.bootRomMode, h.mbc5CompatibilityMode, h.ramEnabled, h.romMode, h.ramMode, h.romBanks, h.ramBanks,
      h.fpgaRamAutoRwAddress, h.fpgaRamAutoRwIncrement, h.espEnable, h.espIrqEnable, h.espHasReceivedMessage,
      h.espMessageSent, h.espRxAddress, h.espTxAddress⟩

namespace Machine

/-! ### Register states and tuples (10_state R43, 45 R232, R233) -/

/-- A flag of a tuple that fits. -/
theorem toNat_beq_one_of_lt {n : Nat} (h : n < 2) : (n == 1).toNat = n := by
  obtain rfl | rfl : n = 0 ∨ n = 1 := by omega
  · rfl
  · rfl

/-- A number of a tuple that fits. -/
theorem toNat_ofNat_of_lt {w n : Nat} (h : n < 2 ^ w) : (BitVec.ofNat w n).toNat = n :=
  (BitVec.toNat_ofNat ..).trans (Nat.mod_eq_of_lt h)

/-- A saved tuple fits (45 R232). -/
theorem Regs.fits_toImage (r : Regs) : r.toImage.fits = true := by
  have hslots {w n : Nat} (v : Vector (BitVec w) n) : ∀ b ∈ (mapSlots BitVec.toNat v).toList, b < 2 ^ w :=
    List.forall_mem_map.2 fun x _ => x.isLt
  exact Image.fits_iff.2
    ⟨Bool.toNat_lt _, Bool.toNat_lt _, Bool.toNat_lt _, BitVec.isLt _, Bool.toNat_lt _, hslots _, hslots _,
      BitVec.isLt _, BitVec.isLt _, Bool.toNat_lt _, Bool.toNat_lt _, Bool.toNat_lt _, Bool.toNat_lt _,
      BitVec.isLt _, BitVec.isLt _⟩

/-- Restoring the tuple of a register state gives that state (45 R232, R233). -/
theorem Regs.ofImage_toImage (r : Regs) : Regs.ofImage r.toImage = r := by
  have hslots {w n : Nat} (v : Vector (BitVec w) n) : mapSlots (BitVec.ofNat w) (mapSlots BitVec.toNat v) = v :=
    mapSlots_mapSlots _ _ v fun x _ => by simp
  simp [Regs.ofImage, Regs.toImage, hslots]

/-- A tuple that fits becomes S verbatim (45 R233, 70 R290). -/
theorem Regs.toImage_ofImage {m : Image} (hm : m.fits = true) : (Regs.ofImage m).toImage = m := by
  have h := Image.fits_iff.1 hm
  have hroms : mapSlots BitVec.toNat (mapSlots (BitVec.ofNat 17) m.romBanks) = m.romBanks :=
    mapSlots_mapSlots _ _ _ fun b hb => toNat_ofNat_of_lt (h.romBanks b hb)
  have hrams : mapSlots BitVec.toNat (mapSlots (BitVec.ofNat 18) m.ramBanks) = m.ramBanks :=
    mapSlots_mapSlots _ _ _ fun b hb => toNat_ofNat_of_lt (h.ramBanks b hb)
  simp only [Regs.toImage, Regs.ofImage, hroms, hrams, toNat_beq_one_of_lt h.bootRomMode,
    toNat_beq_one_of_lt h.mbc5CompatibilityMode, toNat_beq_one_of_lt h.ramEnabled, toNat_ofNat_of_lt h.romMode,
    toNat_beq_one_of_lt h.ramMode, toNat_ofNat_of_lt h.fpgaRamAutoRwAddress,
    toNat_ofNat_of_lt h.fpgaRamAutoRwIncrement, toNat_beq_one_of_lt h.espEnable, toNat_beq_one_of_lt h.espIrqEnable,
    toNat_beq_one_of_lt h.espHasReceivedMessage, toNat_beq_one_of_lt h.espMessageSent,
    toNat_ofNat_of_lt h.espRxAddress, toNat_ofNat_of_lt h.espTxAddress]

/-! ### The host rows (45 R233, R234) and the peer (45 R240) -/

/-- RESTORE of a tuple that fits (45 R233). -/
theorem exec_restore_of_fits {m : Image} (hm : m.fits = true) (s : State) :
    exec (.restore m) s = .next (s.withRegs fun _ => Regs.ofImage m).silent.remap :=
  if_pos hm

/-- RESTORE of a tuple that does not fit (45 R233, 60 R262). -/
theorem exec_restore_of_not_fits {m : Image} (hm : m.fits = false) (s : State) :
    exec (.restore m) s = .next (s.refuse .illFormedState) :=
  if_neg (Bool.eq_false_iff.1 hm)

/-- The engine takes the low read window from the host's answer (40 R111, 45 R234). -/
theorem State.remap_regReadLow (s : State) : s.remap.mapping.regReadLow = s.hostBootRomDisabled :=
  layout_regReadLow ..

/-- The test peer has data when it is ready and its queue is not empty (45 R240). -/
theorem Peer.dataReady_iff (p : Peer) : p.dataReady = true ↔ p.ready = true ∧ p.queue ≠ [] := by
  simp [Peer.dataReady]

end Machine
end Sys2Proof
end

section
/-! PROOFS. 45_memory_and_host, the statements about the host's rows and the peer's. -/

namespace Sys2Proof.MemoryAndHostProofs

open Sys2Proof.Machine

/-- Settles O59: register states and tuples that fit determine each other, and RESTORE asks nothing but the fit. -/
theorem saveThenRestore : Obligations.SaveThenRestore := by
  intro s u
  refine ⟨rfl, s.regs.fits_toImage, ?_, fun m hm => ?_, fun m hm => exec_restore_of_not_fits hm u⟩
  · rw [exec_restore_of_fits s.regs.fits_toImage, Regs.ofImage_toImage]
    rfl
  · exact ⟨_, exec_restore_of_fits hm u, Regs.toImage_ofImage hm, registerWriteFrame_withRegs u _⟩

/-- Settles O60: both rows are one change of the state; the low read window follows the host's answer at the engine's next
run. -/
theorem hostAndPeerSteps : Obligations.HostAndPeerSteps := by
  intro s
  exact ⟨fun b => ⟨_, rfl, rfl, ⟨_, rfl, State.remap_regReadLow _⟩, fun _ => ⟨rfl, rfl⟩⟩,
    fun r q => ⟨_, rfl, rfl, Peer.dataReady_iff ⟨r, q⟩, fun _ => ⟨rfl, rfl⟩⟩⟩

end Sys2Proof.MemoryAndHostProofs
end

section
/-! PROOFS. 60_exceptions, the layer below the statements: what INIT answers to each configuration, which inputs decode, and
that a decoded instruction completes. -/

namespace Sys2Proof.Machine

open Sys2Proof Sys2Proof.Claims

/-! ### INIT by its configuration (70 R290) -/

section
variable {c : Config}

/-- INIT with an unadmitted configuration (60 R262; log entry 5). -/
theorem exec_init_of_unadmitted (hc : c.wf = false) (s : State) :
    exec (.init c) s = .next (s.refuse .illFormedConfig) :=
  if_pos (by rw [hc]; rfl)

/-- INIT with an admitted configuration whose RESET_STATE does not fit (60 R262). -/
theorem exec_init_of_not_fits (hc : c.wf = true) (hf : c.resetState.fits = false) (s : State) :
    exec (.init c) s = .next (s.refuse .illFormedState) :=
  (if_neg (by rw [hc]; decide)).trans (if_pos (by rw [hf]; rfl))

/-- INIT with an admitted configuration whose RESET_STATE fits. -/
theorem exec_init_of_fits (hc : c.wf = true) (hf : c.resetState.fits = true) (s : State) :
    exec (.init c) s = .next (launch c s) :=
  (if_neg (by rw [hc]; decide)).trans (if_neg (by rw [hf]; decide))

end

/-! ### A decoded instruction completes -/

/-- Where M is current every instruction whose operands are those of some word completes: what could stop one is a mapped
access, and the mapped rows are at decoded addresses. -/
theorem State.mappingCurrent.exec_completes {s : State} (hs : s.mappingCurrent) {i : Instr} (hwf : i.wf = true) :
    ∃ t, exec i s = .next t := by
  cases i with
  | rFall a =>
    refine hs.mappedRead_completes ?_
    simp only [Instr.wf, Addr.inRamArea, Bool.or_eq_true, Bool.and_eq_true, decide_eq_true_eq] at hwf
    exact hwf.imp_left fun h => h.1.trans (by decide)
  | rMem a => exact hs.mappedRead_completes (a.inArea_iff.1 hwf)
  | wFall a d =>
    simp only [Instr.wf, Bool.and_eq_true, decide_eq_true_eq] at hwf
    obtain ⟨t, ht⟩ := hs.mappedWrite_completes (.inl (hwf.1.trans (by decide))) d
    exact ⟨t.remap, execWFall_of_next ht⟩
  | wMem a d =>
    refine hs.mappedWrite_completes ?_ d
    simp only [Instr.wf, Addr.inRamArea, Bool.or_eq_true, decide_eq_true_eq] at hwf
    exact hwf.imp_left And.right
  | init c =>
    cases hc : c.wf with
    | false => exact ⟨_, exec_init_of_unadmitted hc s⟩
    | true =>
      cases hf : c.resetState.fits with
      | false => exact ⟨_, exec_init_of_not_fits hc hf s⟩
      | true => exact ⟨_, exec_init_of_fits hc hf s⟩
  | restore m =>
    cases hm : m.fits with
    | false => exact ⟨_, exec_restore_of_not_fits hm s⟩
    | true => exact ⟨_, exec_restore_of_fits hm s⟩
  | _ => exact ⟨_, rfl⟩

/-! ### Which inputs decode -/

/-- An input decodes to a well-formed instruction, or it is the word of a read of a decoded address that carries data
(30 R80, R96; log entry 6). -/
theorem decodeInput_cases (ctx : DecodeCtx) (x : Input) :
    (∃ i, decodeInput ctx x = .ok i ∧ i.wf = true) ∨
    ∃ (a : Addr) (d : Byte), Decoded a ∧ d ≠ 0 ∧ x = .word (readWord a + d.toNat) := by
  cases x with
  | op o => exact .inl ⟨o.toInstr, rfl, by cases o <;> rfl⟩
  | word t =>
    cases h : decode ctx t with
    | ok i => exact .inl ⟨i, h, (decode_encodesIn h).1⟩
    | error e =>
      obtain hill | ⟨a, d, rfl⟩ | ⟨a, d, rfl⟩ := word_cases t
      · cases (decode_of_illFormed ctx hill).symm.trans h
      · cases (decode_write ctx a d).symm.trans h
      · rw [decode_readData] at h
        by_cases ha : Decoded a
        case neg => cases (decodeRead_of_not_decoded ctx ha).symm.trans h
        refine .inr ⟨a, d, ha, ?_, rfl⟩
        rintro rfl
        cases (decodeRead_of_decoded ctx ha).symm.trans h

/-- A state whose next step is a word is a state with that word presented. -/
theorem State.present_of_pending_cons {s : State} {t : Nat} {xs : List Input} (hp : s.pending = .word t :: xs) :
    State.present { s with pending := xs } t = s := by
  simp only [State.present, ← hp]

/-! ### The words the block does not decode (20 R53, 60 R262) -/

section
variable {s : State} {a : Addr}

theorem step_read_of_not_decoded (hc : s.cfg.wf = true) (ha : ¬ Decoded a) :
    step (s.present (readWord a)) = .next (s.refuse .notDecoded) :=
  step_present s _ _ hc ((decode_read _ a).trans (decodeRead_of_not_decoded _ ha))

theorem step_write_of_not_decoded (hc : s.cfg.wf = true) (ha : ¬ Decoded a) (d : Byte) :
    step (s.present (writeWord a d)) = .next (s.refuse .notDecoded) :=
  step_present s _ _ hc ((decode_write _ a d).trans (congrArg _ (decodeWrite_of_not_decoded _ ha)))

end

end Sys2Proof.Machine
end

section
/-! PROOFS. 60_exceptions, the statements. -/

namespace Sys2Proof.ExceptionsProofs

open Sys2Proof Sys2Proof.Machine Sys2Proof.Claims

/-- Settles O11: a waiting input that decodes is executed on a current M, and one that does not is refused as in O8. -/
theorem everyStepHasANextState : Obligations.EveryStepHasANextState := by
  intro s hs
  cases hp : s.pending with
  | nil => exact .inl ⟨s, step_of_pending_nil s hs.admitted hp⟩
  | cons x xs =>
    obtain ⟨i, hd, hwf⟩ | ⟨a, d, ha, hne, rfl⟩ := decodeInput_cases s.decodeCtx x
    · rw [step_of_pending_cons s x xs i hs.admitted hp hd]
      exact .inl ((hs.setPending xs).current.exec_completes hwf)
    · have hrefused := EncodingProofs.stepRefusesReadWordWithData { s with pending := xs } a d hs.admitted ha hne
      rw [State.present_of_pending_cons hp] at hrefused
      exact .inr ⟨a, d, xs, ha, hne, rfl, hrefused⟩

/-- Settles O24: every refusing row is `State.refuse`, one more record of Fault, and `LaunchFrame` keeps the records. -/
theorem refusalsAreRecorded : Obligations.RefusalsAreRecorded := by
  intro s
  refine ⟨fun a d ha => ⟨fun _ => rfl, fun hc => ?_⟩, fun _ _ => rfl, fun _ hc => exec_init_of_unadmitted hc s,
    fun _ hc hf => exec_init_of_not_fits hc hf s, fun _ hm => exec_restore_of_not_fits hm s,
    fun r => ⟨rfl, fun x => mem_insertRecord_iff x _ _⟩, fun r i t hi h => ?_, step_of_unadmitted s⟩
  · exact ⟨step_read_of_not_decoded hc ha, step_write_of_not_decoded hc ha d⟩
  · exact (exec_launchFrame h hi).marks (mem_insertRecord _ s.faults)

end Sys2Proof.ExceptionsProofs
end

section
/-! PROOFS. 70_reset_and_hazards, the layer below the statements: the reset state as a launch, the byte a list of cells gives
an offset, and that a register write completes in compat mode. -/

namespace Sys2Proof.Machine

open Sys2Proof Sys2Proof.Claims

/-! ### The reset state (70 R290, R291) -/

/-- INIT with the configuration of the vectors leaves the reset state as it is: that state is a launch (70 R290; log entry 8). -/
theorem launch_default_reset : launch Config.default State.reset = State.reset := by
  have hregs : Regs.ofImage Image.default = Regs.reset := by decide
  have hmapping : layout Config.default Regs.reset true = Mapping.reset := by decide
  calc launch Config.default State.reset
    _ = { State.reset with
          regs := Regs.ofImage Image.default
          mapping := layout Config.default (Regs.ofImage Image.default) true } := rfl
    _ = State.reset := by rw [hregs, hmapping]; rfl

/-! ### Storage at launch (70 R290, R293; log entry 15) -/

/-- One more cell is one more store, where it lies inside the array. -/
theorem Memory.ofCells_append_singleton (cells : List Host.Cell) (c : Host.Cell) (size : Nat) :
    Memory.ofCells (cells ++ [c]) size =
      if c.1 < size then Memory.write (Memory.ofCells cells size) c.1 c.2 else Memory.ofCells cells size := by
  simp only [Memory.ofCells, List.foldl_append, List.foldl_cons, List.foldl_nil]

/-- The cell listed last for an offset gives its byte. -/
theorem cellsByte_append_singleton (cells : List Host.Cell) (c : Host.Cell) (o : Nat) :
    cellsByte (cells ++ [c]) o = if c.1 = o then c.2 else cellsByte cells o := by
  unfold cellsByte
  by_cases h : c.1 = o <;> simp [h]

/-- The array a list of cells describes holds, inside its size, the byte the list gives each offset. -/
theorem Memory.read_ofCells (cells : List Host.Cell) {size o : Nat} (ho : o < size) :
    Memory.read (Memory.ofCells cells size) o = cellsByte cells o := by
  induction cells using List.reverseRecOn with
  | nil => rfl
  | append_singleton cells c ih =>
    rw [ofCells_append_singleton, cellsByte_append_singleton]
    by_cases hc : c.1 = o
    · rw [if_pos (hc ▸ ho), if_pos hc, ← hc, read_write_same _ (ofCells_wf cells size).1]
    · rw [if_neg hc, ← ih]
      split
      · exact read_write_of_ne _ _ _ _ (Ne.symm hc)
      · rfl

/-! ### Register writes in compat mode (41 R133) -/

/-- In compat mode no register write reaches the mapped storage, so none can stop. -/
theorem regWrite_completes_of_compat {s : State} (hc : s.regs.mbc5CompatibilityMode = true) (a : Addr) (d : Byte) :
    ∃ t, regWrite a d s = .next t := by
  unfold regWrite
  dsimp only
  split
  · exact ⟨_, rfl⟩
  · exact ⟨_, if_pos hc⟩

end Sys2Proof.Machine
end

section
/-! PROOFS. 70_reset_and_hazards, the statements. -/

namespace Sys2Proof.ResetAndHazardsProofs

open Sys2Proof Sys2Proof.Machine Sys2Proof.Claims

/-- Settles O10: the reset state is a launch. -/
theorem resetMeetsInvariant : Obligations.ResetMeetsInvariant := by
  have hlaunch : (launch Config.default State.reset).Inv := launch_inv (by decide) State.reset
  rwa [launch_default_reset] at hlaunch

/-- Settles O23: the write completes without storage, and `ramEnabled` after its row is known from the decoder. -/
theorem compatCoFiring : Obligations.CompatCoFiring := by
  intro s a d hwf hc ha
  obtain ⟨t, ht⟩ := regWrite_completes_of_compat hc a d
  have hx : exec (decodeWrite s.decodeCtx a d) s = .next t :=
    (exec_decodeWrite_register (ha.trans (by decide)) d s).trans ht
  refine ⟨t, (step_present s _ _ hwf (decode_write _ a d)).trans hx, ?_⟩
  rw [exec_regs hx, regsAfter_decodeWrite_ramEnabled, if_pos ⟨hc, Nat.lt_succ_of_le ha⟩]
  rfl

/-- Settles O58: INIT by its configuration; a launch's registers and arrays read back what the configuration lists. -/
theorem initLaunches : Obligations.InitLaunches := by
  intro c s
  refine ⟨fun hc hf => ?_, fun hc => exec_init_of_unadmitted hc s, fun hc hf => exec_init_of_not_fits hc hf s⟩
  have hrom : ∀ o, o < c.romSize → (launch c s).romByte o = cellsByte c.romInit o := fun o ho =>
    (congrArg (Memory.read _) (Nat.mod_eq_of_lt ho)).trans (Memory.read_ofCells c.romInit ho)
  have hcram : ∀ o, o < c.cartRamSize + 0x2000 → (launch c s).cramByte o = cellsByte c.cramInit o := fun _ ho =>
    Memory.read_ofCells c.cramInit ho
  exact ⟨launch c s, exec_init_of_fits hc hf s, rfl, Regs.toImage_ofImage hf, hrom, hcram,
    rfl, rfl, rfl, rfl, rfl, rfl, rfl⟩

end Sys2Proof.ResetAndHazardsProofs
end
